-- ==== Sys2Proof/Word.lean ====
section
/-! DEFINITION. The word types of the block (R9, R10, R12): data and program counters are 32-bit vectors,
memory is made of 8-bit bytes, operand identifiers have 6 bits, and a packed instruction record has 64. -/

namespace Sys2Proof

/-- A 32-bit data word, program counter or data address (R12, `Word32`). -/
abbrev Word := BitVec 32

/-- One byte of data memory (R83). -/
abbrev Byte := BitVec 8

/-- An operand identifier in 0..63: bit 5 selects the register file, 0 for `R` and 1 for `F`, and
bits [4:0] are the register number (R11, R113). -/
abbrev OperandId := BitVec 6

/-- The 64-bit packed form of an instruction record (R112). -/
abbrev PackedWord := BitVec 64

/-- The identifier names an integer register: its bit 5 is 0 (R113, form letter "R" of R117). -/
def OperandId.isInteger (id : OperandId) : Bool := !id.getLsbD 5

/-- The identifier names a floating register: its bit 5 is 1 (R113, form letter "F" of R117). -/
def OperandId.isFloating (id : OperandId) : Bool := id.getLsbD 5

/-- The register number inside its file: bits [4:0] of the identifier (R113). -/
def OperandId.number (id : OperandId) : BitVec 5 := id.extractLsb' 0 5

end Sys2Proof
end

