-- ==== Sys2Proof/Machine/Flags.lean ====
section
/-! DEFINITION. The block has no flags, condition codes or predicate registers, and no instruction writes a flag (R71,
R236). What stands in their place is the six conditions a branch evaluates on the signed value of one register
(R270 to R276). -/

namespace Sys2Proof.Machine

/-- `BEQZ`: `x = 0` (R271). -/
def isZero (a : Word) : Bool := decide (a.toInt = 0)
/-- `BNEZ`: `x ≠ 0` (R272). -/
def isNonzero (a : Word) : Bool := decide (a.toInt ≠ 0)
/-- `BLTZ`: `x < 0`, signed (R273). -/
def isNegative (a : Word) : Bool := decide (a.toInt < 0)
/-- `BGTZ`: `x > 0`, signed (R274). -/
def isPositive (a : Word) : Bool := decide (0 < a.toInt)
/-- `BLEZ`: `x ≤ 0`, signed (R275). -/
def isNonpositive (a : Word) : Bool := decide (a.toInt ≤ 0)
/-- `BGEZ`: `x ≥ 0`, signed (R276). -/
def isNonnegative (a : Word) : Bool := decide (0 ≤ a.toInt)

end Sys2Proof.Machine
end

