-- ==== Sys2Proof/Syntax.lean ====
section
/-! DEFINITION. The instruction records (R110) of the 26 opcodes (R116), one constructor per row of the
opcode table, each carrying exactly the fields its operand form uses (R117). -/

namespace Sys2Proof

/-- The 26 opcodes, in the order of their codes 0 to 25 (R116). -/
inductive Opcode where
  | add | sub | xor | and | mult | div
  | addi | subi | xori | andi
  | adds | subs | mults | divs
  | lw | lws | sw | sws
  | beqz | bnez | bltz | bgtz | blez | bgez
  | jump | eop
  deriving DecidableEq, Repr

/-- A decoded instruction record (R110). The operand identifiers are `dst`, `src1` and `src2` of the
record: a load's or store's `src1` is its base, a store's `src2` its data, a branch's `src1` the tested
register (R117, R118). -/
inductive Instr where
  /-- `ADD Rd, Rs, Rt`: code 0, form RRR (R200). -/
  | add (dst src1 src2 : OperandId)
  /-- `SUB Rd, Rs, Rt`: code 1, form RRR (R201). -/
  | sub (dst src1 src2 : OperandId)
  /-- `XOR Rd, Rs, Rt`: code 2, form RRR (R202). -/
  | xor (dst src1 src2 : OperandId)
  /-- `AND Rd, Rs, Rt`: code 3, form RRR (R203). -/
  | and (dst src1 src2 : OperandId)
  /-- `MULT Rd, Rs, Rt`: code 4, form RRR (R204). -/
  | mult (dst src1 src2 : OperandId)
  /-- `DIV Rd, Rs, Rt`: code 5, form RRR (R205). -/
  | div (dst src1 src2 : OperandId)
  /-- `ADDI Rd, Rs, imm`: code 6, form RRI (R206). -/
  | addi (dst src1 : OperandId) (imm : Word)
  /-- `SUBI Rd, Rs, imm`: code 7, form RRI (R207). -/
  | subi (dst src1 : OperandId) (imm : Word)
  /-- `XORI Rd, Rs, imm`: code 8, form RRI (R208). -/
  | xori (dst src1 : OperandId) (imm : Word)
  /-- `ANDI Rd, Rs, imm`: code 9, form RRI (R209). -/
  | andi (dst src1 : OperandId) (imm : Word)
  /-- `ADDS Fd, Fs, Ft`: code 10, form FFF (R230). -/
  | adds (dst src1 src2 : OperandId)
  /-- `SUBS Fd, Fs, Ft`: code 11, form FFF (R231). -/
  | subs (dst src1 src2 : OperandId)
  /-- `MULTS Fd, Fs, Ft`: code 12, form FFF (R232). -/
  | mults (dst src1 src2 : OperandId)
  /-- `DIVS Fd, Fs, Ft`: code 13, form FFF (R233). -/
  | divs (dst src1 src2 : OperandId)
  /-- `LW Rd, imm(Rs)`: code 14, form LDR (R250). -/
  | lw (dst src1 : OperandId) (imm : Word)
  /-- `LWS Fd, imm(Rs)`: code 15, form LDF (R251). -/
  | lws (dst src1 : OperandId) (imm : Word)
  /-- `SW Rt, imm(Rs)`: code 16, form STR (R252). -/
  | sw (src1 src2 : OperandId) (imm : Word)
  /-- `SWS Ft, imm(Rs)`: code 17, form STF (R253). -/
  | sws (src1 src2 : OperandId) (imm : Word)
  /-- `BEQZ Rs, target`: code 18, form BR (R271). -/
  | beqz (src1 : OperandId) (imm : Word)
  /-- `BNEZ Rs, target`: code 19, form BR (R272). -/
  | bnez (src1 : OperandId) (imm : Word)
  /-- `BLTZ Rs, target`: code 20, form BR (R273). -/
  | bltz (src1 : OperandId) (imm : Word)
  /-- `BGTZ Rs, target`: code 21, form BR (R274). -/
  | bgtz (src1 : OperandId) (imm : Word)
  /-- `BLEZ Rs, target`: code 22, form BR (R275). -/
  | blez (src1 : OperandId) (imm : Word)
  /-- `BGEZ Rs, target`: code 23, form BR (R276). -/
  | bgez (src1 : OperandId) (imm : Word)
  /-- `JUMP target`: code 24, form J (R277). -/
  | jump (imm : Word)
  /-- `EOP`: code 25, the end-of-program marker, no operand (R280). -/
  | eop
  deriving DecidableEq, Repr

/-- The `op` field of a record (R110). -/
def Instr.opcode : Instr → Opcode
  | .add _ _ _ => .add
  | .sub _ _ _ => .sub
  | .xor _ _ _ => .xor
  | .and _ _ _ => .and
  | .mult _ _ _ => .mult
  | .div _ _ _ => .div
  | .addi _ _ _ => .addi
  | .subi _ _ _ => .subi
  | .xori _ _ _ => .xori
  | .andi _ _ _ => .andi
  | .adds _ _ _ => .adds
  | .subs _ _ _ => .subs
  | .mults _ _ _ => .mults
  | .divs _ _ _ => .divs
  | .lw _ _ _ => .lw
  | .lws _ _ _ => .lws
  | .sw _ _ _ => .sw
  | .sws _ _ _ => .sws
  | .beqz _ _ => .beqz
  | .bnez _ _ => .bnez
  | .bltz _ _ => .bltz
  | .bgtz _ _ => .bgtz
  | .blez _ _ => .blez
  | .bgez _ _ => .bgez
  | .jump _ => .jump
  | .eop => .eop

/-- What a station or a reorder-buffer entry still knows of its instruction is its opcode (R38, R47): the
later stages take operands, immediate and destination from the station and the entry, never from the record's
own fields. `Opcode.inFlight` is the record of that opcode with every field 0, the name under which an
instruction in flight is executed. -/
def Opcode.inFlight : Opcode → Instr
  | .add => .add 0 0 0
  | .sub => .sub 0 0 0
  | .xor => .xor 0 0 0
  | .and => .and 0 0 0
  | .mult => .mult 0 0 0
  | .div => .div 0 0 0
  | .addi => .addi 0 0 0
  | .subi => .subi 0 0 0
  | .xori => .xori 0 0 0
  | .andi => .andi 0 0 0
  | .adds => .adds 0 0 0
  | .subs => .subs 0 0 0
  | .mults => .mults 0 0 0
  | .divs => .divs 0 0 0
  | .lw => .lw 0 0 0
  | .lws => .lws 0 0 0
  | .sw => .sw 0 0 0
  | .sws => .sws 0 0 0
  | .beqz => .beqz 0 0
  | .bnez => .bnez 0 0
  | .bltz => .bltz 0 0
  | .bgtz => .bgtz 0 0
  | .blez => .blez 0 0
  | .bgez => .bgez 0 0
  | .jump => .jump 0
  | .eop => .eop

end Sys2Proof
end

