-- ==== Sys2Proof/WellFormed.lean ====
section
/-! DEFINITION. Well-formed records: every used operand field names a register of the file that the
opcode's operand form gives (R117). The other half of R124, that unused fields and reserved bits are 0,
concerns the packed word only (an `Instr` has no unused field), and stands in the decoder. -/

namespace Sys2Proof

/-- R117: the register file of every used operand field is the one of the opcode's form. -/
def Instr.wellFormed : Instr → Bool
  | .add d a b | .sub d a b | .xor d a b | .and d a b | .mult d a b | .div d a b =>
      d.isInteger && a.isInteger && b.isInteger
  | .addi d a _ | .subi d a _ | .xori d a _ | .andi d a _ => d.isInteger && a.isInteger
  | .adds d a b | .subs d a b | .mults d a b | .divs d a b =>
      d.isFloating && a.isFloating && b.isFloating
  | .lw d a _ => d.isInteger && a.isInteger
  | .lws d a _ => d.isFloating && a.isInteger
  | .sw a b _ => a.isInteger && b.isInteger
  | .sws a b _ => a.isInteger && b.isFloating
  | .beqz a _ | .bnez a _ | .bltz a _ | .bgtz a _ | .blez a _ | .bgez a _ => a.isInteger
  | .jump _ => true
  | .eop => true

end Sys2Proof
end

