-- ==== Sys2Proof/Decode.lean ====
section
/-! DEFINITION. The packed 64-bit form of a record (R112 to R117): the total decoder, which refuses by name
(R123, R124, R127), then the encoder, and the opcode table the decoder is held against. -/

namespace Sys2Proof

/-- Why a packed word is no instruction (R127). -/
inductive DecodeError where
  /-- Bits [4:0] hold a reserved code, 26 to 31 (R123). -/
  | unknownOpcode
  /-- The opcode is known, but a reserved bit is set, a used field names the wrong register file, or an unused
  field is not 0 (R124). -/
  | badOperand
  deriving DecidableEq, Repr

/-- The opcode of a 5-bit code; codes 26 to 31 are reserved (R116, R123). -/
def Opcode.ofCode (code : BitVec 5) : Option Opcode :=
  match code.toNat with
  | 0 => some .add
  | 1 => some .sub
  | 2 => some .xor
  | 3 => some .and
  | 4 => some .mult
  | 5 => some .div
  | 6 => some .addi
  | 7 => some .subi
  | 8 => some .xori
  | 9 => some .andi
  | 10 => some .adds
  | 11 => some .subs
  | 12 => some .mults
  | 13 => some .divs
  | 14 => some .lw
  | 15 => some .lws
  | 16 => some .sw
  | 17 => some .sws
  | 18 => some .beqz
  | 19 => some .bnez
  | 20 => some .bltz
  | 21 => some .bgtz
  | 22 => some .blez
  | 23 => some .bgez
  | 24 => some .jump
  | 25 => some .eop
  | _ => none

/-- The 5-bit code of an opcode (R116). -/
def Opcode.code : Opcode → BitVec 5
  | .add => 0
  | .sub => 1
  | .xor => 2
  | .and => 3
  | .mult => 4
  | .div => 5
  | .addi => 6
  | .subi => 7
  | .xori => 8
  | .andi => 9
  | .adds => 10
  | .subs => 11
  | .mults => 12
  | .divs => 13
  | .lw => 14
  | .lws => 15
  | .sw => 16
  | .sws => 17
  | .beqz => 18
  | .bnez => 19
  | .bltz => 20
  | .bgtz => 21
  | .blez => 22
  | .bgez => 23
  | .jump => 24
  | .eop => 25

/-- Field `op`, bits [4:0] (R112). -/
def opField (w : PackedWord) : BitVec 5 := w.extractLsb' 0 5
/-- Reserved bits [7:5] (R112). -/
def lowReserved (w : PackedWord) : BitVec 3 := w.extractLsb' 5 3
/-- Field `src1`, bits [13:8] (R112). -/
def src1Field (w : PackedWord) : OperandId := w.extractLsb' 8 6
/-- Field `src2`, bits [19:14] (R112). -/
def src2Field (w : PackedWord) : OperandId := w.extractLsb' 14 6
/-- Field `dst`, bits [25:20] (R112). -/
def dstField (w : PackedWord) : OperandId := w.extractLsb' 20 6
/-- Reserved bits [31:26] (R112). -/
def highReserved (w : PackedWord) : BitVec 6 := w.extractLsb' 26 6
/-- Field `imm`, bits [63:32] (R112, R114). -/
def immField (w : PackedWord) : Word := w.extractLsb' 32 32

/-- R115, first half: both reserved fields are 0. -/
def reservedClear (w : PackedWord) : Bool := lowReserved w == 0 && highReserved w == 0

/-- The record whose opcode is `op` and whose used fields are those of the word (R112, R117). -/
def recordOf (op : Opcode) (w : PackedWord) : Instr :=
  match op with
  | .add => .add (dstField w) (src1Field w) (src2Field w)
  | .sub => .sub (dstField w) (src1Field w) (src2Field w)
  | .xor => .xor (dstField w) (src1Field w) (src2Field w)
  | .and => .and (dstField w) (src1Field w) (src2Field w)
  | .mult => .mult (dstField w) (src1Field w) (src2Field w)
  | .div => .div (dstField w) (src1Field w) (src2Field w)
  | .addi => .addi (dstField w) (src1Field w) (immField w)
  | .subi => .subi (dstField w) (src1Field w) (immField w)
  | .xori => .xori (dstField w) (src1Field w) (immField w)
  | .andi => .andi (dstField w) (src1Field w) (immField w)
  | .adds => .adds (dstField w) (src1Field w) (src2Field w)
  | .subs => .subs (dstField w) (src1Field w) (src2Field w)
  | .mults => .mults (dstField w) (src1Field w) (src2Field w)
  | .divs => .divs (dstField w) (src1Field w) (src2Field w)
  | .lw => .lw (dstField w) (src1Field w) (immField w)
  | .lws => .lws (dstField w) (src1Field w) (immField w)
  | .sw => .sw (src1Field w) (src2Field w) (immField w)
  | .sws => .sws (src1Field w) (src2Field w) (immField w)
  | .beqz => .beqz (src1Field w) (immField w)
  | .bnez => .bnez (src1Field w) (immField w)
  | .bltz => .bltz (src1Field w) (immField w)
  | .bgtz => .bgtz (src1Field w) (immField w)
  | .blez => .blez (src1Field w) (immField w)
  | .bgez => .bgez (src1Field w) (immField w)
  | .jump => .jump (immField w)
  | .eop => .eop

/-- R115, second half: every field the opcode's form does not use is 0 (R117). -/
def unusedClear (op : Opcode) (w : PackedWord) : Bool :=
  match op with
  | .add | .sub | .xor | .and | .mult | .div | .adds | .subs | .mults | .divs => immField w == 0
  | .addi | .subi | .xori | .andi | .lw | .lws => src2Field w == 0
  | .sw | .sws => dstField w == 0
  | .beqz | .bnez | .bltz | .bgtz | .blez | .bgez => dstField w == 0 && src2Field w == 0
  | .jump => dstField w == 0 && src1Field w == 0 && src2Field w == 0
  | .eop => dstField w == 0 && src1Field w == 0 && src2Field w == 0 && immField w == 0

/-- Decoding, total on 64-bit words (R127): a reserved code is refused first (R123), then a word that breaks
R115 or R117 (R124). -/
def decode (w : PackedWord) : Except DecodeError Instr :=
  match Opcode.ofCode (opField w) with
  | none => .error .unknownOpcode
  | some op =>
    if reservedClear w && unusedClear op w && (recordOf op w).wellFormed then .ok (recordOf op w)
    else .error .badOperand

/-- The packed word of a record: the fields of R112 side by side, the reserved bits 0. -/
def packRecord (op : Opcode) (dst src1 src2 : OperandId) (imm : Word) : PackedWord :=
  (imm ++ (0#6 ++ (dst ++ (src2 ++ (src1 ++ (0#3 ++ op.code))))))

/-- The word of an instruction, its unused fields 0 (R112, R115, R117). -/
def encode : Instr → PackedWord
  | .add d a b => packRecord .add d a b 0
  | .sub d a b => packRecord .sub d a b 0
  | .xor d a b => packRecord .xor d a b 0
  | .and d a b => packRecord .and d a b 0
  | .mult d a b => packRecord .mult d a b 0
  | .div d a b => packRecord .div d a b 0
  | .addi d a i => packRecord .addi d a 0 i
  | .subi d a i => packRecord .subi d a 0 i
  | .xori d a i => packRecord .xori d a 0 i
  | .andi d a i => packRecord .andi d a 0 i
  | .adds d a b => packRecord .adds d a b 0
  | .subs d a b => packRecord .subs d a b 0
  | .mults d a b => packRecord .mults d a b 0
  | .divs d a b => packRecord .divs d a b 0
  | .lw d a i => packRecord .lw d a 0 i
  | .lws d a i => packRecord .lws d a 0 i
  | .sw a b i => packRecord .sw 0 a b i
  | .sws a b i => packRecord .sws 0 a b i
  | .beqz a i => packRecord .beqz 0 a 0 i
  | .bnez a i => packRecord .bnez 0 a 0 i
  | .bltz a i => packRecord .bltz 0 a 0 i
  | .bgtz a i => packRecord .bgtz 0 a 0 i
  | .blez a i => packRecord .blez 0 a 0 i
  | .bgez a i => packRecord .bgez 0 a 0 i
  | .jump i => packRecord .jump 0 0 0 i
  | .eop => packRecord .eop 0 0 0 0

/-- The mask of an opcode's row in opcode_table.json (R127): the bits the row fixes. -/
def rowMask : Opcode → PackedWord
  | .add | .sub | .xor | .and | .mult | .div | .adds | .subs | .mults | .divs => 0xFFFFFFFFFE0820FF
  | .addi | .subi | .xori | .andi | .lw | .lws => 0x00000000FE0FE0FF
  | .sw | .sws => 0x00000000FFF820FF
  | .beqz | .bnez | .bltz | .bgtz | .blez | .bgez => 0x00000000FFFFE0FF
  | .jump => 0x00000000FFFFFFFF
  | .eop => 0xFFFFFFFFFFFFFFFF

/-- The match value of an opcode's row in opcode_table.json (R127). -/
def rowMatch : Opcode → PackedWord
  | .add => 0x0000000000000000
  | .sub => 0x0000000000000001
  | .xor => 0x0000000000000002
  | .and => 0x0000000000000003
  | .mult => 0x0000000000000004
  | .div => 0x0000000000000005
  | .addi => 0x0000000000000006
  | .subi => 0x0000000000000007
  | .xori => 0x0000000000000008
  | .andi => 0x0000000000000009
  | .adds => 0x000000000208200A
  | .subs => 0x000000000208200B
  | .mults => 0x000000000208200C
  | .divs => 0x000000000208200D
  | .lw => 0x000000000000000E
  | .lws => 0x000000000200000F
  | .sw => 0x0000000000000010
  | .sws => 0x0000000000080011
  | .beqz => 0x0000000000000012
  | .bnez => 0x0000000000000013
  | .bltz => 0x0000000000000014
  | .bgtz => 0x0000000000000015
  | .blez => 0x0000000000000016
  | .bgez => 0x0000000000000017
  | .jump => 0x0000000000000018
  | .eop => 0x0000000000000019

/-- The word lies in the opcode's row of the table. -/
def inRow (op : Opcode) (w : PackedWord) : Bool := w &&& rowMask op == rowMatch op

/-- The packed word of an instruction whose first `nbits` bits are `w` and whose bits above are 0. A record has
64 bits and no byte representation (R110, R112), so a longer one names no instruction. -/
def tableWord (nbits w : Nat) : Option PackedWord :=
  if nbits ≤ 64 then some (BitVec.ofNat 64 (w % 2 ^ nbits)) else none

/-- The instruction the decoder reads from such a word. -/
def decodeTableWord (nbits w : Nat) : Option Instr :=
  match tableWord nbits w with
  | none => none
  | some v =>
    match decode v with
    | .ok i => some i
    | .error _ => none

end Sys2Proof
end

