-- ==== Sys2Proof/Config.lean ====
section
/-! DEFINITION. The configuration fixed at construction (R7, R9), and the one free value of the spec, the bit
pattern of a NaN result (R235). The spec gives no values for the configuration, so the machine's state carries one
(the model takes every parameter as an argument); `Config.standard` is the one the spec's vectors use. -/

namespace Sys2Proof

/-- The instruction width `W` in bytes: the stride of instruction addresses (R9, R111, decision D1;
DESIGN CHOICE, log entry 11). -/
def instrWidth : Nat := 4

/-- The number of bytes every data access moves (R84, R90). -/
def dataWidth : Nat := 4

/-- The four reservation-station classes (R46). -/
inductive RsClass where
  | int | ldst | fadd | muldiv
  deriving DecidableEq, Repr

/-- The four functional-unit classes (R53). -/
inductive FuClass where
  | integer | memory | adder | multdiv
  deriving DecidableEq, Repr

/-- The order of renaming and operand resolution (`SELF_ALIAS_POLICY`, R154). -/
inductive SelfAliasPolicy where
  /-- `DEST_FIRST`, the default: the destination is renamed before the sources are resolved. -/
  | destFirst
  /-- `SOURCES_FIRST`: the sources are resolved before the destination is renamed. -/
  | sourcesFirst
  deriving DecidableEq, Repr

/-- One natural number per station class (`RS_COUNT`, R7). -/
structure RsTable where
  int : Nat
  ldst : Nat
  fadd : Nat
  muldiv : Nat
  deriving DecidableEq, Repr

/-- One natural number per unit class (`FU_COUNT`, `FU_LATENCY`, R7). -/
structure FuTable where
  integer : Nat
  memory : Nat
  adder : Nat
  multdiv : Nat
  deriving DecidableEq, Repr

def RsTable.get (t : RsTable) : RsClass → Nat
  | .int => t.int
  | .ldst => t.ldst
  | .fadd => t.fadd
  | .muldiv => t.muldiv

def FuTable.get (t : FuTable) : FuClass → Nat
  | .integer => t.integer
  | .memory => t.memory
  | .adder => t.adder
  | .multdiv => t.multdiv

/-- The configuration of R7, with the class maps and the self-alias policy of R9. A class map is a table of
opcodes and classes; an opcode without an entry has no class (DESIGN CHOICE, safe, log entry 12). -/
structure Config where
  /-- `MEM_SIZE`: data-memory size in bytes. -/
  memSize : Nat
  /-- `ROB_DEPTH`: number of reorder-buffer entries. -/
  robDepth : Nat
  /-- `RS_COUNT[c]`: stations of each class. -/
  rsCount : RsTable
  /-- `ISSUE_WIDTH`: most instructions issued in a cycle. -/
  issueWidth : Nat
  /-- `FU_COUNT[k]`: units of each class. -/
  fuCount : FuTable
  /-- `FU_LATENCY[k]`: the unit class's fixed latency, in cycles. -/
  fuLatency : FuTable
  /-- `SELF_ALIAS_POLICY`. -/
  selfAlias : SelfAliasPolicy
  /-- `RS_CLASS_OF`: the station class of each issuable opcode. -/
  rsClassOf : List (Opcode × RsClass)
  /-- `FU_CLASS_OF`: the unit class of each issuable opcode. -/
  fuClassOf : List (Opcode × FuClass)
  deriving DecidableEq, Repr

/-- The station class of an opcode, if the map gives one (R122). -/
def Config.rsClass (c : Config) (op : Opcode) : Option RsClass := c.rsClassOf.lookup op

/-- The unit class of an opcode, if the map gives one (R122). -/
def Config.fuClass (c : Config) (op : Opcode) : Option FuClass := c.fuClassOf.lookup op

/-- The 25 issuable opcodes, codes 0 to 24 (R122). -/
def issuableOpcodes : List Opcode :=
  [.add, .sub, .xor, .and, .mult, .div, .addi, .subi, .xori, .andi, .adds, .subs, .mults, .divs,
   .lw, .lws, .sw, .sws, .beqz, .bnez, .bltz, .bgtz, .blez, .bgez, .jump]

/-- The default `RS_CLASS_OF` of R121. -/
def defaultRsClassOf : List (Opcode × RsClass) :=
  [(.add, .int), (.sub, .int), (.xor, .int), (.and, .int),
   (.addi, .int), (.subi, .int), (.xori, .int), (.andi, .int),
   (.beqz, .int), (.bnez, .int), (.bltz, .int), (.bgtz, .int), (.blez, .int), (.bgez, .int), (.jump, .int),
   (.mult, .muldiv), (.div, .muldiv), (.mults, .muldiv), (.divs, .muldiv),
   (.adds, .fadd), (.subs, .fadd),
   (.lw, .ldst), (.lws, .ldst), (.sw, .ldst), (.sws, .ldst)]

/-- The default `FU_CLASS_OF` of R121. -/
def defaultFuClassOf : List (Opcode × FuClass) :=
  [(.add, .integer), (.sub, .integer), (.xor, .integer), (.and, .integer),
   (.addi, .integer), (.subi, .integer), (.xori, .integer), (.andi, .integer),
   (.beqz, .integer), (.bnez, .integer), (.bltz, .integer), (.bgtz, .integer), (.blez, .integer),
   (.bgez, .integer), (.jump, .integer),
   (.mult, .multdiv), (.div, .multdiv), (.mults, .multdiv), (.divs, .multdiv),
   (.adds, .adder), (.subs, .adder),
   (.lw, .memory), (.lws, .memory), (.sw, .memory), (.sws, .memory)]

/-- DESIGN CHOICE (unsafe), log entry 1: the source gives no configuration values (R7), so the machine that
`State.reset` describes is constructed with the configuration STD of the spec's test vectors
(95_test_vectors.md, conventions). -/
def Config.standard : Config :=
  { memSize := 64
    robDepth := 8
    rsCount := { int := 2, ldst := 2, fadd := 2, muldiv := 2 }
    issueWidth := 2
    fuCount := { integer := 2, memory := 1, adder := 1, multdiv := 1 }
    fuLatency := { integer := 1, memory := 2, adder := 2, multdiv := 4 }
    selfAlias := .destFirst
    rsClassOf := defaultRsClassOf
    fuClassOf := defaultFuClassOf }

/-- `FP_NAN(op, a, b)` of R235, the free value of the model: the sign bit, and the fraction less one, of the NaN
an operation returns. Nothing is known of it; the spec asks only that the result is a NaN encoding, which
`nanResult` guarantees by construction (log entry 2). -/
opaque Config.freeNan (op : Opcode) (a b : Word) : Bool × Fin (2 ^ 23 - 2 + 1)

end Sys2Proof
end

