-- ==== Sys2Proof/Machine/State.lean ====
section
/-! DEFINITION. The state of the block as plain data (10_state.md), the reasons a step can stop, and the state
after reset. The state carries its configuration and its program, so that a statement about every state is one about
every configuration and every program (R7, R8). -/

namespace Sys2Proof.Machine

/-- The stage of a reorder-buffer entry (R38, R44). -/
inductive Stage where
  | issue | execute | writeResult | commit
  deriving DecidableEq, Repr

/-- The destination of a reorder-buffer entry (R38). -/
inductive Dest where
  /-- `REG(id)`: a register, named by its operand identifier. -/
  | reg (id : OperandId)
  /-- `STORE`: the memory-store marker. -/
  | store
  /-- `NONE`: branches and `JUMP`. -/
  | noDest
  deriving DecidableEq, Repr

/-- One reorder-buffer entry (R38). -/
structure RobEntry where
  pc : Option Word
  ready : Bool
  stage : Stage
  dest : Dest
  op : Opcode
  value : Option Word
  deriving DecidableEq, Repr

/-- One operand slot of a station (R48). A resolved value is a word or, for `none`, the undefined value `⊥`. -/
inductive Slot where
  | absent
  | wait (tag : Nat)
  | val (x : Option Word)
  deriving DecidableEq, Repr

/-- One reservation station (R47). -/
structure Station where
  cls : RsClass
  pc : Option Word
  op : Opcode
  j : Slot
  k : Slot
  dest : Nat
  imm : Word
  ea : Option Word
  ready : Bool
  executing : Bool
  deriving DecidableEq, Repr

/-- One functional unit (R54). -/
structure FuncUnit where
  cls : FuClass
  latency : Nat
  count : Nat
  pc : Option Word
  inUse : Bool
  deriving DecidableEq, Repr

/-- One entry of the register alias table (R58). -/
structure RatEntry where
  tag : Option Nat
  op : Option Opcode
  pc : Option Word
  deriving DecidableEq, Repr

/-- One record of the squash log (R68). -/
structure SquashRecord where
  branchPc : Word
  target : Word
  squashed : List Word
  deriving DecidableEq, Repr

/-- The runtime faults of R311; their numbers are `FaultCode.number`. -/
inductive FaultCode where
  | fetchFault
  | memoryBounds
  | misalignedAccess
  | undefinedOperand
  | undefinedMemory
  | divideByZero
  | divideOverflow
  deriving DecidableEq, Repr

/-- The fault record `(code, pc, info)` (R70, R303). -/
structure FaultRecord where
  code : FaultCode
  pc : Word
  info : Option Word
  deriving DecidableEq, Repr

/-- The program parameters of R8: `PROG` and `BASE_PC`. -/
structure Program where
  base : Word
  records : List Instr
  deriving DecidableEq, Repr

/-- Data memory (R80, R83): the bytes that hold a value, as address and byte pairs with strictly rising addresses.
An address that is not listed reads as the undefined value `⊥`. -/
abbrev Memory := List Host.Cell

/-- Which stage of its life an instruction is served at (the model's own cursor, log entry 3). The phases of a cycle
point it at the station and unit, or at the reorder-buffer entry, that they handle, and execute the instruction; it
rests at `issue`. -/
inductive Serving where
  /-- Issue: the record at `fetchPC` is considered (R143). -/
  | issue
  /-- Execute-dispatch: the station takes the unit (R156). The numbers are positions in `rs` and `fu`. -/
  | dispatch (station unit : Nat)
  /-- Write-result: the unit completes the station's instruction (R162). -/
  | writeResult (station unit : Nat)
  /-- Commit: the oldest entry, ready, retires (R173). The number is the entry's index. -/
  | commit (entry : Nat)
  deriving DecidableEq, Repr

/-- The whole state (10_state.md), with the configuration and the program beside it. -/
structure State where
  /-- The configuration, fixed at construction (R7, R340). -/
  cfg : Config
  /-- The loaded program, `none` before the first successful `load` (R8, R342). -/
  prog : Option Program
  /-- Integer registers `R[0..31]`; `none` is `⊥`, the spec's own undefined value (R30, R31, log entry 9). -/
  r : Vector (Option Word) 32
  /-- Floating registers `F[0..31]`; `none` is `⊥` (R30, R31, log entry 9). -/
  f : Vector (Option Word) 32
  /-- The fetch program counter (R35). -/
  fetchPC : Word
  /-- The reorder buffer, `ROB_DEPTH` entries (R38). -/
  rob : List RobEntry
  /-- The next reorder-buffer entry to allocate (R41). -/
  robTail : Nat
  /-- The stations of all classes, INT, LDST, FADD, MULDIV in this order, each class by index (R46,
  log entry 16). -/
  rs : List Station
  /-- The units of all classes, INTEGER, MEMORY, ADDER, MULTDIV in this order, each class by index (R53,
  log entry 16). -/
  fu : List FuncUnit
  /-- The register alias table, one entry per operand identifier (R58). -/
  rat : Vector RatEntry 64
  /-- Data memory (R80, R83). -/
  mem : Memory
  /-- Elapsed cycles (R65). -/
  cycles : Nat
  /-- Retired instructions (R66). -/
  retired : Nat
  /-- The retirement log, oldest first (R67). -/
  retLog : List (Word × Opcode)
  /-- The squash log, oldest first (R68). -/
  squashLog : List SquashRecord
  /-- The program has completed (R69). -/
  done : Bool
  /-- The fault that stopped the block (R70). -/
  fault : Option FaultRecord
  /-- The model's own cursor: what the executed instruction is served at (log entry 3). -/
  serving : Serving
  deriving DecidableEq, Repr

/-- Stops at states no run reaches, where the spec gives no effect. Each is safe: the model stops where the spec calls
the situation impossible (DESIGN CHOICE, log entry 10). The runtime faults of the spec (R303) are not these: they lead to a next state whose `fault`
field records them. -/
inductive Fault where
  /-- An operand or effective address is read where its slot is `absent` or `wait`, or before dispatch has computed it;
  raised by the operand reads of Dispatch and Write-result ("unreachable", R164, R183). Safe. -/
  | unresolvedOperand
  /-- A completing unit is served by no busy station or by several; raised by Write-result (R163). Safe. -/
  | noServedStation
  /-- The cursor names a station, unit or entry that does not exist or is not busy; raised by the stage operations.
  The phases of a cycle never point it there. Safe. -/
  | nothingServed
  /-- A ready entry holds no value; raised by Commit (R45). Safe. -/
  | readyWithoutValue
  /-- The class map has no entry for an opcode in use; raised by Issue and Dispatch. Construction refuses such a
  configuration (R301, `ConfigRange`). Safe. -/
  | classUndefined
  deriving DecidableEq, Repr

/-- Steps the block refuses. -/
inductive Refusal where
  /-- The instruction has no meaning in the model; raised by `exec` only. Safe. -/
  | notModelled (mnemonic : String)
  /-- No program has been loaded since construction: `run` refuses (R301, `NoProgram`). Safe. -/
  | noProgram
  deriving DecidableEq, Repr

/-- A reorder-buffer entry after a clear (R39, R73). Its `op` is any value (R74, log entry 4). -/
def RobEntry.free : RobEntry :=
  { pc := none, ready := false, stage := .issue, dest := .noDest, op := .eop, value := none }

/-- A station that is not busy (R73). Its `op`, `dest` and `imm` are any value (R74, log entry 4). -/
def Station.free (c : RsClass) : Station :=
  { cls := c, pc := none, op := .eop, j := .absent, k := .absent, dest := 0, imm := 0, ea := none,
    ready := false, executing := false }

/-- A unit that is not in use (R73). -/
def FuncUnit.free (k : FuClass) (latency : Nat) : FuncUnit :=
  { cls := k, latency := latency, count := 0, pc := none, inUse := false }

/-- A RAT entry with no pending producer (R58, R73). -/
def RatEntry.empty : RatEntry := { tag := none, op := none, pc := none }

/-- The stations a configuration gives, none busy (R46, R340). -/
def Config.stations (c : Config) : List Station :=
  List.replicate c.rsCount.int (Station.free .int) ++ List.replicate c.rsCount.ldst (Station.free .ldst) ++
    List.replicate c.rsCount.fadd (Station.free .fadd) ++ List.replicate c.rsCount.muldiv (Station.free .muldiv)

/-- The units a configuration gives, none in use (R53, R340). -/
def Config.units (c : Config) : List FuncUnit :=
  List.replicate c.fuCount.integer (FuncUnit.free .integer c.fuLatency.integer) ++
    List.replicate c.fuCount.memory (FuncUnit.free .memory c.fuLatency.memory) ++
    List.replicate c.fuCount.adder (FuncUnit.free .adder c.fuLatency.adder) ++
    List.replicate c.fuCount.multdiv (FuncUnit.free .multdiv c.fuLatency.multdiv)

/-- A block of the given configuration with the given program and fetch address, everything else at the reset value of
R73. -/
def State.blank (c : Config) (prog : Option Program) (fetchPC : Word) : State :=
  { cfg := c
    prog := prog
    r := Vector.replicate 32 none
    f := Vector.replicate 32 none
    fetchPC := fetchPC
    rob := List.replicate c.robDepth RobEntry.free
    robTail := 0
    rs := Config.stations c
    fu := Config.units c
    rat := Vector.replicate 64 RatEntry.empty
    mem := []
    cycles := 0
    retired := 0
    retLog := []
    squashLog := []
    done := false
    fault := none
    serving := .issue }

/-- The machine right after construction, with its reset values (R73, R340): the configuration is the one of log entry 1,
no program is loaded, and `fetchPC`, which R342 leaves unspecified until `load`, is 0 (log entry 4). -/
def State.reset : State := State.blank Config.standard none 0

end Sys2Proof.Machine
end

