-- ==== Sys2Proof/Machine/Ops.lean ====
section
/-! DEFINITION. The named operations over the pieces of state: raising a runtime fault and composing steps around it,
the two register files, the alias table, data memory, the reorder buffer, the stations, the units and the program.
Every other definition of the machine reads and writes the state through these. -/

namespace Sys2Proof.Machine

/-- What a part of a cycle answers. -/
abbrev Result := Host.Outcome State Fault Refusal

/-! ### Runtime faults (R14, R142, R303) -/

/-- Taking the only exception the block has: `raise code(pc, info)` records the fault and nothing else, so every write
already made stands (R303). There is no trap entry and no return (R315, R316): only `reset` clears the record.
DEDUCED, safe: the faulted state is a next state (log entry 8). -/
def raise (code : FaultCode) (pc : Word) (info : Option Word) (s : State) : Result :=
  .next { s with fault := some { code := code, pc := pc, info := info } }

/-- Going on with the next part of a cycle: a raised fault ends the cycle at once (R142). -/
def andThen (o : Result) (k : State → Result) : Result :=
  match o with
  | .next s => if s.fault.isSome then .next s else k s
  | .fault e => .fault e
  | .refused e => .refused e

/-- No cycle runs any more: the program has completed, or a fault stands (R69, R70, R140). -/
def State.stopped (s : State) : Bool := s.done || s.fault.isSome

/-- The numeric code of a runtime fault (R311). -/
def FaultCode.number : FaultCode → Nat
  | .fetchFault => 16
  | .memoryBounds => 17
  | .misalignedAccess => 18
  | .undefinedOperand => 19
  | .undefinedMemory => 20
  | .divideByZero => 21
  | .divideOverflow => 22

/-! ### Registers (R11, R30 to R32, R174) -/

/-- `Reg[id]`: `R[id]` for an integer identifier, `F[id − 32]` for a floating one (R11). -/
def State.readReg (s : State) (id : OperandId) : Option Word :=
  if id.isFloating then s.f[id.number.toNat]'id.number.isLt else s.r[id.number.toNat]'id.number.isLt

/-- `Reg[id] <- v` (R11, R174). No register is hardwired (R32). -/
def State.writeReg (s : State) (id : OperandId) (v : Word) : State :=
  if id.isFloating then { s with f := s.f.set id.number.toNat (some v) id.number.isLt }
  else { s with r := s.r.set id.number.toNat (some v) id.number.isLt }

/-! ### The register alias table (R58, R59) -/

/-- `RAT[id]`. -/
def State.ratAt (s : State) (id : OperandId) : RatEntry := s.rat[id.toNat]'id.isLt

/-- `RAT[id] <- e`. -/
def State.setRat (s : State) (id : OperandId) (e : RatEntry) : State :=
  { s with rat := s.rat.set id.toNat e id.isLt }

/-! ### The reorder buffer (R38 to R43, R177) -/

/-- `busy(ROB[r])` (R39). -/
def RobEntry.busy (e : RobEntry) : Bool := e.pc.isSome

/-- `ClearROB` (R177): not busy; `op` is kept, any value will do (R74). -/
def RobEntry.clear (e : RobEntry) : RobEntry :=
  { e with pc := none, ready := false, stage := .issue, dest := .noDest, value := none }

/-- `ROB[r]`. An index past the end names no entry and reads as a free one (log entry 5). -/
def State.robAt (s : State) (r : Nat) : RobEntry := s.rob.getD r RobEntry.free

/-- `ROB[r] <- e`; past the end nothing is written (log entry 5). -/
def State.setRob (s : State) (r : Nat) (e : RobEntry) : State := { s with rob := s.rob.set r e }

/-! ### Reservation stations (R46 to R52, R169) -/

/-- `busy(st)` (R49). -/
def Station.busy (st : Station) : Bool := st.pc.isSome

/-- The slot's tag is cleared: it is not `wait` (R17, R180). -/
def Slot.cleared : Slot → Bool
  | .wait _ => false
  | .absent => true
  | .val _ => true

/-- Both operand tags are cleared (R50, R180). -/
def Station.resolved (st : Station) : Bool := st.j.cleared && st.k.cleared

/-- `FreeRS` (R169); `op`, `dest` and `imm` are kept, any value will do (R74). -/
def Station.release (st : Station) : Station :=
  { st with pc := none, j := .absent, k := .absent, ea := none, ready := false, executing := false }

/-- `RS[p] <- st`, `p` a position in the pool. -/
def State.setStation (s : State) (p : Nat) (st : Station) : State := { s with rs := s.rs.set p st }

/-- The lowest-indexed free station of a class (R145). -/
def State.freeStation (s : State) (c : RsClass) : Option Nat :=
  s.rs.findIdx? (fun st => st.cls == c && !st.busy)

/-! ### Functional units (R53 to R57, R160, R169) -/

/-- `FreeFU` (R169). -/
def FuncUnit.release (u : FuncUnit) : FuncUnit := { u with inUse := false, pc := none, count := 0 }

/-- `FU[x] <- u`, `x` a position in the pool. -/
def State.setUnit (s : State) (x : Nat) (u : FuncUnit) : State := { s with fu := s.fu.set x u }

/-- The lowest-indexed unit of a class that is not in use (R157). -/
def State.freeUnit (s : State) (k : FuClass) : Option Nat :=
  s.fu.findIdx? (fun u => u.cls == k && !u.inUse)

/-- One unit's share of Unit-tick (R160). -/
def FuncUnit.tick (u : FuncUnit) : FuncUnit :=
  if u.inUse && decide (0 < u.count) then { u with count := u.count - 1 } else u

/-! ### Ascending program-counter order (R15, R43, R156, R162, R171) -/

/-- Insert a position after every one with a smaller program counter. -/
def insertByPc (x : Word × Nat) : List (Word × Nat) → List (Word × Nat)
  | [] => [x]
  | y :: l => if x.1.toNat ≤ y.1.toNat then x :: y :: l else y :: insertByPc x l

/-- The positions in increasing unsigned program-counter order. -/
def sortByPc (l : List (Word × Nat)) : List (Word × Nat) := l.foldr insertByPc []

/-- The busy reorder-buffer entries, oldest first (R43). -/
def State.inFlight (s : State) : List (Word × Nat) :=
  sortByPc (s.rob.zipIdx.filterMap fun x => x.1.pc.map fun pc => (pc, x.2))

/-! ### The common data bus (R62, R63, R165, R166) -/

/-- A slot's share of a broadcast `(t, v)` (R63). -/
def Slot.capture (t : Nat) (v : Word) : Slot → Slot
  | .wait t' => if t' = t then .val (some v) else .wait t'
  | .absent => .absent
  | .val x => .val x

/-- The slot waits for tag `t`. -/
def Slot.waitsFor (t : Nat) : Slot → Bool
  | .wait t' => t' == t
  | .absent => false
  | .val _ => false

/-- A station's share of a broadcast `(t, v)`: a busy station captures the value in each slot that waits for `t`, and is
ready if it captured and no slot waits any more (R166). -/
def Station.capture (t : Nat) (v : Word) (st : Station) : Station :=
  if st.busy && (st.j.waitsFor t || st.k.waitsFor t) then
    { st with
      j := st.j.capture t v
      k := st.k.capture t v
      ready := st.ready || ((st.j.capture t v).cleared && (st.k.capture t v).cleared) }
  else st

/-- `Broadcast(t, v)` to every station (R165). -/
def State.broadcast (s : State) (t : Nat) (v : Word) : State :=
  { s with rs := s.rs.map (Station.capture t v) }

/-! ### Data memory (R80 to R89) -/

/-- `M[a]`, `none` for the undefined byte `⊥` (R83; DEDUCED, safe, log entry 9). -/
def Memory.byte? (m : Memory) (a : Nat) : Option Byte := m.lookup a

/-- `M[a] <- v`, keeping the addresses strictly rising. -/
def Memory.setByte : Memory → Nat → Byte → Memory
  | [], a, v => [(a, v)]
  | (b, w) :: m, a, v =>
    if a < b then (a, v) :: (b, w) :: m
    else if a = b then (a, v) :: m
    else (b, w) :: Memory.setByte m a v

/-- The canonical form: addresses strictly rise. No entry can equal what an unlisted address reads as, since that is
no value. -/
abbrev Memory.wf (m : Memory) : Prop := m.Pairwise fun x y => x.1 < y.1

/-- The little-endian word at `a`, if its four bytes hold values (R86, R88). -/
def Memory.word? (m : Memory) (a : Nat) : Option Word :=
  match m.byte? a, m.byte? (a + 1), m.byte? (a + 2), m.byte? (a + 3) with
  | some b0, some b1, some b2, some b3 => some (b3 ++ (b2 ++ (b1 ++ b0)))
  | _, _, _, _ => none

/-- The four bytes of a word written at `a`, lowest address first, least significant byte first (R87, R88). -/
def Memory.setWord (m : Memory) (a : Nat) (v : Word) : Memory :=
  (((m.setByte a (v.extractLsb' 0 8)).setByte (a + 1) (v.extractLsb' 8 8)).setByte (a + 2)
    (v.extractLsb' 16 8)).setByte (a + 3) (v.extractLsb' 24 8)

/-- The alignment check of R84. -/
def aligned (a : Word) : Bool := a.toNat % dataWidth == 0

/-- The bounds check of R85. -/
def inBounds (memSize : Nat) (a : Word) : Bool := decide (a.toNat + dataWidth ≤ memSize)

/-! ### The program (R8, R35, R37, R281) -/

/-- The instruction width as a word, for addition modulo 2^32 (R15, R150). -/
def widthWord : Word := BitVec.ofNat 32 instrWidth

/-- The fall-through address `pc +32 W` (R17). -/
def fallThrough (pc : Word) : Word := pc + widthWord

/-- The record an address names, if it names one (R35, R37, R146). -/
def Program.record? (p : Program) (a : Word) : Option Instr :=
  if p.base.toNat ≤ a.toNat ∧ (a.toNat - p.base.toNat) % instrWidth = 0 then
    p.records[(a.toNat - p.base.toNat) / instrWidth]?
  else none

/-- `EOP_PC`: the address of the `EOP` record (R281). -/
def Program.eopPC (p : Program) : Word :=
  p.base + BitVec.ofNat 32 (instrWidth * p.records.findIdx (fun i => i == Instr.eop))

/-- `Fetch(fetchPC)` (R144, R146). -/
def State.fetch (s : State) : Option Instr :=
  match s.prog with
  | none => none
  | some p => p.record? s.fetchPC

end Sys2Proof.Machine
end

