-- ==== Sys2Proof/Machine/Operands.lean ====
section
/-! DEFINITION. Operands: how an issuing instruction's sources are resolved and its destination renamed (R151 to R154),
how a captured operand is read (R164), and the forms a `Compute` function takes (R118, R164). -/

namespace Sys2Proof.Machine

/-! ### The roles of a record's fields (R117 to R119) -/

/-- The source field `src1`, if the form uses it; it fills slot `j` (R119). -/
def firstSource : Instr → Option OperandId
  | .add _ a _ | .sub _ a _ | .xor _ a _ | .and _ a _ | .mult _ a _ | .div _ a _ => some a
  | .addi _ a _ | .subi _ a _ | .xori _ a _ | .andi _ a _ => some a
  | .adds _ a _ | .subs _ a _ | .mults _ a _ | .divs _ a _ => some a
  | .lw _ a _ | .lws _ a _ | .sw a _ _ | .sws a _ _ => some a
  | .beqz a _ | .bnez a _ | .bltz a _ | .bgtz a _ | .blez a _ | .bgez a _ => some a
  | .jump _ => none
  | .eop => none

/-- The source field `src2`, if the form uses it; it fills slot `k` (R119). -/
def secondSource : Instr → Option OperandId
  | .add _ _ b | .sub _ _ b | .xor _ _ b | .and _ _ b | .mult _ _ b | .div _ _ b => some b
  | .adds _ _ b | .subs _ _ b | .mults _ _ b | .divs _ _ b => some b
  | .sw _ b _ | .sws _ b _ => some b
  | .addi _ _ _ | .subi _ _ _ | .xori _ _ _ | .andi _ _ _ | .lw _ _ _ | .lws _ _ _ => none
  | .beqz _ _ | .bnez _ _ | .bltz _ _ | .bgtz _ _ | .blez _ _ | .bgez _ _ => none
  | .jump _ => none
  | .eop => none

/-- `DestOf` (R119, R148). -/
def destOf : Instr → Dest
  | .add d _ _ | .sub d _ _ | .xor d _ _ | .and d _ _ | .mult d _ _ | .div d _ _ => .reg d
  | .addi d _ _ | .subi d _ _ | .xori d _ _ | .andi d _ _ => .reg d
  | .adds d _ _ | .subs d _ _ | .mults d _ _ | .divs d _ _ => .reg d
  | .lw d _ _ | .lws d _ _ => .reg d
  | .sw _ _ _ | .sws _ _ _ => .store
  | .beqz _ _ | .bnez _ _ | .bltz _ _ | .bgtz _ _ | .blez _ _ | .bgez _ _ => .noDest
  | .jump _ => .noDest
  | .eop => .noDest

/-- The immediate field, 0 where the form does not use it (R114, R115). -/
def immediateOf : Instr → Word
  | .add _ _ _ | .sub _ _ _ | .xor _ _ _ | .and _ _ _ | .mult _ _ _ | .div _ _ _ => 0
  | .adds _ _ _ | .subs _ _ _ | .mults _ _ _ | .divs _ _ _ => 0
  | .addi _ _ i | .subi _ _ i | .xori _ _ i | .andi _ _ i => i
  | .lw _ _ i | .lws _ _ i | .sw _ _ i | .sws _ _ i => i
  | .beqz _ i | .bnez _ i | .bltz _ i | .bgtz _ i | .blez _ i | .bgez _ i => i
  | .jump i => i
  | .eop => 0

/-- LW, LWS, SW and SWS: the instructions that reach data memory (R82, R158). -/
def isMemory : Opcode → Bool
  | .lw | .lws | .sw | .sws => true
  | .add | .sub | .xor | .and | .mult | .div | .addi | .subi | .xori | .andi => false
  | .adds | .subs | .mults | .divs => false
  | .beqz | .bnez | .bltz | .bgtz | .blez | .bgez | .jump | .eop => false

/-- SW and SWS. -/
def isStore : Opcode → Bool
  | .sw | .sws => true
  | .lw | .lws => false
  | .add | .sub | .xor | .and | .mult | .div | .addi | .subi | .xori | .andi => false
  | .adds | .subs | .mults | .divs => false
  | .beqz | .bnez | .bltz | .bgtz | .blez | .bgez | .jump | .eop => false

/-- `IsControl(op)` (R173). -/
def isControl : Opcode → Bool
  | .beqz | .bnez | .bltz | .bgtz | .blez | .bgez | .jump => true
  | .add | .sub | .xor | .and | .mult | .div | .addi | .subi | .xori | .andi => false
  | .adds | .subs | .mults | .divs | .lw | .lws | .sw | .sws | .eop => false

/-! ### Resolution and renaming at Issue -/

/-- `Resolve(id, r)` for a used identifier (R152): no pending producer, or the issuing instruction itself (R153), gives
the architectural register; a producer whose entry is ready gives the entry's value; another gives its tag. -/
def resolveRegister (s : State) (id : OperandId) (r : Nat) : Slot :=
  match (s.ratAt id).tag with
  | none => .val (s.readReg id)
  | some p =>
    if p = r then .val (s.readReg id)
    else if (s.robAt p).ready then .val (s.robAt p).value
    else .wait p

/-- `Resolve` of a source field, used or not (R119, R152). -/
def resolve (s : State) (src : Option OperandId) (r : Nat) : Slot :=
  match src with
  | none => .absent
  | some id => resolveRegister s id r

/-- `RenameDest` (R151): a register destination's RAT entry names the issuing instruction, at `fetchPC`. -/
def renameDest (op : Opcode) (dest : Dest) (r : Nat) (s : State) : State :=
  match dest with
  | .reg d => s.setRat d { tag := some r, op := some op, pc := some s.fetchPC }
  | .store => s
  | .noDest => s

/-! ### Reading captured operands -/

/-- What a `Compute` function answers: a value, and the memory it leaves; or a fault it raises; or that it met an operand
which is not resolved, which the spec calls unreachable (R164, R183). -/
inductive Computed where
  | value (v : Word) (m : Memory)
  | raised (code : FaultCode) (info : Option Word)
  | unresolved
  deriving DecidableEq, Repr

/-- The type of a `Compute` function: from the state, the instruction's program counter and its station (R164). -/
abbrev Compute := State → Word → Station → Computed

/-- `opnd(slot, pc)` (R164), with what is done with the word. -/
def withOperand (slot : Slot) (k : Word → Computed) : Computed :=
  match slot with
  | .val (some x) => k x
  | .val none => .raised .undefinedOperand none
  | .absent => .unresolved
  | .wait _ => .unresolved

/-- Forms RRR and FFF: a function of both sources; memory is not touched (R118). -/
def binary (f : Word → Word → Word) : Compute := fun s _ st =>
  withOperand st.j fun a => withOperand st.k fun b => .value (f a b) s.mem

/-- Form RRI: a function of the first source and the station's immediate (R118). -/
def immediate (f : Word → Word → Word) : Compute := fun s _ st =>
  withOperand st.j fun a => .value (f a st.imm) s.mem

/-- Form BR: the tested register decides between target and fall-through (R120, R270). -/
def branchOn (cond : Word → Bool) : Compute := fun s pc st =>
  withOperand st.j fun a => .value (if cond a then pc + st.imm else fallThrough pc) s.mem

/-- Form J: the target (R120, R277). -/
def jumpTo : Compute := fun s pc st => .value (pc + st.imm) s.mem

/-- `MemRead(a, 4)` with its checks in order (R84, R85, R86). -/
def memRead (s : State) (a : Word) : Computed :=
  if aligned a = false then .raised .misalignedAccess (some a)
  else if inBounds s.cfg.memSize a = false then .raised .memoryBounds (some a)
  else
    match s.mem.word? a.toNat with
    | some v => .value v s.mem
    | none => .raised .undefinedMemory (some a)

/-- `MemWrite(a, 4, v)` with its checks in order (R84, R85, R87); the value it leaves is the word stored. -/
def memWrite (s : State) (a v : Word) : Computed :=
  if aligned a = false then .raised .misalignedAccess (some a)
  else if inBounds s.cfg.memSize a = false then .raised .memoryBounds (some a)
  else .value v (s.mem.setWord a.toNat v)

/-- Forms LDR and LDF at Write-result: read memory at the effective address fixed at dispatch (R92, R250). -/
def load : Compute := fun s _ st =>
  match st.ea with
  | none => .unresolved
  | some a => memRead s a

/-- Forms STR and STF at Write-result: the data operand is read first, then written to memory at the effective address
(R93, R252, R312). -/
def store : Compute := fun s _ st =>
  withOperand st.k fun d =>
    match st.ea with
    | none => .unresolved
    | some a => memWrite s a d

end Sys2Proof.Machine
end

