-- ==== Sys2Proof/Machine/Stages.lean ====
section
/-! DEFINITION. The four stages of an instruction's life (R181): what Issue, Execute-dispatch, Write-result and Commit do
to the instruction they handle. An instruction's meaning is these four, filled in with its own fields and its own
`Compute`. -/

namespace Sys2Proof.Machine

/-! ### Issue (R145, R147 to R153) -/

/-- `IssueOne` into the station at position `p` (R147), with `r = robTail`. -/
def issueAt (op : Opcode) (dest : Dest) (src1 src2 : Option OperandId) (imm : Word) (p : Nat) (s : State) : State :=
  let r := s.robTail
  let allocated :=
    { s.setRob r { pc := some s.fetchPC, ready := false, stage := .issue, dest := dest, op := op, value := none } with
      robTail := (r + 1) % s.cfg.robDepth }
  let renamed := renameDest op dest r allocated
  let resolving :=
    match s.cfg.selfAlias with
    | .destFirst => renamed
    | .sourcesFirst => allocated
  { renamed with
    rs := renamed.rs.modify p fun st =>
      { cls := st.cls, pc := some s.fetchPC, op := op, j := resolve resolving src1 r, k := resolve resolving src2 r,
        dest := r, imm := imm, ea := none, ready := false, executing := false }
    fetchPC := fallThrough s.fetchPC }

/-- The place an opcode can issue to this cycle: the lowest-indexed free station of its class, if the entry at `robTail`
is free as well (R143, R145). -/
def issueSlot (op : Opcode) (s : State) : Option Nat :=
  if (s.robAt s.robTail).busy then none
  else
    match s.cfg.rsClass op with
    | none => none
    | some c => s.freeStation c

/-- Issue of the record at `fetchPC`: it issues, or it stalls and changes nothing (R145, R155). -/
def issueRecord (op : Opcode) (dest : Dest) (src1 src2 : Option OperandId) (imm : Word) (s : State) : Result :=
  match s.cfg.rsClass op with
  | none => .fault .classUndefined
  | some _ =>
    match issueSlot op s with
    | none => .next s
    | some p => .next (issueAt op dest src1 src2 imm p s)

/-! ### Execute-dispatch (R158, R159) -/

/-- `DispatchOne` once the effective address is settled: the station and its unit are linked (R159). -/
def takeUnitWith (p x : Nat) (st : Station) (u : FuncUnit) (ea : Option Word) (s : State) : State :=
  let linked := (s.setStation p { st with ea := ea, executing := true }).setUnit x
    { u with inUse := true, pc := st.pc, count := u.latency + 1 }
  linked.setRob st.dest { linked.robAt st.dest with stage := .execute }

/-- Dispatch of an instruction that is not a memory access (R159). -/
def takeUnit (p x : Nat) (s : State) : Result :=
  match s.rs[p]?, s.fu[x]? with
  | some st, some u => if st.busy then .next (takeUnitWith p x st u st.ea s) else .fault .nothingServed
  | _, _ => .fault .nothingServed

/-- Dispatch of a load or store: the effective address is computed before anything else, and an undefined base raises
with station and unit unchanged (R158, R254). -/
def takeUnitAddressed (p x : Nat) (s : State) : Result :=
  match s.rs[p]?, s.fu[x]? with
  | some st, some u =>
    match st.pc, st.j with
    | some _, .val (some base) => .next (takeUnitWith p x st u (some (base + st.imm)) s)
    | some pc, .val none => raise .undefinedOperand pc none s
    | some _, .absent => .fault .unresolvedOperand
    | some _, .wait _ => .fault .unresolvedOperand
    | none, _ => .fault .nothingServed
  | _, _ => .fault .nothingServed

/-! ### Write-result (R162 to R170) -/

/-- What Write-result does with a result `v` (R162): broadcast it, store it in the producing entry, and free the station
and the unit. -/
def finishAt (p x : Nat) (st : Station) (u : FuncUnit) (v : Word) (s : State) : State :=
  let told := s.broadcast st.dest v
  let stored := told.setRob st.dest { told.robAt st.dest with value := some v, stage := .writeResult }
  (stored.setStation p st.release).setUnit x u.release

/-- Write-result of a completing unit: `Compute`, then the result is published, or the fault it raised is recorded
(R162, R164). -/
def writeResult (compute : Compute) (p x : Nat) (s : State) : Result :=
  match s.rs[p]?, s.fu[x]? with
  | some st, some u =>
    match st.pc with
    | none => .fault .nothingServed
    | some pc =>
      match compute s pc st with
      | .value v m => .next (finishAt p x st u v { s with mem := m })
      | .raised code info => raise code pc info s
      | .unresolved => .fault .unresolvedOperand
  | _, _ => .fault .nothingServed

/-! ### Commit (R173 to R179, R282) -/

/-- The architectural write-back of a register destination, and the release of its RAT entry if it still names the
committing one (R174, R175). -/
def writeBack (dest : Dest) (r : Nat) (v : Word) (s : State) : State :=
  match dest with
  | .reg d =>
    let written := s.writeReg d v
    if (written.ratAt d).tag = some r then written.setRat d RatEntry.empty else written
  | .store => s
  | .noDest => s

/-- `Recover` (R178): the flush of everything in flight, and the redirect of fetch. -/
def recover (branchPc target : Word) (s : State) : State :=
  { s with
    squashLog := s.squashLog ++ [{ branchPc := branchPc, target := target, squashed := s.inFlight.map Prod.fst }]
    rob := s.rob.map RobEntry.clear
    robTail := 0
    rs := s.rs.map Station.release
    fu := s.fu.map FuncUnit.release
    rat := Vector.replicate 64 RatEntry.empty
    fetchPC := target }

/-- `CompletionCheck` (R282): the instruction just before the end-of-program marker has committed. -/
def completionCheck (pc : Word) (s : State) : State :=
  match s.prog with
  | none => s
  | some p => if fallThrough pc = p.eopPC then { s with done := true } else s

/-- The part of Commit that every entry goes through (R173): write-back, logs and counter, and the clear. -/
def retireEntry (r : Nat) (e : RobEntry) (pc v : Word) (s : State) : State :=
  let staged := s.setRob r { e with stage := .commit }
  let written := writeBack e.dest r v staged
  let logged := { written with retLog := written.retLog ++ [(pc, e.op)], retired := written.retired + 1 }
  logged.setRob r (logged.robAt r).clear

/-- Commit of the entry `r` (R173): a control instruction whose value is not its fall-through is mispredicted. -/
def commitEntry (control : Bool) (r : Nat) (s : State) : Result :=
  match s.rob[r]? with
  | none => .fault .nothingServed
  | some e =>
    match e.pc, e.value with
    | none, _ => .fault .nothingServed
    | some _, none => .fault .readyWithoutValue
    | some pc, some v =>
      let retired := retireEntry r e pc v s
      .next (if control && v != fallThrough pc then recover pc v retired else completionCheck pc retired)

/-! ### A life -/

/-- An instruction at the stage it is served at. -/
def life (onIssue : State → Result) (onDispatch onWriteResult : Nat → Nat → State → Result)
    (onCommit : Nat → State → Result) (s : State) : Result :=
  match s.serving with
  | .issue => onIssue s
  | .dispatch p x => onDispatch p x s
  | .writeResult p x => onWriteResult p x s
  | .commit r => onCommit r s

/-- The life of an instruction that writes its result to register `dst` and computes from its operands alone. -/
def computing (op : Opcode) (dst : OperandId) (src1 src2 : Option OperandId) (imm : Word) (compute : Compute) :
    State → Result :=
  life (issueRecord op (.reg dst) src1 src2 imm) takeUnit (writeResult compute) (commitEntry false)

/-- The life of a load (R250). -/
def loading (op : Opcode) (dst base : OperandId) (imm : Word) : State → Result :=
  life (issueRecord op (.reg dst) (some base) none imm) takeUnitAddressed (writeResult load) (commitEntry false)

/-- The life of a store (R252). -/
def storing (op : Opcode) (base data : OperandId) (imm : Word) : State → Result :=
  life (issueRecord op .store (some base) (some data) imm) takeUnitAddressed (writeResult store) (commitEntry false)

/-- The life of a control instruction (R270, R277). -/
def controlling (op : Opcode) (src : Option OperandId) (imm : Word) (compute : Compute) : State → Result :=
  life (issueRecord op .noDest src none imm) takeUnit (writeResult compute) (commitEntry true)

end Sys2Proof.Machine
end

