-- ==== Sys2Proof/Machine/Control.lean ====
section
/-! DEFINITION. The control family: BEQZ BNEZ BLTZ BGTZ BLEZ BGEZ JUMP EOP (44_control.md). -/

namespace Sys2Proof.Machine

/-- `BEQZ Rs, target` (R271). -/
def execBeqz (src1 : OperandId) (imm : Word) (s : State) : Result :=
  controlling .beqz (some src1) imm (branchOn isZero) s

/-- `BNEZ Rs, target` (R272). -/
def execBnez (src1 : OperandId) (imm : Word) (s : State) : Result :=
  controlling .bnez (some src1) imm (branchOn isNonzero) s

/-- `BLTZ Rs, target` (R273). -/
def execBltz (src1 : OperandId) (imm : Word) (s : State) : Result :=
  controlling .bltz (some src1) imm (branchOn isNegative) s

/-- `BGTZ Rs, target` (R274). -/
def execBgtz (src1 : OperandId) (imm : Word) (s : State) : Result :=
  controlling .bgtz (some src1) imm (branchOn isPositive) s

/-- `BLEZ Rs, target` (R275). -/
def execBlez (src1 : OperandId) (imm : Word) (s : State) : Result :=
  controlling .blez (some src1) imm (branchOn isNonpositive) s

/-- `BGEZ Rs, target` (R276). -/
def execBgez (src1 : OperandId) (imm : Word) (s : State) : Result :=
  controlling .bgez (some src1) imm (branchOn isNonnegative) s

/-- `JUMP target` (R277). -/
def execJump (imm : Word) (s : State) : Result := controlling .jump none imm jumpTo s

/-- `EOP` (R144, R280): Issue stops at it and does not issue it; it takes no entry, station or unit and never commits, so
it changes nothing. -/
def execEop (s : State) : Result := .next s

end Sys2Proof.Machine
end

