-- ==== Sys2Proof/Machine/Binary32.lean ====
section
/-! DEFINITION. IEEE 754 binary32 arithmetic for the floating family (R234, R235): decoding, exact results, rounding to
nearest with ties to even, subnormals kept, no flags (the details of the standard are PRESUMED, unsafe, log entry 15). Every finite binary32 value is a whole multiple of 2^-149, so a
finite value is held as a sign and a number of these units, and an exact result as a fraction of them. -/

namespace Sys2Proof.Machine

/-- The sign bit. -/
def signBit (a : Word) : Bool := a.getLsbD 31
/-- The biased exponent field, bits [30:23]. -/
def exponentField (a : Word) : Nat := (a.extractLsb' 23 8).toNat
/-- The fraction field, bits [22:0]. -/
def fractionField (a : Word) : Nat := (a.extractLsb' 0 23).toNat

/-- A NaN encoding: exponent all ones, fraction nonzero (R235). -/
def isNan (a : Word) : Bool := exponentField a == 255 && fractionField a != 0
/-- An infinity: exponent all ones, fraction zero. -/
def isInfinite (a : Word) : Bool := exponentField a == 255 && fractionField a == 0
/-- Neither a NaN nor an infinity. -/
def isFinite (a : Word) : Bool := exponentField a != 255

/-- The magnitude of a finite value in units of 2^-149: a subnormal is its fraction, a normal number its fraction
with the leading one, scaled by its exponent. -/
def magnitude (a : Word) : Nat :=
  if exponentField a = 0 then fractionField a else (2 ^ 23 + fractionField a) * 2 ^ (exponentField a - 1)

/-- The signed value of a finite word in units of 2^-149. -/
def unitValue (a : Word) : Int := if signBit a then -(magnitude a : Int) else (magnitude a : Int)

/-- The encoding with a given sign of a magnitude below 2^31: exponent and fraction fields together. -/
def withSign (neg : Bool) (low : Nat) : Word := BitVec.ofNat 32 ((if neg then 2 ^ 31 else 0) + low)

/-- The exponent and fraction fields of infinity. -/
def infinityField : Nat := 255 * 2 ^ 23

/-- A zero of the given sign. -/
def zeroWord (neg : Bool) : Word := withSign neg 0
/-- An infinity of the given sign. -/
def infinityWord (neg : Bool) : Word := withSign neg infinityField

/-- The quotient rounded to nearest, ties to even. -/
def divRoundEven (n d : Nat) : Nat :=
  if 2 * (n % d) < d then n / d
  else if d < 2 * (n % d) then n / d + 1
  else if n / d % 2 = 0 then n / d else n / d + 1

/-- How many low binary places of the fraction `num / den` lie below the 24 significant ones. -/
def droppedPlaces (num den : Nat) : Nat := Nat.log2 (num / den) - 23

/-- The exponent and fraction fields of `num / den` units rounded to nearest, ties to even; past the largest finite
value the result is infinity. With `t` places dropped, a significand `q` below 2^24 stands at exponent field `t + 1` when
it has its leading one and at 0 otherwise, which is what `t * 2^23 + q` spells in both cases, and a significand rounded up
to 2^24 carries into the exponent field. -/
def roundedField (num den : Nat) : Nat :=
  let t := droppedPlaces num den
  min (t * 2 ^ 23 + divRoundEven num (den * 2 ^ t)) infinityField

/-- `bits32` of the exact value `± num / den` units, rounded (R234). -/
def roundUnits (neg : Bool) (num den : Nat) : Word := withSign neg (roundedField num den)

/-- A NaN result: `FP_NAN(op, a, b)`, some NaN encoding of which nothing else is known (R235, log entry 2). -/
def nanResult (op : Opcode) (a b : Word) : Word :=
  withSign (Config.freeNan op a b).1 (infinityField + ((Config.freeNan op a b).2.val + 1))

/-- The rounded sum of two signed numbers of units. An exact zero sum is `+0`, but for two negative zeros (R230, R231). -/
def roundSum (negA : Bool) (x : Int) (negB : Bool) (y : Int) : Word :=
  if x + y = 0 then zeroWord (negA && negB) else roundUnits (decide (x + y < 0)) (x + y).natAbs 1

/-- The sum of two words, for `ADDS` and, with the second word's sign turned, for `SUBS`; `op` and `b'` name the
operation and its second operand for a NaN result. -/
def addWith (op : Opcode) (a b b' : Word) : Word :=
  if isNan a || isNan b then nanResult op a b'
  else if isInfinite a then
    if isInfinite b && signBit a != signBit b then nanResult op a b' else infinityWord (signBit a)
  else if isInfinite b then infinityWord (signBit b)
  else roundSum (signBit a) (unitValue a) (signBit b) (unitValue b)

/-- The word with its sign turned. -/
def negateWord (a : Word) : Word := a ^^^ 0x80000000#32

/-- `ADDS` (R230). -/
def addFloat (a b : Word) : Word := addWith .adds a b b

/-- `SUBS`: the exact difference is the sum with the second operand's sign turned (R231). -/
def subFloat (a b : Word) : Word := addWith .subs a (negateWord b) b

/-- `MULTS` (R232): the sign of every result but a NaN is the exclusive or of the operand signs. -/
def mulFloat (a b : Word) : Word :=
  let neg := signBit a != signBit b
  if isNan a || isNan b then nanResult .mults a b
  else if isInfinite a || isInfinite b then
    if (isFinite a && magnitude a == 0) || (isFinite b && magnitude b == 0) then nanResult .mults a b
    else infinityWord neg
  else roundUnits neg (magnitude a * magnitude b) (2 ^ 149)

/-- `DIVS` (R233): `0/0` and `∞/∞` are NaN, a finite nonzero number over zero is an infinity, and no case faults. -/
def divFloat (a b : Word) : Word :=
  let neg := signBit a != signBit b
  if isNan a || isNan b then nanResult .divs a b
  else if isInfinite a then
    if isInfinite b then nanResult .divs a b else infinityWord neg
  else if isInfinite b then zeroWord neg
  else if magnitude b = 0 then
    if magnitude a = 0 then nanResult .divs a b else infinityWord neg
  else roundUnits neg (magnitude a * 2 ^ 149) (magnitude b)

end Sys2Proof.Machine
end

