-- ==== Sys2Proof/Machine/Floating.lean ====
section
/-! DEFINITION. The floating-point family: ADDS SUBS MULTS DIVS (42_float.md). -/

namespace Sys2Proof.Machine

/-- `ADDS Fd, Fs, Ft` (R230). -/
def execAdds (dst src1 src2 : OperandId) (s : State) : Result :=
  computing .adds dst (some src1) (some src2) 0 (binary addFloat) s

/-- `SUBS Fd, Fs, Ft` (R231). -/
def execSubs (dst src1 src2 : OperandId) (s : State) : Result :=
  computing .subs dst (some src1) (some src2) 0 (binary subFloat) s

/-- `MULTS Fd, Fs, Ft` (R232). -/
def execMults (dst src1 src2 : OperandId) (s : State) : Result :=
  computing .mults dst (some src1) (some src2) 0 (binary mulFloat) s

/-- `DIVS Fd, Fs, Ft` (R233). -/
def execDivs (dst src1 src2 : OperandId) (s : State) : Result :=
  computing .divs dst (some src1) (some src2) 0 (binary divFloat) s

end Sys2Proof.Machine
end

