-- ==== Sys2Proof/Machine/Integer.lean ====
section
/-! DEFINITION. The integer family: ADD SUB XOR AND MULT DIV ADDI SUBI XORI ANDI (41_integer.md). -/

namespace Sys2Proof.Machine

/-- The low 32 bits of the product (R204, R211). -/
def lowProduct (a b : Word) : Word := BitVec.ofInt 32 (a.toInt * b.toInt)

/-- The signed quotient truncated toward zero, as a 32-bit word (R205, R212). -/
def signedQuotient (a b : Word) : Word := BitVec.ofInt 32 (a.toInt.tdiv b.toInt)

/-- `DIV`'s `Compute`: both operands are read, then a zero divisor and the unrepresentable quotient raise, in this order
(R205, R312). -/
def divide : Compute := fun s _ st =>
  withOperand st.j fun a => withOperand st.k fun b =>
    if b.toInt = 0 then .raised .divideByZero none
    else if a.toInt = -2 ^ 31 ∧ b.toInt = -1 then .raised .divideOverflow none
    else .value (signedQuotient a b) s.mem

/-- `ADD Rd, Rs, Rt` (R200). -/
def execAdd (dst src1 src2 : OperandId) (s : State) : Result :=
  computing .add dst (some src1) (some src2) 0 (binary fun a b => a + b) s

/-- `SUB Rd, Rs, Rt` (R201). -/
def execSub (dst src1 src2 : OperandId) (s : State) : Result :=
  computing .sub dst (some src1) (some src2) 0 (binary fun a b => a - b) s

/-- `XOR Rd, Rs, Rt` (R202). -/
def execXor (dst src1 src2 : OperandId) (s : State) : Result :=
  computing .xor dst (some src1) (some src2) 0 (binary fun a b => a ^^^ b) s

/-- `AND Rd, Rs, Rt` (R203). -/
def execAnd (dst src1 src2 : OperandId) (s : State) : Result :=
  computing .and dst (some src1) (some src2) 0 (binary fun a b => a &&& b) s

/-- `MULT Rd, Rs, Rt` (R204). -/
def execMult (dst src1 src2 : OperandId) (s : State) : Result :=
  computing .mult dst (some src1) (some src2) 0 (binary lowProduct) s

/-- `DIV Rd, Rs, Rt` (R205). -/
def execDiv (dst src1 src2 : OperandId) (s : State) : Result :=
  computing .div dst (some src1) (some src2) 0 divide s

/-- `ADDI Rd, Rs, imm` (R206). -/
def execAddi (dst src1 : OperandId) (imm : Word) (s : State) : Result :=
  computing .addi dst (some src1) none imm (immediate fun a i => a + i) s

/-- `SUBI Rd, Rs, imm` (R207). -/
def execSubi (dst src1 : OperandId) (imm : Word) (s : State) : Result :=
  computing .subi dst (some src1) none imm (immediate fun a i => a - i) s

/-- `XORI Rd, Rs, imm` (R208). -/
def execXori (dst src1 : OperandId) (imm : Word) (s : State) : Result :=
  computing .xori dst (some src1) none imm (immediate fun a i => a ^^^ i) s

/-- `ANDI Rd, Rs, imm` (R209). -/
def execAndi (dst src1 : OperandId) (imm : Word) (s : State) : Result :=
  computing .andi dst (some src1) none imm (immediate fun a i => a &&& i) s

end Sys2Proof.Machine
end

