-- ==== Sys2Proof/Machine/LoadStore.lean ====
section
/-! DEFINITION. The load and store family: LW LWS SW SWS (43_memory_ops.md). -/

namespace Sys2Proof.Machine

/-- `LW Rd, imm(Rs)` (R250). -/
def execLw (dst src1 : OperandId) (imm : Word) (s : State) : Result := loading .lw dst src1 imm s

/-- `LWS Fd, imm(Rs)`: the raw 32-bit pattern, with no conversion (R251). -/
def execLws (dst src1 : OperandId) (imm : Word) (s : State) : Result := loading .lws dst src1 imm s

/-- `SW Rt, imm(Rs)` (R252). -/
def execSw (src1 src2 : OperandId) (imm : Word) (s : State) : Result := storing .sw src1 src2 imm s

/-- `SWS Ft, imm(Rs)` (R253). -/
def execSws (src1 src2 : OperandId) (imm : Word) (s : State) : Result := storing .sws src1 src2 imm s

end Sys2Proof.Machine
end

