-- ==== Sys2Proof/Machine/Dispatch.lean ====
section
/-! DEFINITION. The meaning of every instruction, one arm each: what it does at the stage it is served at. -/

namespace Sys2Proof.Machine

def exec (i : Instr) (s : State) : Host.Outcome State Fault Refusal :=
  match i with
  | .add dst src1 src2 => Sys2Proof.Machine.execAdd dst src1 src2 s
  | .sub dst src1 src2 => Sys2Proof.Machine.execSub dst src1 src2 s
  | .xor dst src1 src2 => Sys2Proof.Machine.execXor dst src1 src2 s
  | .and dst src1 src2 => Sys2Proof.Machine.execAnd dst src1 src2 s
  | .mult dst src1 src2 => Sys2Proof.Machine.execMult dst src1 src2 s
  | .div dst src1 src2 => Sys2Proof.Machine.execDiv dst src1 src2 s
  | .addi dst src1 imm => Sys2Proof.Machine.execAddi dst src1 imm s
  | .subi dst src1 imm => Sys2Proof.Machine.execSubi dst src1 imm s
  | .xori dst src1 imm => Sys2Proof.Machine.execXori dst src1 imm s
  | .andi dst src1 imm => Sys2Proof.Machine.execAndi dst src1 imm s
  | .adds dst src1 src2 => Sys2Proof.Machine.execAdds dst src1 src2 s
  | .subs dst src1 src2 => Sys2Proof.Machine.execSubs dst src1 src2 s
  | .mults dst src1 src2 => Sys2Proof.Machine.execMults dst src1 src2 s
  | .divs dst src1 src2 => Sys2Proof.Machine.execDivs dst src1 src2 s
  | .lw dst src1 imm => Sys2Proof.Machine.execLw dst src1 imm s
  | .lws dst src1 imm => Sys2Proof.Machine.execLws dst src1 imm s
  | .sw src1 src2 imm => Sys2Proof.Machine.execSw src1 src2 imm s
  | .sws src1 src2 imm => Sys2Proof.Machine.execSws src1 src2 imm s
  | .beqz src1 imm => Sys2Proof.Machine.execBeqz src1 imm s
  | .bnez src1 imm => Sys2Proof.Machine.execBnez src1 imm s
  | .bltz src1 imm => Sys2Proof.Machine.execBltz src1 imm s
  | .bgtz src1 imm => Sys2Proof.Machine.execBgtz src1 imm s
  | .blez src1 imm => Sys2Proof.Machine.execBlez src1 imm s
  | .bgez src1 imm => Sys2Proof.Machine.execBgez src1 imm s
  | .jump imm => Sys2Proof.Machine.execJump imm s
  | .eop => Sys2Proof.Machine.execEop s

end Sys2Proof.Machine
end

