-- ==== Sys2Proof/Machine/Cycle.lean ====
section
/-! DEFINITION. One clock cycle (R140): Issue, Execute-dispatch, Unit-tick, Write-result, Commit and the end-of-cycle
recompute, in this order. Each phase finds the instructions it handles, in the order the spec gives, and executes each at
its stage; a raised fault ends the cycle at once (R142). -/

namespace Sys2Proof.Machine

/-- Execute an instruction with the cursor at the given place, and bring the cursor to rest again. -/
def serve (at_ : Serving) (i : Instr) (s : State) : Result :=
  match exec i { s with serving := at_ } with
  | .next t => .next { t with serving := .issue }
  | .fault e => .fault e
  | .refused e => .refused e

/-- Each of the items in turn, a raised fault ending the run at once (R142). -/
def inTurn (visit : Nat → State → Result) : List Nat → State → Result
  | [], s => .next s
  | p :: l, s => andThen (visit p s) (inTurn visit l)

/-! ### Issue (R143 to R155) -/

/-- Issue goes on after this record: it issues now, as R143 says when. -/
def issues (i : Instr) (s : State) : Bool := i != .eop && (issueSlot i.opcode s).isSome

/-- Issue with `n` instructions of the width left (R143). A record that does not issue ends the phase: `EOP` (R144), or a
stalled instruction (R145, R155). An address that names no record faults (R146). -/
def issuePhase : Nat → State → Result
  | 0, s => .next s
  | n + 1, s =>
    match s.fetch with
    | none => raise .fetchFault s.fetchPC none s
    | some i => andThen (serve .issue i s) (if issues i s then issuePhase n else .next)

/-! ### Execute-dispatch (R156, R157) -/

/-- The stations that are busy, ready and not executing, oldest first (R156). -/
def dispatchCandidates (s : State) : List Nat :=
  (sortByPc (s.rs.zipIdx.filterMap fun x =>
    if x.1.ready && !x.1.executing then x.1.pc.map fun pc => (pc, x.2) else none)).map Prod.snd

/-- One candidate: it takes the lowest-indexed free unit of its class, or is skipped for this cycle (R156, R157). -/
def dispatchStation (p : Nat) (s : State) : Result :=
  match s.rs[p]? with
  | none => .fault .nothingServed
  | some st =>
    match s.cfg.fuClass st.op with
    | none => .fault .classUndefined
    | some k =>
      match s.freeUnit k with
      | none => .next s
      | some x => serve (.dispatch p x) st.op.inFlight s

/-- Execute-dispatch (R156). -/
def dispatchPhase (s : State) : Result := inTurn dispatchStation (dispatchCandidates s) s

/-! ### Unit-tick (R160) -/

/-- Unit-tick (R160). -/
def tickPhase (s : State) : State := { s with fu := s.fu.map FuncUnit.tick }

/-! ### Write-result (R162 to R170) -/

/-- The completing units, in ascending order of the program counter they service (R162). -/
def completingUnits (s : State) : List Nat :=
  (sortByPc (s.fu.zipIdx.filterMap fun x =>
    if x.1.inUse && x.1.count == 0 then some (x.1.pc.getD 0, x.2) else none)).map Prod.snd

/-- The busy stations with a given program counter (R163). -/
def servedStations (s : State) (pc : Option Word) : List (Station × Nat) :=
  s.rs.zipIdx.filter fun x => x.1.busy && x.1.pc == pc

/-- One completing unit (R162): the unique busy station it serves completes (R163). -/
def completeUnit (x : Nat) (s : State) : Result :=
  match s.fu[x]? with
  | none => .fault .nothingServed
  | some u =>
    match servedStations s u.pc with
    | [(st, p)] => serve (.writeResult p x) st.op.inFlight s
    | _ => .fault .noServedStation

/-- The ready sweep (R168). -/
def readySweep (s : State) : State :=
  { s with rob := s.rob.map fun e => if e.busy && e.value.isSome then { e with ready := true } else e }

/-- Write-result (R162). -/
def writeResultPhase (s : State) : Result :=
  andThen (inTurn completeUnit (completingUnits s) s) fun t => .next (readySweep t)

/-! ### Commit (R171 to R179) -/

/-- Commit: at most one entry, the oldest busy one, and only if it is ready (R171, R172, R173). -/
def commitPhase (s : State) : Result :=
  match s.inFlight with
  | [] => .next s
  | (_, r) :: _ =>
    if (s.robAt r).ready then serve (.commit r) (s.robAt r).op.inFlight s else .next s

/-! ### End of cycle (R180) -/

/-- The ready recompute of every busy station that is not executing (R180). -/
def endOfCycle (s : State) : State :=
  { s with rs := s.rs.map fun st => if st.busy && !st.executing then { st with ready := st.resolved } else st }

/-! ### The cycle (R140, R141) -/

/-- The phases after Issue. -/
def afterIssue (s : State) : Result :=
  andThen (dispatchPhase s) fun s1 =>
    andThen (writeResultPhase (tickPhase s1)) fun s2 =>
      andThen (commitPhase s2) fun s3 => .next (endOfCycle s3)

/-- One cycle (R140). -/
def cycle (s : State) : Result :=
  andThen (issuePhase s.cfg.issueWidth { s with cycles := s.cycles + 1 }) afterIssue

/-- One call of `run(1)` (R323, R345): refused without a program; no cycle runs once the program has completed or a fault
stands (R69, R70, R140); otherwise one cycle. -/
def advance (s : State) : Result :=
  match s.prog with
  | none => .refused .noProgram
  | some _ => if s.stopped then .next s else cycle s

/-- The program of the record in a packed word alone: the record, then the end-of-program marker that R302 asks for,
unless the record is that marker. -/
def soleProgram (i : Instr) : List Instr := if i = .eop then [.eop] else [i, .eop]

/-- The state with a one-record program loaded at `fetchPC`, running (log entry 6). A word that decodes to no instruction
cannot be loaded (R123, R124) and changes nothing. -/
def State.withRecord (s : State) (nbits w : Nat) : State :=
  match decodeTableWord nbits w with
  | none => s
  | some i => { s with prog := some { base := s.fetchPC, records := soleProgram i }, done := false, fault := none }

end Sys2Proof.Machine
end

