-- ==== Sys2Proof/Machine/Step.lean ====
section
/-! DEFINITION. The step function: one clock cycle of the block. -/

namespace Sys2Proof.Machine

/-- One step is one cycle, `run(1)` (R323, R345; DEDUCED, safe, log entry 13). -/
def step (s : State) : Host.Outcome State Fault Refusal := advance s

/-- The state whose very next step fetches the instruction with these bits (log entry 6). -/
def State.withFetchWord (s : State) (nbits w : Nat) : State := s.withRecord nbits w

end Sys2Proof.Machine
end

