-- ==== Sys2Proof/Machine/HostOps.lean ====
section
/-! DEFINITION. The host operations (R4, R300 to R302, R322, R340 to R347): construction, load, reset, run, the register
and memory accessors, the metrics and the introspection. They run between cycles and are not instructions (R319). -/

namespace Sys2Proof.Machine

/-- The configuration parameters a construction can be refused for (R301). -/
inductive ConfigParam where
  | robDepth | issueWidth | rsClassOf | fuClassOf
  deriving DecidableEq, Repr

/-- Why a program's shape is refused (R302). -/
inductive ProgramReason where
  | eopCount | eopPosition | addressRange
  deriving DecidableEq, Repr

/-- The configuration errors of R301: a refused host operation changes no state (R300). -/
inductive ConfigError where
  | configRange (param : ConfigParam)
  | unknownOpcode (index : Nat)
  | badOperand (index : Nat)
  | badProgram (reason : ProgramReason)
  | badAccessor (arg : Nat)
  | noProgram
  deriving DecidableEq, Repr

/-- The numeric code of a configuration error (R311). -/
def ConfigError.number : ConfigError → Nat
  | .configRange _ => 1
  | .unknownOpcode _ => 2
  | .badOperand _ => 3
  | .badProgram _ => 4
  | .badAccessor _ => 5
  | .noProgram => 6

/-! ### Construction (R340) -/

/-- `construct(config)` (R340): the range checks of R301, in the order of the table of R7 (log entry 7), then every
piece of state at its reset value and no program. -/
def construct (c : Config) : Except ConfigError State :=
  if c.robDepth = 0 then .error (.configRange .robDepth)
  else if c.issueWidth = 0 then .error (.configRange .issueWidth)
  else if issuableOpcodes.all (fun op => (c.rsClass op).isSome) = false then .error (.configRange .rsClassOf)
  else if issuableOpcodes.all (fun op => (c.fuClass op).isSome) = false then .error (.configRange .fuClassOf)
  else .ok (State.blank c none 0)

/-! ### Reset and load (R302, R341, R342) -/

/-- `reset()` (R342): every piece of state at the value of R73, the configuration and the program kept. Without a program
`fetchPC` is unspecified and is left as it is. -/
def hostReset (s : State) : State :=
  State.blank s.cfg s.prog (match s.prog with
    | some p => p.base
    | none => s.fetchPC)

/-- The first load-time check: every record in order, its opcode before its fields (R302). -/
def decodeRecords : Nat → List PackedWord → Except ConfigError (List Instr)
  | _, [] => .ok []
  | n, w :: ws =>
    match decode w with
    | .error .unknownOpcode => .error (.unknownOpcode n)
    | .error .badOperand => .error (.badOperand n)
    | .ok i =>
      match decodeRecords (n + 1) ws with
      | .error e => .error e
      | .ok is => .ok (i :: is)

/-- The load-time checks of the program's shape, in order (R302). -/
def checkShape (base : Word) (records : List Instr) : Except ConfigError Unit :=
  if records.count .eop ≠ 1 then .error (.badProgram .eopCount)
  else if records.getLast? ≠ some .eop then .error (.badProgram .eopPosition)
  else if ¬ base.toNat + instrWidth * records.length ≤ 2 ^ 32 then .error (.badProgram .addressRange)
  else .ok ()

/-- `load(PROG, BASE_PC)` (R341), the records in their packed form (R112; DESIGN CHOICE, safe,
log entry 14): the checks of R302, then the program is
installed and the block reset. -/
def loadProgram (words : List PackedWord) (base : Word) (s : State) : Except ConfigError State :=
  match decodeRecords 0 words with
  | .error e => .error e
  | .ok records =>
    match checkShape base records with
    | .error e => .error e
    | .ok () => .ok (hostReset { s with prog := some { base := base, records := records } })

/-! ### Accessors (R34, R89) -/

/-- `readReg(id)` (R34). -/
def hostReadReg (id : Nat) (s : State) : Except ConfigError (Option Word) :=
  if id < 64 then .ok (s.readReg (BitVec.ofNat 6 id)) else .error (.badAccessor id)

/-- `writeReg(id, v)` (R34): the RAT is not changed. -/
def hostWriteReg (id : Nat) (v : Word) (s : State) : Except ConfigError State :=
  if id < 64 then .ok (s.writeReg (BitVec.ofNat 6 id) v) else .error (.badAccessor id)

/-- `readTag(id)` (R34). -/
def hostReadTag (id : Nat) (s : State) : Except ConfigError (Option Nat) :=
  if id < 64 then .ok (s.ratAt (BitVec.ofNat 6 id)).tag else .error (.badAccessor id)

/-- The address check of the memory accessors (R89). -/
def accessible (s : State) (a : Word) : Bool := aligned a && inBounds s.cfg.memSize a

/-- `readMem(a)` (R89): `none` is `⊥`. -/
def hostReadMem (a : Word) (s : State) : Except ConfigError (Option Word) :=
  if accessible s a then .ok (s.mem.word? a.toNat) else .error (.badAccessor a.toNat)

/-- `writeMem(a, v)` (R89). -/
def hostWriteMem (a v : Word) (s : State) : Except ConfigError State :=
  if accessible s a then .ok { s with mem := s.mem.setWord a.toNat v } else .error (.badAccessor a.toNat)

/-! ### Running (R345, R346) -/

/-- What `run` returns (R345). -/
inductive Status where
  | done
  | fault (f : FaultRecord)
  | budget
  deriving DecidableEq, Repr

/-- The status of a block (R345). -/
def State.status (s : State) : Status :=
  if s.done then .done
  else
    match s.fault with
    | some f => .fault f
    | none => .budget

/-- At most `n` cycles, none after completion or a fault (R345). -/
def runCycles : Nat → State → Result
  | 0, s => .next s
  | n + 1, s =>
    match step s with
    | .next t => runCycles n t
    | .fault e => .fault e
    | .refused e => .refused e

/-- `run(n)` with a budget, `n > 0`: refused without a program, and otherwise what `n` cycles at most leave (R345). For every
`n`, 0 among them, see `RunReturns`. -/
def run (n : Nat) (_ : 0 < n) (s : State) : Except ConfigError Result :=
  match s.prog with
  | none => .error .noProgram
  | some _ => .ok (runCycles n s)

/-- `run(n)` (R345, R346), for every `n`: called in `s` it returns `answer`. Without a program it refuses. Otherwise it
returns a status and leaves a state: with `n > 0` after at most `n` cycles, with `n = 0` once the program has completed or
faulted, at once if it already has. `run(0)` returns nothing on a program that does neither, the partial function that R346
asks for (DEDUCED, safe, log entry 13). -/
def RunReturns (n : Nat) (s : State) (answer : Except ConfigError (Status × State)) : Prop :=
  match s.prog with
  | none => answer = .error .noProgram
  | some _ => ∃ m t, runCycles m s = .next t ∧ (if n = 0 then t.stopped = true else m = n) ∧ answer = .ok (t.status, t)

/-! ### Metrics and introspection (R320, R322, R347) -/

/-- The throughput metric `retired / cycles` (R320, R347); 0 before the first cycle (DESIGN CHOICE, log entry 17). -/
def State.throughput (s : State) : ℚ := (s.retired : ℚ) / (s.cycles : ℚ)

/-- The stations of one class, by index (R46, R322). -/
def State.stationsOf (s : State) (c : RsClass) : List Station := s.rs.filter fun st => st.cls == c

/-- The units of one class, by index (R53, R322). -/
def State.unitsOf (s : State) (k : FuClass) : List FuncUnit := s.fu.filter fun u => u.cls == k

/-- The number of busy reorder-buffer entries (R186). -/
def State.busyEntries (s : State) : Nat := s.rob.countP RobEntry.busy

end Sys2Proof.Machine
end

