-- ==== Sys2Proof/Safety.lean ====
section
/-! DEFINITION. The terms the statements use: what an instruction at each stage is served with, what a stage leaves
unchanged, and the invariants of the block (10_state.md, 40_pipeline.md section 8). -/

namespace Sys2Proof.Machine

/-! ### Where an instruction is served -/

/-- A cycle runs (R140): a program is loaded, it has not completed, and no fault stands. -/
def Running (s : State) : Prop := s.prog.isSome = true ∧ s.done = false ∧ s.fault = none

/-- Issue considers an opcode and it can issue into the station at `p` (R143, R145). -/
def AtIssue (s : State) (op : Opcode) (p : Nat) : Prop := s.serving = .issue ∧ issueSlot op s = some p

/-- Execute-dispatch handles the busy station `st` at `p`, for the unit `u` at `x` (R156). -/
def AtDispatch (s : State) (p x : Nat) (st : Station) (u : FuncUnit) (pc : Word) : Prop :=
  s.serving = .dispatch p x ∧ s.rs[p]? = some st ∧ s.fu[x]? = some u ∧ st.pc = some pc

/-- Write-result handles the busy station `st` at `p`, whose instruction the unit `u` at `x` completes (R162). -/
def AtWriteResult (s : State) (p x : Nat) (st : Station) (u : FuncUnit) (pc : Word) : Prop :=
  s.serving = .writeResult p x ∧ s.rs[p]? = some st ∧ s.fu[x]? = some u ∧ st.pc = some pc

/-- Commit handles the busy entry `e` at index `r`, which holds the value `v` (R173). -/
def AtCommit (s : State) (r : Nat) (e : RobEntry) (pc v : Word) : Prop :=
  s.serving = .commit r ∧ s.rob[r]? = some e ∧ e.pc = some pc ∧ e.value = some v

/-- Visiting the items in turn, each in the state the one before left, takes `s` to `t`; a raised fault ends the visit at
once (R142). -/
def VisitedInTurn (visit : Nat → State → Result) : List Nat → State → State → Prop
  | [], s, t => t = s
  | p :: l, s, t => ∃ u, visit p s = .next u ∧
      (u.fault.isSome = true ∧ t = u ∨ u.fault = none ∧ VisitedInTurn visit l u t)

/-! ### What stays -/

/-- No register of either file changes. -/
def SameRegisters (s t : State) : Prop := ∀ id, t.readReg id = s.readReg id

/-- No byte of data memory changes. -/
def SameMemory (s t : State) : Prop := ∀ a, t.mem.byte? a = s.mem.byte? a

/-- The four bytes of the word at `a` are `v`'s, least significant first, and every other byte is unchanged (R87, R88). -/
def StoresWord (s t : State) (a v : Word) : Prop :=
  t.mem.byte? a.toNat = some (v.extractLsb' 0 8) ∧
  t.mem.byte? (a.toNat + 1) = some (v.extractLsb' 8 8) ∧
  t.mem.byte? (a.toNat + 2) = some (v.extractLsb' 16 8) ∧
  t.mem.byte? (a.toNat + 3) = some (v.extractLsb' 24 8) ∧
  ∀ b, b < a.toNat ∨ a.toNat + 4 ≤ b → t.mem.byte? b = s.mem.byte? b

/-- The configuration and the program do not change, and the cursor stays where it is. -/
def SameParameters (s t : State) : Prop := t.cfg = s.cfg ∧ t.prog = s.prog ∧ t.serving = s.serving

/-- The alias table does not change. -/
def SameRat (s t : State) : Prop := ∀ id, t.ratAt id = s.ratAt id

/-- Counters, logs and status do not change. -/
def SameMetrics (s t : State) : Prop :=
  t.cycles = s.cycles ∧ t.retired = s.retired ∧ t.retLog = s.retLog ∧ t.squashLog = s.squashLog ∧
  t.done = s.done ∧ t.fault = s.fault

/-! ### What a stage does -/

/-- The only change from `s` to `t` is the fault record (R142, R303). -/
def RaisedOnly (s t : State) (code : FaultCode) (pc : Word) (info : Option Word) : Prop :=
  t = { s with fault := some { code := code, pc := pc, info := info } }

/-- Write-result published the result `v` of the station `st` at `p`, completed by the unit `u` at `x`: the producing entry
holds it, every other busy station captured it where it waited for it, the station and the unit are free, and registers,
alias table, fetch address, tail, counters, logs and status are unchanged (R162, R165 to R170). Memory is told apart. -/
structure Published (s t : State) (p x : Nat) (st : Station) (u : FuncUnit) (v : Word) : Prop where
  entries : t.rob.length = s.rob.length
  entry : ∀ r, r < s.rob.length → t.robAt r =
    if r = st.dest then { s.robAt r with value := some v, stage := .writeResult } else s.robAt r
  stations : ∀ q, t.rs[q]? = if q = p then some st.release else (s.rs[q]?).map (Station.capture st.dest v)
  units : ∀ y, t.fu[y]? = if y = x then some u.release else s.fu[y]?
  registers : SameRegisters s t
  rat : SameRat s t
  fetch : t.fetchPC = s.fetchPC ∧ t.robTail = s.robTail
  metrics : SameMetrics s t
  parameters : SameParameters s t

/-- Commit retired the entry `e` at index `r` (R173, R176, R177): it is logged and counted, its entry is not busy, no other
entry changes, and memory, stations, units, tail, squash log, fault and parameters are unchanged. Registers, alias table,
fetch address and completion are told apart. -/
structure Retired (s t : State) (r : Nat) (e : RobEntry) (pc : Word) : Prop where
  logged : t.retLog = s.retLog ++ [(pc, e.op)]
  counted : t.retired = s.retired + 1
  cycles : t.cycles = s.cycles
  entries : t.rob.length = s.rob.length
  cleared : ∃ op, t.robAt r = { RobEntry.free with op := op }
  others : ∀ q, q ≠ r → t.robAt q = s.robAt q
  memory : SameMemory s t
  stations : t.rs = s.rs
  units : t.fu = s.fu
  tail : t.robTail = s.robTail
  squash : t.squashLog = s.squashLog
  fault : t.fault = s.fault
  parameters : SameParameters s t

/-- The program completes exactly when the committed instruction stands just before the end-of-program marker (R282). -/
def CompletesAt (s t : State) (pc : Word) : Prop :=
  t.done = true ↔ s.done = true ∨ ∃ p, s.prog = some p ∧ fallThrough pc = p.eopPC

/-- Nothing is in flight: no busy entry, station or unit and no pending producer (R184). -/
def Flushed (t : State) : Prop :=
  (∀ e ∈ t.rob, e.busy = false) ∧ (∀ st ∈ t.rs, st.busy = false) ∧ (∀ u ∈ t.fu, u.inUse = false) ∧
  ∀ id, t.ratAt id = RatEntry.empty

/-- What a source identifier of the issuing instruction `i` resolves to, told from the state before Issue (R152, R153):
under `DEST_FIRST` the instruction's own destination reads the architectural register; otherwise the alias table before
renaming decides, and a producer that has broadcast gives its value, another its tag. -/
def issuedSlot (s : State) (i : Instr) (src : Option OperandId) : Slot :=
  match src with
  | none => .absent
  | some id =>
    if s.cfg.selfAlias = .destFirst ∧ destOf i = .reg id then .val (s.readReg id)
    else
      match (s.ratAt id).tag with
      | none => .val (s.readReg id)
      | some q =>
        if q = s.robTail then .val (s.readReg id)
        else if (s.robAt q).ready then .val (s.robAt q).value
        else .wait q

/-- Issue put the instruction `i` into the entry at the tail and into the station at `p`, and nothing else changed
(R147 to R153). -/
structure Issued (s t : State) (i : Instr) (p : Nat) : Prop where
  entries : t.rob.length = s.rob.length
  entry : ∀ r, r < s.rob.length → t.robAt r =
    if r = s.robTail then
      { pc := some s.fetchPC, ready := false, stage := .issue, dest := destOf i, op := i.opcode, value := none }
    else s.robAt r
  tail : t.robTail = (s.robTail + 1) % s.cfg.robDepth
  rat : ∀ id, t.ratAt id =
    if destOf i = .reg id then { tag := some s.robTail, op := some i.opcode, pc := some s.fetchPC } else s.ratAt id
  station : ∃ st, s.rs[p]? = some st ∧ st.busy = false ∧ s.cfg.rsClass i.opcode = some st.cls ∧
    (∀ q st', q < p → s.rs[q]? = some st' → st'.cls = st.cls → st'.busy = true) ∧
    t.rs[p]? = some
      { cls := st.cls, pc := some s.fetchPC, op := i.opcode, j := issuedSlot s i (firstSource i),
        k := issuedSlot s i (secondSource i), dest := s.robTail, imm := immediateOf i, ea := none, ready := false,
        executing := false }
  stations : ∀ q, q ≠ p → t.rs[q]? = s.rs[q]?
  fetch : t.fetchPC = s.fetchPC + 4
  units : t.fu = s.fu
  registers : SameRegisters s t
  memory : SameMemory s t
  metrics : SameMetrics s t
  parameters : SameParameters s t

/-- Execute-dispatch linked the station `st` at `p` to the unit `u` at `x`, with the effective address `ea`, and nothing else
changed (R159). -/
structure Dispatched (s t : State) (p x : Nat) (st : Station) (u : FuncUnit) (ea : Option Word) : Prop where
  stations : ∀ q, t.rs[q]? = if q = p then some { st with ea := ea, executing := true } else s.rs[q]?
  units : ∀ y, t.fu[y]? =
    if y = x then some { u with inUse := true, pc := st.pc, count := u.latency + 1 } else s.fu[y]?
  entries : t.rob.length = s.rob.length
  entry : ∀ r, r < s.rob.length → t.robAt r =
    if r = st.dest then { s.robAt r with stage := .execute } else s.robAt r
  registers : SameRegisters s t
  memory : SameMemory s t
  rat : SameRat s t
  fetch : t.fetchPC = s.fetchPC ∧ t.robTail = s.robTail
  metrics : SameMetrics s t
  parameters : SameParameters s t

/-- The word `v` is `± num / den` units of 2^-149 rounded to nearest, ties to even (R234): an infinity from half a unit in
the last place above the largest finite value on, and otherwise a finite word of the right sign such that no finite word is
nearer, and one as near with another magnitude leaves `v` even. -/
def RoundedTo (neg : Bool) (num den : Nat) (v : Word) : Prop :=
  ((2 ^ 25 - 1) * 2 ^ 252 * den ≤ num ∧ v = infinityWord neg) ∨
  (num < (2 ^ 25 - 1) * 2 ^ 252 * den ∧ isFinite v = true ∧ signBit v = neg ∧
    ∀ c : Word, isFinite c = true →
      |(magnitude v : Int) * den - num| ≤ |(magnitude c : Int) * den - num| ∧
      (|(magnitude v : Int) * den - num| = |(magnitude c : Int) * den - num| → magnitude c ≠ magnitude v →
        v.getLsbD 0 = false))

/-- Every piece of state that R73 lists, but the fetch address, has its reset value, and the pools have the configured sizes
(R73, R340). -/
structure HasResetValues (t : State) : Prop where
  registers : ∀ id, t.readReg id = none
  robLength : t.rob.length = t.cfg.robDepth
  entries : ∀ e ∈ t.rob, e.pc = none ∧ e.ready = false ∧ e.stage = .issue ∧ e.dest = .noDest ∧ e.value = none
  tail : t.robTail = 0
  stationCount : ∀ c, (t.stationsOf c).length = t.cfg.rsCount.get c
  stations : ∀ st ∈ t.rs, st.pc = none ∧ st.j = .absent ∧ st.k = .absent ∧ st.ea = none ∧ st.ready = false ∧
    st.executing = false
  unitCount : ∀ k, (t.unitsOf k).length = t.cfg.fuCount.get k
  units : ∀ u ∈ t.fu, u.inUse = false ∧ u.pc = none ∧ u.count = 0 ∧ u.latency = t.cfg.fuLatency.get u.cls
  rat : ∀ id, (t.ratAt id).tag = none ∧ (t.ratAt id).op = none ∧ (t.ratAt id).pc = none
  memory : ∀ a, t.mem.byte? a = none
  counters : t.cycles = 0 ∧ t.retired = 0
  logs : t.retLog = [] ∧ t.squashLog = []
  status : t.done = false ∧ t.fault = none

/-! ### Invariants -/

/-- The shape of the block: the pools have the sizes, classes and latencies of the configuration (R340), the tail is an
index (R41), a unit is in use exactly when it services an instruction (R54), memory is in canonical form and inside its
size (R80), the retirement counter counts the log and never exceeds the cycles (R66, R67, R320), and the cursor is at
rest. -/
structure Shape (s : State) : Prop where
  robLength : s.rob.length = s.cfg.robDepth
  tail : s.robTail < s.cfg.robDepth
  stations : s.rs.map Station.cls = (Config.stations s.cfg).map Station.cls
  units : s.fu.map (fun u => (u.cls, u.latency)) = (Config.units s.cfg).map (fun u => (u.cls, u.latency))
  inUse : ∀ u ∈ s.fu, u.inUse = u.pc.isSome
  memory : s.mem.wf
  inside : ∀ c ∈ s.mem, c.1 < s.cfg.memSize
  logged : s.retLog.length = s.retired
  retired : s.retired ≤ s.cycles
  squashes : s.squashLog.length ≤ s.retired
  cursor : s.serving = .issue

/-- Tag soundness (R44, R45, R50, R61, R183): an entry is ready exactly when it is busy and holds a value, and is never seen
in stage COMMIT; a slot waits only for a busy entry that has not broadcast; a ready or executing station waits for
nothing; and a RAT entry names a busy entry that writes its register. -/
structure TagSound (s : State) : Prop where
  robLength : s.rob.length = s.cfg.robDepth
  tail : s.robTail < s.cfg.robDepth
  entryReady : ∀ e ∈ s.rob, e.ready = (e.busy && e.value.isSome)
  entryStage : ∀ e ∈ s.rob, e.busy = true → e.stage ≠ .commit
  waits : ∀ st ∈ s.rs, st.busy = true → ∀ t, st.j = .wait t ∨ st.k = .wait t →
    (s.robAt t).busy = true ∧ (s.robAt t).value = none
  resolved : ∀ st ∈ s.rs, st.busy = true → st.ready = true ∨ st.executing = true → st.resolved = true
  ratNames : ∀ id t, (s.ratAt id).tag = some t → (s.robAt t).busy = true ∧ (s.robAt t).dest = .reg id

/-- A station's slots are those its opcode's form uses (R119). -/
def slotsFit (op : Opcode) (j k : Slot) : Bool :=
  ((firstSource op.inFlight).isNone || j != .absent) && ((secondSource op.inFlight).isNone || k != .absent)

/-- Coherence: what makes the situations that the spec calls unreachable (R163, R164) unreachable. The program passed the load
checks and the class maps are total; in-flight program counters lie below the fetch address and differ from each other
(R42, R186); every busy station holds an issued opcode with the slots of its form, resolved once it is ready, and an
address once a memory access executes; every unit in use services a busy, executing station of its own (R57, R163); and a
ready entry is busy and holds a value (R45). -/
structure Coherent (s : State) : Prop where
  program : ∃ p, s.prog = some p ∧ checkShape p.base p.records = .ok ()
  rsClasses : ∀ op ∈ issuableOpcodes, (s.cfg.rsClass op).isSome = true
  fuClasses : ∀ op ∈ issuableOpcodes, (s.cfg.fuClass op).isSome = true
  stationPcs : (s.rs.filterMap Station.pc).Nodup
  stationPcsBelow : ∀ st ∈ s.rs, ∀ pc, st.pc = some pc → pc.toNat < s.fetchPC.toNat
  entryPcs : (s.rob.filterMap RobEntry.pc).Nodup
  entryPcsBelow : ∀ e ∈ s.rob, ∀ pc, e.pc = some pc → pc.toNat < s.fetchPC.toNat
  stationOps : ∀ st ∈ s.rs, st.busy = true → st.op ≠ .eop ∧ slotsFit st.op st.j st.k = true
  resolved : ∀ st ∈ s.rs, st.busy = true → st.ready = true ∨ st.executing = true → st.resolved = true
  addressed : ∀ st ∈ s.rs, st.busy = true → st.executing = true → isMemory st.op = true → st.ea.isSome = true
  unitPcs : ((s.fu.filter FuncUnit.inUse).filterMap FuncUnit.pc).Nodup
  unitServes : ∀ u ∈ s.fu, u.inUse = true →
    ∃ st ∈ s.rs, st.busy = true ∧ st.executing = true ∧ st.pc = u.pc
  entryReady : ∀ e ∈ s.rob, e.ready = true → e.busy = true ∧ e.value.isSome = true

end Sys2Proof.Machine
end

