-- ==== Sys2Proof/Certificates/Slice0/Obligations.lean ====
section
/-! DEFINITION. The statements for the provers. Each formalises the rules its docstring cites, or says that it is
derived. -/

open Sys2Proof Sys2Proof.Machine

/-! ### Encoding (30_encoding.md) -/

/-- Decoding the word of a well-formed instruction gives it back, every operand at every value (R112, R117). -/
def Obligations.DecodeOfEncode : Prop :=
  ∀ i : Instr, i.wellFormed = true → decode (encode i) = .ok i

/-- A word that decodes is the word of its instruction, which is well formed: no bit of an accepted word is dropped
(R112, R115, R117). -/
def Obligations.EncodeOfDecode : Prop :=
  ∀ (w : PackedWord) (i : Instr), decode w = .ok i → i.wellFormed = true ∧ encode i = w

/-- R127: a word in a row of the opcode table is in no other and decodes to an instruction of that row's opcode; a word in
no row is refused, as an unknown opcode when bits [4:0] are 26 or more and for its operands otherwise. -/
def Obligations.DecodeReadsTheTableRows : Prop :=
  ∀ w : PackedWord,
    (∀ op, inRow op w = true →
      (∀ op', inRow op' w = true → op' = op) ∧ ∃ i, decode w = .ok i ∧ i.opcode = op) ∧
    ((∀ op, inRow op w = false) →
      decode w = .error (if 26 ≤ (w.extractLsb' 0 5).toNat then .unknownOpcode else .badOperand))

/-- Words printed in the spec's programs (95_test_vectors.md sections 1 and 3) decode to the instructions printed beside
them, and a reserved code is refused. -/
def Obligations.PrintedWordsDecode : Prop :=
  decode 0x0000000000308100 = .ok (.add 3 1 2) ∧
  decode 0x0000000100100107 = .ok (.subi 1 1 1) ∧
  decode 0x000000000238A10C = .ok (.mults 35 33 34) ∧
  decode 0x000000040220010F = .ok (.lws 34 1 4) ∧
  decode 0x0000000800090111 = .ok (.sws 1 36 8) ∧
  decode 0xFFFFFFF800000113 = .ok (.bnez 1 0xFFFFFFF8) ∧
  decode 0x0000000800000018 = .ok (.jump 8) ∧
  decode 0x0000000000000019 = .ok .eop ∧
  decode 0x000000000000001A = .error .unknownOpcode

/-! ### Construction, load and reset (R301, R302, R340 to R342) -/

/-- Construction succeeds exactly when the depth and the width are not 0 and both class maps give every issuable opcode a
class (R301, R340). -/
def Obligations.ConstructionChecksTheConfiguration : Prop :=
  ∀ c : Config, (∃ s, construct c = .ok s) ↔
    0 < c.robDepth ∧ 0 < c.issueWidth ∧
      (∀ op, op ≠ .eop → ∃ k, c.rsClass op = some k) ∧ ∀ op, op ≠ .eop → ∃ k, c.fuClass op = some k

/-- R73: after construction and after `reset()` every piece of state has its reset value; `reset()` keeps configuration and
program and sets the fetch address to the program's base. -/
def Obligations.ResetGivesEveryTableValue : Prop :=
  (∀ c s, construct c = .ok s → HasResetValues s ∧ s.cfg = c ∧ s.prog = none) ∧
  ∀ s, HasResetValues (hostReset s) ∧ (hostReset s).cfg = s.cfg ∧ (hostReset s).prog = s.prog ∧
    ∀ p, s.prog = some p → (hostReset s).fetchPC = p.base

/-- R302: `load` refuses with the first failing check, in the order records, marker count, marker position, address range;
on success the program is installed, the block is reset, and `EOP_PC` is the last record's address. -/
def Obligations.LoadRefusesWithTheFirstFailure : Prop :=
  ∀ (words : List PackedWord) (base : Word) (s : State),
    (∀ n w, words[n]? = some w → (∀ m v, m < n → words[m]? = some v → ∃ i, decode v = .ok i) →
      (decode w = .error .unknownOpcode → loadProgram words base s = .error (.unknownOpcode n)) ∧
      (decode w = .error .badOperand → loadProgram words base s = .error (.badOperand n))) ∧
    ∀ records : List Instr, words.map decode = records.map Except.ok →
      (records.count .eop ≠ 1 → loadProgram words base s = .error (.badProgram .eopCount)) ∧
      (records.count .eop = 1 → records.getLast? ≠ some .eop →
        loadProgram words base s = .error (.badProgram .eopPosition)) ∧
      (records.count .eop = 1 → records.getLast? = some .eop → 2 ^ 32 < base.toNat + 4 * records.length →
        loadProgram words base s = .error (.badProgram .addressRange)) ∧
      (records.count .eop = 1 → records.getLast? = some .eop → base.toNat + 4 * records.length ≤ 2 ^ 32 →
        loadProgram words base s = .ok (hostReset { s with prog := some { base := base, records := records } }) ∧
        Program.eopPC { base := base, records := records } = base + BitVec.ofNat 32 (4 * (records.length - 1)))

/-- After a successful load the record at `BASE_PC + 4·n` is the instruction that the word at index `n` decodes to
(R35, R111). -/
def Obligations.LoadedRecordsAreTheDecodedWords : Prop :=
  ∀ (words : List PackedWord) (base : Word) (s t : State) (n : Nat) (w : PackedWord) (i : Instr),
    loadProgram words base s = .ok t → words[n]? = some w → decode w = .ok i →
    ∃ p, t.prog = some p ∧ p.record? (base + BitVec.ofNat 32 (4 * n)) = some i

/-! ### The step (R140, R142, R144, R146) -/

/-- A step runs the fetched record: where the fetch address names the record `i`, Issue is `exec` of `i` at the state whose
cycle has been counted, then Issue of the following records if `i` issued, then the later phases; a raised fault ends the
cycle at any of these points. Issue goes on with the following records in the same way while width is left, and faults where
an address names no record (R140, R142 to R144, R146). -/
def Obligations.StepRunsTheFetchedRecord : Prop :=
  (∀ (s t : State) (i : Instr) (n : Nat), Running s → s.serving = .issue → s.cfg.issueWidth = n + 1 →
    s.fetch = some i → exec i { s with cycles := s.cycles + 1 } = .next t →
    step s = andThen
      (andThen (.next { t with serving := .issue })
        (if i ≠ .eop ∧ (issueSlot i.opcode s).isSome = true then issuePhase n else .next))
      afterIssue) ∧
  (∀ s : State, issuePhase 0 s = .next s) ∧
  (∀ (s t : State) (i : Instr) (n : Nat), s.serving = .issue → s.fetch = some i → exec i s = .next t →
    issuePhase (n + 1) s = andThen (.next { t with serving := .issue })
      (if i ≠ .eop ∧ (issueSlot i.opcode s).isSome = true then issuePhase n else .next)) ∧
  ∀ (s : State) (n : Nat), s.fetch = none →
    issuePhase (n + 1) s = .next { s with fault := some { code := .fetchFault, pc := s.fetchPC, info := none } }

/-- The instruction placed by `withFetchWord` at `State.reset` issues in the very next step: entry 0 and its station hold it.
This rests on the model's choice of configuration (log entry 1) and on what `withFetchWord` stands for (log entry 6). -/
def Obligations.PlacedInstructionIssuesNext : Prop :=
  ∀ i : Instr, i.wellFormed = true → i ≠ .eop →
    ∃ t st, step (State.reset.withFetchWord 64 (encode i).toNat) = .next t ∧
      t.cycles = 1 ∧ t.fetchPC = 4 ∧ t.robTail = 1 ∧ t.fault = none ∧
      t.robAt 0 = { pc := some 0, ready := false, stage := .issue, dest := destOf i, op := i.opcode, value := none } ∧
      st ∈ t.rs ∧ st.pc = some 0 ∧ st.op = i.opcode ∧ st.imm = immediateOf i ∧ st.dest = 0

/-- R140 with R142: the phases run in the fixed order, each on the state the one before left, none after a fault; a block
that has completed or faulted does not move. -/
def Obligations.CycleRunsThePhasesInOrder : Prop :=
  ∀ s : State,
    (s.prog.isSome = true → s.done = true ∨ s.fault.isSome = true → step s = .next s) ∧
    (Running s → ∀ a, issuePhase s.cfg.issueWidth { s with cycles := s.cycles + 1 } = .next a →
      (a.fault.isSome = true → step s = .next a) ∧
      (a.fault = none → ∀ b, dispatchPhase a = .next b →
        (b.fault.isSome = true → step s = .next b) ∧
        (b.fault = none → ∀ c, writeResultPhase (tickPhase b) = .next c →
          (c.fault.isSome = true → step s = .next c) ∧
          (c.fault = none → ∀ d, commitPhase c = .next d → d.fault = none → step s = .next (endOfCycle d)))))

/-- Without a loaded program a step is refused by name (R301, `NoProgram`). -/
def Obligations.StepWithoutProgramIsRefused : Prop :=
  ∀ s : State, s.prog = none → step s = .refused .noProgram

/-- A fetch address that names no record faults in Issue, and nothing but the cycle count and the fault record changes
(R146, R304). -/
def Obligations.FetchFaultEndsTheCycle : Prop :=
  ∀ (s : State) (p : Program), Running s → 0 < s.cfg.issueWidth → s.prog = some p →
    (s.fetchPC.toNat < p.base.toNat ∨ (s.fetchPC.toNat - p.base.toNat) % 4 ≠ 0 ∨
      p.records.length ≤ (s.fetchPC.toNat - p.base.toNat) / 4) →
    step s = .next { s with
      cycles := s.cycles + 1
      fault := some { code := .fetchFault, pc := s.fetchPC, info := none } }

/-! ### Issue (R143 to R155) -/

/-- Every instruction but `EOP` issues when the entry at the tail and a station of its class are free: the entry, the
station, the alias table and the fetch address change as R147 to R153 say, the sources resolved under either policy, and
nothing else changes. -/
def Obligations.IssueAllocatesAndRenames : Prop :=
  ∀ (i : Instr) (s : State) (p : Nat), i ≠ .eop → AtIssue s i.opcode p → s.robTail < s.rob.length →
    ∃ t, exec i s = .next t ∧ Issued s t i p

/-- With the entry at the tail busy, or every station of the class busy, an instruction stalls and nothing changes
(R145, R155). -/
def Obligations.IssueStallsWithoutSlot : Prop :=
  ∀ (i : Instr) (s : State) (c : RsClass), i ≠ .eop → s.serving = .issue → s.cfg.rsClass i.opcode = some c →
    ((s.robAt s.robTail).busy = true ∨ ∀ st ∈ s.rs, st.cls = c → st.busy = true) →
    exec i s = .next s

/-- `EOP` takes no entry, no station and no unit, and changes nothing; Issue stops at it for the cycle, whatever width is
left (R144, R280). -/
def Obligations.EndOfProgramNeverIssues : Prop :=
  ∀ (s : State) (n : Nat), exec .eop s = .next s ∧
    (s.serving = .issue → s.fetch = some .eop → issuePhase n s = .next s)

/-- R152: what a used source identifier resolves to. -/
def Obligations.ResolveFollowsTheProducer : Prop :=
  ∀ (s : State) (id : OperandId) (r : Nat),
    resolve s none r = .absent ∧
    ((s.ratAt id).tag = none → resolve s (some id) r = .val (s.readReg id)) ∧
    ((s.ratAt id).tag = some r → resolve s (some id) r = .val (s.readReg id)) ∧
    ∀ p, (s.ratAt id).tag = some p → p ≠ r →
      ((s.robAt p).ready = true → resolve s (some id) r = .val (s.robAt p).value) ∧
      ((s.robAt p).ready = false → resolve s (some id) r = .wait p)

/-! ### Execute-dispatch (R156 to R159) -/

/-- R159: dispatch takes the unit for `latency + 1` cycles, marks the station executing and the entry EXECUTE; a load or
store with a defined base also gets its effective address, modulo 2^32 (R158, R254); nothing else changes. -/
def Obligations.DispatchTakesTheUnit : Prop :=
  ∀ (i : Instr) (s : State) (p x : Nat) (st : Station) (u : FuncUnit) (pc : Word), i ≠ .eop →
    AtDispatch s p x st u pc →
    (isMemory i.opcode = false → ∃ t, exec i s = .next t ∧ Dispatched s t p x st u st.ea) ∧
    (isMemory i.opcode = true → ∀ base, st.j = .val (some base) →
      ∃ t, exec i s = .next t ∧ Dispatched s t p x st u (some (BitVec.ofNat 32 (base.toNat + st.imm.toNat))))

/-- A load or store whose base is undefined faults at dispatch, and station and unit are left unchanged (R158, R305). -/
def Obligations.UndefinedBaseFaultsAtDispatch : Prop :=
  ∀ (i : Instr) (s : State) (p x : Nat) (st : Station) (u : FuncUnit) (pc : Word), isMemory i.opcode = true →
    AtDispatch s p x st u pc → st.j = .val none →
    ∃ t, exec i s = .next t ∧ RaisedOnly s t .undefinedOperand pc none

/-- Execute-dispatch handles the candidates in turn, each in the state the one before left, and ends at a fault; the
candidates are exactly the busy, ready stations that are not executing, each once, in ascending program counter order
(R142, R156). -/
def Obligations.DispatchVisitsOldestFirst : Prop :=
  ∀ s : State,
    (∀ p, p ∈ dispatchCandidates s ↔
      ∃ st, s.rs[p]? = some st ∧ st.busy = true ∧ st.ready = true ∧ st.executing = false) ∧
    (dispatchCandidates s).Nodup ∧
    ((dispatchCandidates s).Pairwise fun p q => ∀ st st' pc pc', s.rs[p]? = some st → s.rs[q]? = some st' →
      st.pc = some pc → st'.pc = some pc' → pc.toNat ≤ pc'.toNat) ∧
    ∀ t, dispatchPhase s = .next t ↔ VisitedInTurn dispatchStation (dispatchCandidates s) s t

/-- A candidate takes the lowest-indexed free unit of its class, by `exec` of its station's instruction at dispatch, and is
skipped when there is none (R156, R157). -/
def Obligations.CandidateTakesTheLowestFreeUnit : Prop :=
  ∀ (s : State) (p : Nat) (st : Station) (k : FuClass), s.rs[p]? = some st → s.cfg.fuClass st.op = some k →
    ((∀ u ∈ s.fu, u.cls = k → u.inUse = true) → dispatchStation p s = .next s) ∧
    ∀ (x : Nat) (u : FuncUnit), s.fu[x]? = some u → u.cls = k → u.inUse = false →
      (∀ y u', y < x → s.fu[y]? = some u' → u'.cls = k → u'.inUse = true) →
      dispatchStation p s = serve (.dispatch p x) st.op.inFlight s ∧
      ∀ t, exec st.op.inFlight { s with serving := .dispatch p x } = .next t →
        dispatchStation p s = .next { t with serving := .issue }

/-! ### Unit-tick (R160, R161) -/

/-- R160: every unit in use with a count above 0 counts down by one, and nothing else changes. -/
def Obligations.TickCountsEveryBusyUnitDown : Prop :=
  ∀ s : State,
    (∀ (x : Nat) (u : FuncUnit), s.fu[x]? = some u → (tickPhase s).fu[x]? =
      some (if u.inUse = true ∧ 0 < u.count then { u with count := u.count - 1 } else u)) ∧
    tickPhase s = { s with fu := (tickPhase s).fu }

/-- A unit just dispatched, of latency `n`, has count `n` after the tick of that cycle and reaches 0, not earlier, after `n`
more ticks (R161). -/
def Obligations.LatencyCountsToCompletion : Prop :=
  ∀ (s : State) (x n m : Nat) (u : FuncUnit), s.fu[x]? = some u → u.inUse = true → u.latency = n →
    u.count = n + 1 → m ≤ n →
    (tickPhase^[m + 1] s).fu[x]? = some { u with count := n - m }

/-! ### Write-result: the results (41 to 44) -/

/-- ADD, SUB, XOR, AND and MULT publish the sum, the difference, the exclusive or, the conjunction and the low word of the
product, modulo 2^32, and no byte of memory changes (R200 to R204, R210, R211). -/
def Obligations.IntegerRegisterResults : Prop :=
  ∀ (s : State) (p x : Nat) (st : Station) (u : FuncUnit) (pc a b : Word) (d m n : OperandId),
    AtWriteResult s p x st u pc → st.j = .val (some a) → st.k = .val (some b) →
    (∃ t, exec (.add d m n) s = .next t ∧ SameMemory s t ∧
      Published s t p x st u (BitVec.ofNat 32 (a.toNat + b.toNat))) ∧
    (∃ t, exec (.sub d m n) s = .next t ∧ SameMemory s t ∧
      Published s t p x st u (BitVec.ofInt 32 (a.toInt - b.toInt))) ∧
    (∃ t, exec (.xor d m n) s = .next t ∧ SameMemory s t ∧ Published s t p x st u (a ^^^ b)) ∧
    (∃ t, exec (.and d m n) s = .next t ∧ SameMemory s t ∧ Published s t p x st u (a &&& b)) ∧
    (∃ t, exec (.mult d m n) s = .next t ∧ SameMemory s t ∧
      Published s t p x st u (BitVec.ofNat 32 (a.toNat * b.toNat)))

/-- DIV publishes the quotient truncated toward zero: its magnitude is the floor of the magnitudes' quotient and its sign the
product of the signs (R205, R212). -/
def Obligations.DivideTruncatesTowardZero : Prop :=
  ∀ (s : State) (p x : Nat) (st : Station) (u : FuncUnit) (pc a b : Word) (d m n : OperandId),
    AtWriteResult s p x st u pc → st.j = .val (some a) → st.k = .val (some b) →
    b.toInt ≠ 0 → ¬ (a.toInt = -2 ^ 31 ∧ b.toInt = -1) →
    ∃ t q, exec (.div d m n) s = .next t ∧ SameMemory s t ∧ Published s t p x st u q ∧
      q.toInt.natAbs = a.toInt.natAbs / b.toInt.natAbs ∧
      (q.toInt ≠ 0 → q.toInt.sign = a.toInt.sign * b.toInt.sign)

/-- DIV faults on a zero divisor, and on the one unrepresentable quotient, and changes nothing else (R205, R309, R310). -/
def Obligations.DivideFaults : Prop :=
  ∀ (s : State) (p x : Nat) (st : Station) (u : FuncUnit) (pc a b : Word) (d m n : OperandId),
    AtWriteResult s p x st u pc → st.j = .val (some a) → st.k = .val (some b) →
    (b = 0 → ∃ t, exec (.div d m n) s = .next t ∧ RaisedOnly s t .divideByZero pc none) ∧
    (a.toInt = -2 ^ 31 → b.toInt = -1 →
      ∃ t, exec (.div d m n) s = .next t ∧ RaisedOnly s t .divideOverflow pc none)

/-- ADDI, SUBI, XORI and ANDI publish their operation on the source and the station's 32-bit immediate (R206 to R210). -/
def Obligations.IntegerImmediateResults : Prop :=
  ∀ (s : State) (p x : Nat) (st : Station) (u : FuncUnit) (pc a i : Word) (d m : OperandId),
    AtWriteResult s p x st u pc → st.j = .val (some a) →
    (∃ t, exec (.addi d m i) s = .next t ∧ SameMemory s t ∧
      Published s t p x st u (BitVec.ofNat 32 (a.toNat + st.imm.toNat))) ∧
    (∃ t, exec (.subi d m i) s = .next t ∧ SameMemory s t ∧
      Published s t p x st u (BitVec.ofInt 32 (a.toInt - st.imm.toInt))) ∧
    (∃ t, exec (.xori d m i) s = .next t ∧ SameMemory s t ∧ Published s t p x st u (a ^^^ st.imm)) ∧
    (∃ t, exec (.andi d m i) s = .next t ∧ SameMemory s t ∧ Published s t p x st u (a &&& st.imm))

/-- ADDS, SUBS, MULTS and DIVS of finite operands (DIVS by a nonzero one) publish the exact result rounded to nearest, ties to
even, subnormals kept; an exact zero sum is +0 but for two negative zeros, and the sign of a product or quotient is the
exclusive or of the signs (R230 to R234). The field layout, the overflow threshold and the sign of an exact zero sum are
details of IEEE 754 binary32 that the model presumes (log entry 15: PRESUMED, unsafe). -/
def Obligations.FloatFiniteResultsAreNearestEven : Prop :=
  ∀ (s : State) (p x : Nat) (st : Station) (u : FuncUnit) (pc a b : Word) (d m n : OperandId),
    AtWriteResult s p x st u pc → st.j = .val (some a) → st.k = .val (some b) →
    isFinite a = true → isFinite b = true →
    (∃ t v, exec (.adds d m n) s = .next t ∧ SameMemory s t ∧ Published s t p x st u v ∧
      (unitValue a + unitValue b = 0 → v = zeroWord (signBit a && signBit b)) ∧
      (unitValue a + unitValue b ≠ 0 →
        RoundedTo (decide (unitValue a + unitValue b < 0)) (unitValue a + unitValue b).natAbs 1 v)) ∧
    (∃ t v, exec (.subs d m n) s = .next t ∧ SameMemory s t ∧ Published s t p x st u v ∧
      (unitValue a - unitValue b = 0 → v = zeroWord (signBit a && !signBit b)) ∧
      (unitValue a - unitValue b ≠ 0 →
        RoundedTo (decide (unitValue a - unitValue b < 0)) (unitValue a - unitValue b).natAbs 1 v)) ∧
    (∃ t v, exec (.mults d m n) s = .next t ∧ SameMemory s t ∧ Published s t p x st u v ∧
      RoundedTo (signBit a != signBit b) (magnitude a * magnitude b) (2 ^ 149) v) ∧
    (magnitude b ≠ 0 →
      ∃ t v, exec (.divs d m n) s = .next t ∧ SameMemory s t ∧ Published s t p x st u v ∧
        RoundedTo (signBit a != signBit b) (magnitude a * 2 ^ 149) (magnitude b) v)

/-- The special operands: a NaN operand, `∞ − ∞`, `0 × ∞`, `0/0` and `∞/∞` publish a NaN encoding, whatever the free value
is; every other case with an infinity, or a division by zero, publishes an infinity or a zero of the right sign and never
faults (R230 to R235). The arithmetic of infinities and a NaN from a NaN operand are details of IEEE 754 binary32 that the
model presumes (log entry 15: PRESUMED, unsafe). -/
def Obligations.FloatSpecialResults : Prop :=
  ∀ (s : State) (p x : Nat) (st : Station) (u : FuncUnit) (pc a b : Word) (d m n : OperandId),
    AtWriteResult s p x st u pc → st.j = .val (some a) → st.k = .val (some b) →
    (isNan a = true ∨ isNan b = true → ∀ i ∈ [Instr.adds d m n, .subs d m n, .mults d m n, .divs d m n],
      ∃ t v, exec i s = .next t ∧ SameMemory s t ∧ Published s t p x st u v ∧ isNan v = true) ∧
    (isInfinite a = true → isInfinite b = true →
      (∃ t v, exec (.adds d m n) s = .next t ∧ SameMemory s t ∧ Published s t p x st u v ∧
        (signBit a = signBit b → v = a) ∧ (signBit a ≠ signBit b → isNan v = true)) ∧
      (∃ t v, exec (.subs d m n) s = .next t ∧ SameMemory s t ∧ Published s t p x st u v ∧
        (signBit a = signBit b → isNan v = true) ∧ (signBit a ≠ signBit b → v = a)) ∧
      (∃ t, exec (.mults d m n) s = .next t ∧ SameMemory s t ∧
        Published s t p x st u (infinityWord (signBit a != signBit b))) ∧
      (∃ t v, exec (.divs d m n) s = .next t ∧ SameMemory s t ∧ Published s t p x st u v ∧ isNan v = true)) ∧
    (isInfinite a = true → isFinite b = true →
      (∃ t, exec (.adds d m n) s = .next t ∧ SameMemory s t ∧ Published s t p x st u a) ∧
      (∃ t, exec (.subs d m n) s = .next t ∧ SameMemory s t ∧ Published s t p x st u a) ∧
      (∃ t v, exec (.mults d m n) s = .next t ∧ SameMemory s t ∧ Published s t p x st u v ∧
        (magnitude b = 0 → isNan v = true) ∧
        (magnitude b ≠ 0 → v = infinityWord (signBit a != signBit b))) ∧
      (∃ t, exec (.divs d m n) s = .next t ∧ SameMemory s t ∧
        Published s t p x st u (infinityWord (signBit a != signBit b)))) ∧
    (isFinite a = true → isInfinite b = true →
      (∃ t, exec (.adds d m n) s = .next t ∧ SameMemory s t ∧ Published s t p x st u b) ∧
      (∃ t, exec (.subs d m n) s = .next t ∧ SameMemory s t ∧
        Published s t p x st u (infinityWord (!signBit b))) ∧
      (∃ t v, exec (.mults d m n) s = .next t ∧ SameMemory s t ∧ Published s t p x st u v ∧
        (magnitude a = 0 → isNan v = true) ∧
        (magnitude a ≠ 0 → v = infinityWord (signBit a != signBit b))) ∧
      (∃ t, exec (.divs d m n) s = .next t ∧ SameMemory s t ∧
        Published s t p x st u (zeroWord (signBit a != signBit b)))) ∧
    (isFinite a = true → isFinite b = true → magnitude b = 0 →
      ∃ t v, exec (.divs d m n) s = .next t ∧ SameMemory s t ∧ Published s t p x st u v ∧
        (magnitude a = 0 → isNan v = true) ∧
        (magnitude a ≠ 0 → v = infinityWord (signBit a != signBit b)))

/-- R235: a NaN result is a NaN encoding, for every opcode and every pair of operands. -/
def Obligations.NanResultIsANanEncoding : Prop :=
  ∀ (op : Opcode) (a b : Word), exponentField (nanResult op a b) = 255 ∧ fractionField (nanResult op a b) ≠ 0

/-- LW and LWS publish the little-endian word at the effective address that dispatch fixed, and change no byte of memory
(R86, R88, R92, R250, R251). -/
def Obligations.LoadsPublishTheMemoryWord : Prop :=
  ∀ (s : State) (p x : Nat) (st : Station) (u : FuncUnit) (pc a i : Word) (b0 b1 b2 b3 : Byte) (d m : OperandId),
    AtWriteResult s p x st u pc → st.ea = some a → a.toNat % 4 = 0 → a.toNat + 4 ≤ s.cfg.memSize →
    s.mem.byte? a.toNat = some b0 → s.mem.byte? (a.toNat + 1) = some b1 →
    s.mem.byte? (a.toNat + 2) = some b2 → s.mem.byte? (a.toNat + 3) = some b3 →
    (∃ t, exec (.lw d m i) s = .next t ∧ SameMemory s t ∧ Published s t p x st u (b3 ++ (b2 ++ (b1 ++ b0)))) ∧
    (∃ t, exec (.lws d m i) s = .next t ∧ SameMemory s t ∧ Published s t p x st u (b3 ++ (b2 ++ (b1 ++ b0))))

/-- LW and LWS fault in the order misaligned, out of bounds, undefined byte, and change nothing else (R84 to R86, R312). -/
def Obligations.LoadFaultsInOrder : Prop :=
  ∀ (s : State) (p x : Nat) (st : Station) (u : FuncUnit) (pc a i : Word) (d m : OperandId),
    AtWriteResult s p x st u pc → st.ea = some a → ∀ ins ∈ [Instr.lw d m i, .lws d m i],
    (a.toNat % 4 ≠ 0 → ∃ t, exec ins s = .next t ∧ RaisedOnly s t .misalignedAccess pc (some a)) ∧
    (a.toNat % 4 = 0 → s.cfg.memSize < a.toNat + 4 →
      ∃ t, exec ins s = .next t ∧ RaisedOnly s t .memoryBounds pc (some a)) ∧
    (a.toNat % 4 = 0 → a.toNat + 4 ≤ s.cfg.memSize → (∃ k, k < 4 ∧ s.mem.byte? (a.toNat + k) = none) →
      ∃ t, exec ins s = .next t ∧ RaisedOnly s t .undefinedMemory pc (some a))

/-- SW and SWS store their data operand, least significant byte first, in the four bytes at the effective address that
dispatch fixed, change no other byte, and publish the stored word (R87, R88, R93, R252, R253). -/
def Obligations.StoresWriteTheirWord : Prop :=
  ∀ (s : State) (p x : Nat) (st : Station) (u : FuncUnit) (pc a v i : Word) (m n : OperandId),
    AtWriteResult s p x st u pc → st.ea = some a → st.k = .val (some v) →
    a.toNat % 4 = 0 → a.toNat + 4 ≤ s.cfg.memSize →
    (∃ t, exec (.sw m n i) s = .next t ∧ StoresWord s t a v ∧ Published s t p x st u v) ∧
    (∃ t, exec (.sws m n i) s = .next t ∧ StoresWord s t a v ∧ Published s t p x st u v)

/-- SW and SWS fault in the order undefined data, misaligned, out of bounds, and change nothing else, memory included
(R84, R85, R252, R312). -/
def Obligations.StoreFaultsInOrder : Prop :=
  ∀ (s : State) (p x : Nat) (st : Station) (u : FuncUnit) (pc a i : Word) (m n : OperandId),
    AtWriteResult s p x st u pc → st.ea = some a → ∀ ins ∈ [Instr.sw m n i, .sws m n i],
    (st.k = .val none → ∃ t, exec ins s = .next t ∧ RaisedOnly s t .undefinedOperand pc none) ∧
    ∀ v, st.k = .val (some v) →
      (a.toNat % 4 ≠ 0 → ∃ t, exec ins s = .next t ∧ RaisedOnly s t .misalignedAccess pc (some a)) ∧
      (a.toNat % 4 = 0 → s.cfg.memSize < a.toNat + 4 →
        ∃ t, exec ins s = .next t ∧ RaisedOnly s t .memoryBounds pc (some a))

/-- An undefined operand faults when it is consumed, before anything else is checked, and nothing else changes: the first
source of every instruction that computes from it, then the second (R164, R305, R312). -/
def Obligations.UndefinedOperandFaults : Prop :=
  ∀ (i : Instr) (s : State) (p x : Nat) (st : Station) (u : FuncUnit) (pc : Word),
    AtWriteResult s p x st u pc → isMemory i.opcode = false →
    ((firstSource i).isSome = true → st.j = .val none →
      ∃ t, exec i s = .next t ∧ RaisedOnly s t .undefinedOperand pc none) ∧
    ((secondSource i).isSome = true → (∃ a, st.j = .val (some a)) → st.k = .val none →
      ∃ t, exec i s = .next t ∧ RaisedOnly s t .undefinedOperand pc none)

/-- BEQZ, BNEZ, BLTZ, BGTZ, BLEZ and BGEZ publish the target when their signed condition holds and the fall-through
otherwise; JUMP publishes its target (R270 to R277). -/
def Obligations.ControlPublishesTheNextPc : Prop :=
  ∀ (s : State) (p x : Nat) (st : Station) (u : FuncUnit) (pc i : Word) (m : OperandId),
    AtWriteResult s p x st u pc →
    (∀ a, st.j = .val (some a) →
      (∃ t, exec (.beqz m i) s = .next t ∧ SameMemory s t ∧
        Published s t p x st u (if a.toInt = 0 then pc + st.imm else pc + 4)) ∧
      (∃ t, exec (.bnez m i) s = .next t ∧ SameMemory s t ∧
        Published s t p x st u (if a.toInt ≠ 0 then pc + st.imm else pc + 4)) ∧
      (∃ t, exec (.bltz m i) s = .next t ∧ SameMemory s t ∧
        Published s t p x st u (if a.toInt < 0 then pc + st.imm else pc + 4)) ∧
      (∃ t, exec (.bgtz m i) s = .next t ∧ SameMemory s t ∧
        Published s t p x st u (if 0 < a.toInt then pc + st.imm else pc + 4)) ∧
      (∃ t, exec (.blez m i) s = .next t ∧ SameMemory s t ∧
        Published s t p x st u (if a.toInt ≤ 0 then pc + st.imm else pc + 4)) ∧
      (∃ t, exec (.bgez m i) s = .next t ∧ SameMemory s t ∧
        Published s t p x st u (if 0 ≤ a.toInt then pc + st.imm else pc + 4))) ∧
    (∃ t, exec (.jump i) s = .next t ∧ SameMemory s t ∧ Published s t p x st u (pc + st.imm))

/-! ### Write-result: the phase (R162 to R169) -/

/-- Write-result handles the completing units in turn, each in the state the one before left, and then sweeps; a fault ends
it at once, without the sweep. The completing units are exactly those in use with count 0 at its start, each once, in
ascending order of the program counter they service (R142, R162, R168). -/
def Obligations.CompletionsRunOldestFirst : Prop :=
  ∀ s : State,
    (∀ x, x ∈ completingUnits s ↔ ∃ u, s.fu[x]? = some u ∧ u.inUse = true ∧ u.count = 0) ∧
    (completingUnits s).Nodup ∧
    ((completingUnits s).Pairwise fun x y => ∀ u u' pc pc', s.fu[x]? = some u → s.fu[y]? = some u' →
      u.pc = some pc → u'.pc = some pc' → pc.toNat ≤ pc'.toNat) ∧
    ∀ t, writeResultPhase s = .next t ↔ ∃ a, VisitedInTurn completeUnit (completingUnits s) s a ∧
      (a.fault.isSome = true ∧ t = a ∨ a.fault = none ∧ t = readySweep a)

/-- A completing unit runs `exec` of its station's instruction at Write-result: the unique busy station with the unit's program
counter is served, and the cursor comes to rest again. Where it is the only completing unit, the phase is this and, unless a
fault was raised, the sweep (R142, R162, R163, R168). -/
def Obligations.CompletingUnitServesItsStation : Prop :=
  ∀ (s : State) (x p : Nat) (u : FuncUnit) (st : Station), s.fu[x]? = some u → s.rs[p]? = some st →
    st.busy = true → st.pc = u.pc → (∀ q st', q ≠ p → s.rs[q]? = some st' → st'.busy = true → st'.pc ≠ u.pc) →
    completeUnit x s = serve (.writeResult p x) st.op.inFlight s ∧
    ∀ t, exec st.op.inFlight { s with serving := .writeResult p x } = .next t →
      completeUnit x s = .next { t with serving := .issue } ∧
      (completingUnits s = [x] → writeResultPhase s = .next
        (if t.fault.isSome = true then { t with serving := .issue } else readySweep { t with serving := .issue }))

/-- R166: each slot of a busy station that waits for the broadcast tag takes the value, no other slot changes, a station that
captured and waits no more is ready, and one that captured and still waits is ready only if it was. -/
def Obligations.BroadcastFillsWaitingSlots : Prop :=
  ∀ (st : Station) (r : Nat) (v : Word),
    (st.busy = false → st.capture r v = st) ∧
    (st.busy = true →
      (st.capture r v).j = (if st.j = .wait r then .val (some v) else st.j) ∧
      (st.capture r v).k = (if st.k = .wait r then .val (some v) else st.k) ∧
      (st.j = .wait r ∨ st.k = .wait r →
        (∀ t, (st.capture r v).j ≠ .wait t) → (∀ t, (st.capture r v).k ≠ .wait t) →
        (st.capture r v).ready = true) ∧
      (st.j = .wait r ∨ st.k = .wait r →
        (∃ t, (st.capture r v).j = .wait t ∨ (st.capture r v).k = .wait t) → (st.capture r v).ready = st.ready) ∧
      (¬ (st.j = .wait r ∨ st.k = .wait r) → st.capture r v = st) ∧
      st.capture r v = { st with
        j := (st.capture r v).j, k := (st.capture r v).k, ready := (st.capture r v).ready })

/-- R168: the sweep makes every busy entry that holds a value ready, and changes nothing else. -/
def Obligations.SweepReadiesEntriesWithValues : Prop :=
  ∀ s : State,
    (∀ (r : Nat) (e : RobEntry), s.rob[r]? = some e → (readySweep s).rob[r]? =
      some (if e.pc.isSome = true ∧ e.value.isSome = true then { e with ready := true } else e)) ∧
    readySweep s = { s with rob := (readySweep s).rob }

/-! ### Commit and recovery (R171 to R179, R282) -/

/-- R171, R172: Commit handles the busy entry with the least program counter, and only if it is ready, by `exec` of
its instruction at Commit; with no busy entry it does nothing. -/
def Obligations.CommitTakesTheOldestReadyEntry : Prop :=
  ∀ s : State,
    ((∀ e ∈ s.rob, e.busy = false) → commitPhase s = .next s) ∧
    ∀ r e pc, s.rob[r]? = some e → e.pc = some pc →
      (∀ q e' pc', q ≠ r → s.rob[q]? = some e' → e'.pc = some pc' → pc.toNat < pc'.toNat) →
      (commitPhase s = if e.ready = true then serve (.commit r) e.op.inFlight s else .next s) ∧
      ∀ t, e.ready = true → exec e.op.inFlight { s with serving := .commit r } = .next t →
        commitPhase s = .next { t with serving := .issue }

/-- Commit of a register-writing instruction writes its value to its destination register, in either file, and to no other;
clears the destination's alias entry only if it still names the entry; and changes nothing else but the log, the counter,
the entry and completion (R173 to R177, R179, R282). -/
def Obligations.CommitWritesTheDestination : Prop :=
  ∀ (i : Instr) (s : State) (r : Nat) (e : RobEntry) (pc v : Word) (d : OperandId), i ≠ .eop →
    isControl i.opcode = false → AtCommit s r e pc v → e.dest = .reg d →
    ∃ t, exec i s = .next t ∧ Retired s t r e pc ∧
      (∀ id, t.readReg id = if id = d then some v else s.readReg id) ∧
      (∀ id, t.ratAt id = if id = d ∧ (s.ratAt id).tag = some r then RatEntry.empty else s.ratAt id) ∧
      t.fetchPC = s.fetchPC ∧ CompletesAt s t pc

/-- Commit of a store writes no register and no memory: it only retires (R170, R174, R252, R253). -/
def Obligations.CommitOfStoreOnlyRetires : Prop :=
  ∀ (i : Instr) (s : State) (r : Nat) (e : RobEntry) (pc v : Word), isStore i.opcode = true → AtCommit s r e pc v →
    e.dest = .store →
    ∃ t, exec i s = .next t ∧ Retired s t r e pc ∧ SameRegisters s t ∧ SameRat s t ∧ t.fetchPC = s.fetchPC ∧
      CompletesAt s t pc

/-- Commit of a control instruction whose value is its fall-through only retires: nothing is flushed, and completion is
checked (R173, R178, R179). -/
def Obligations.CorrectControlOnlyRetires : Prop :=
  ∀ (i : Instr) (s : State) (r : Nat) (e : RobEntry) (pc v : Word), isControl i.opcode = true →
    AtCommit s r e pc v → e.dest = .noDest → v = pc + 4 →
    ∃ t, exec i s = .next t ∧ Retired s t r e pc ∧ SameRegisters s t ∧ SameRat s t ∧ t.fetchPC = s.fetchPC ∧
      CompletesAt s t pc

/-- Commit of a mispredicted control instruction retires it, flushes everything in flight, logs the flushed program counters
in ascending order, redirects fetch to its value, and leaves registers, memory and completion as they are
(R75, R173, R176, R178, R184). -/
def Obligations.MispredictionFlushesEverything : Prop :=
  ∀ (i : Instr) (s : State) (r : Nat) (e : RobEntry) (pc v : Word), isControl i.opcode = true →
    AtCommit s r e pc v → e.dest = .noDest → v ≠ pc + 4 →
    ∃ t squashed, exec i s = .next t ∧ Flushed t ∧ t.fetchPC = v ∧ t.robTail = 0 ∧
      t.squashLog = s.squashLog ++ [{ branchPc := pc, target := v, squashed := squashed }] ∧
      squashed.Pairwise (fun w w' => w.toNat ≤ w'.toNat) ∧ squashed.length + 1 = s.busyEntries ∧
      (∀ w, w ∈ squashed ↔ ∃ q e', q ≠ r ∧ s.rob[q]? = some e' ∧ e'.pc = some w) ∧
      t.retLog = s.retLog ++ [(pc, e.op)] ∧ t.retired = s.retired + 1 ∧
      SameRegisters s t ∧ SameMemory s t ∧ t.cycles = s.cycles ∧ t.done = s.done ∧ t.fault = s.fault ∧
      t.rob.length = s.rob.length ∧ t.rs.length = s.rs.length ∧ t.fu.length = s.fu.length ∧ SameParameters s t

/-! ### End of cycle (R180) -/

/-- R180: every busy station that is not executing is ready exactly when neither slot waits; nothing else changes. -/
def Obligations.EndOfCycleRecomputesReady : Prop :=
  ∀ s : State,
    (∀ (q : Nat) (st : Station), s.rs[q]? = some st → ∃ st' : Station, (endOfCycle s).rs[q]? = some st' ∧
      st' = { st with ready := st'.ready } ∧
      (st.pc.isSome = true → st.executing = false →
        (st'.ready = true ↔ (∀ t, st.j ≠ .wait t) ∧ ∀ t, st.k ≠ .wait t)) ∧
      (st.pc = none ∨ st.executing = true → st' = st)) ∧
    endOfCycle s = { s with rs := (endOfCycle s).rs }

/-! ### Over all instructions -/

/-- After Issue an instruction acts by its opcode alone: its operands, immediate and destination are those its station and
entry hold (R118, R122). -/
def Obligations.LaterStagesDependOnTheOpcodeAlone : Prop :=
  ∀ (i : Instr) (s : State), s.serving ≠ .issue → exec i s = exec i.opcode.inFlight s

/-! ### Over every step -/

/-- Every step keeps the shape of the block (R41, R54, R66, R67, R80, R320, R340). -/
def Obligations.StepKeepsShape : Prop :=
  ∀ s t : State, Shape s → step s = .next t → Shape t

/-- A constructed block has the shape, and `State.reset` is one (R73, R340); the latter's configuration is the model's choice
(log entry 1). -/
def Obligations.ConstructionHasShape : Prop :=
  (∀ c s, construct c = .ok s → Shape s) ∧ Shape State.reset

/-- Every step that raises no fault keeps tags sound (R44, R45, R50, R61, R183). -/
def Obligations.StepKeepsTagsSound : Prop :=
  ∀ s t : State, TagSound s → step s = .next t → t.fault = none → TagSound t

/-- Tags are sound in a constructed block and at `State.reset`; the latter's configuration is the model's choice (log
entry 1). -/
def Obligations.ConstructionIsTagSound : Prop :=
  (∀ c s, construct c = .ok s → TagSound s) ∧ TagSound State.reset

/-- A coherent block always answers a next state, coherent again unless a fault was raised: the situations that the spec calls
unreachable are (R42, R57, R163, R164, R183, R186). -/
def Obligations.CoherentBlockNeverStops : Prop :=
  ∀ s : State, Coherent s → ∃ t, step s = .next t ∧ (t.fault = none → Coherent t)

/-- A block is coherent after construction and a successful load, and stays so when the host writes registers and memory
(R34, R89, R343). -/
def Obligations.LoadedBlockIsCoherent : Prop :=
  (∀ c s words base t, construct c = .ok s → loadProgram words base s = .ok t → Coherent t) ∧
  (∀ id v s t, Coherent s → hostWriteReg id v s = .ok t → Coherent t) ∧
  ∀ a v s t, Coherent s → hostWriteMem a v s = .ok t → Coherent t

/-- A step changes registers only by retiring an instruction, and then at most one register (R33, R170, R171, R174). -/
def Obligations.StepWritesAtMostOneRegister : Prop :=
  ∀ s t : State, step s = .next t →
    SameRegisters s t ∨
    (t.retired = s.retired + 1 ∧ ∃ d v, ∀ id, t.readReg id = if id = d then some v else s.readReg id)

/-- A step that begins with no store in a busy station leaves every byte of memory as it was: no other instruction writes memory, and a
store that issues in this step does not write yet (R82, R93). -/
def Obligations.OnlyStoresWriteMemory : Prop :=
  ∀ s t : State, (∀ st ∈ s.rs, st.busy = true → isStore st.op = false) → step s = .next t → SameMemory s t

/-- The fetch address moves only by whole instructions issued, at most the issue width, or by the redirect of one flush to
its target. Without a flush the number of instructions issued is the number of entries allocated: the tail moves by it, and
in a block of the right shape the busy entries and the retired instructions together grow by it; a flush leaves none busy and
the tail at 0 (R36, R41, R150, R178). -/
def Obligations.FetchMovesByIssueOrRedirect : Prop :=
  ∀ s t : State, step s = .next t →
    (t.squashLog = s.squashLog ∧ ∃ n, n ≤ s.cfg.issueWidth ∧ t.fetchPC = s.fetchPC + BitVec.ofNat 32 (4 * n) ∧
      (s.robTail < s.cfg.robDepth → t.robTail = (s.robTail + n) % s.cfg.robDepth) ∧
      (Shape s → t.busyEntries + t.retired = s.busyEntries + s.retired + n)) ∨
    ∃ q, t.squashLog = s.squashLog ++ [q] ∧ t.fetchPC = q.target ∧ t.robTail = 0 ∧ t.busyEntries = 0

/-- Every cycle that runs is counted once, the faulting and the completing ones included, retires at most one instruction, and
logs it; configuration and program never change (R65, R66, R67, R99, R171, R340). -/
def Obligations.StepCountsCyclesAndRetirements : Prop :=
  ∀ s t : State, Running s → step s = .next t →
    t.cycles = s.cycles + 1 ∧ t.cfg = s.cfg ∧ t.prog = s.prog ∧
    (t.retired = s.retired ∧ t.retLog = s.retLog ∨
      ∃ pc op, t.retired = s.retired + 1 ∧ t.retLog = s.retLog ++ [(pc, op)])

/-! ### Host operations (R34, R89, R345) -/

/-- R34: an identifier above 63 is refused; the accessors read the register and its pending producer; a write is read back,
changes no other register, no alias entry and nothing else. -/
def Obligations.RegisterAccessors : Prop :=
  ∀ (s : State) (n : Nat) (v : Word),
    (64 ≤ n → hostReadReg n s = .error (.badAccessor n) ∧ hostWriteReg n v s = .error (.badAccessor n) ∧
      hostReadTag n s = .error (.badAccessor n)) ∧
    (n < 64 → hostReadReg n s = .ok (s.readReg (BitVec.ofNat 6 n)) ∧
      hostReadTag n s = .ok (s.ratAt (BitVec.ofNat 6 n)).tag ∧
      ∃ t, hostWriteReg n v s = .ok t ∧ hostReadReg n t = .ok (some v) ∧
        (∀ k, k < 64 → k ≠ n → hostReadReg k t = hostReadReg k s) ∧ SameRat s t ∧
        t = { s with r := t.r, f := t.f })

/-- R89: a misaligned or out-of-range address is refused; a word is read little-endian, undefined where one of its bytes is; a
word written is read back, and no other byte changes. -/
def Obligations.MemoryAccessors : Prop :=
  ∀ (s : State) (a v : Word),
    (a.toNat % 4 ≠ 0 ∨ s.cfg.memSize < a.toNat + 4 →
      hostReadMem a s = .error (.badAccessor a.toNat) ∧ hostWriteMem a v s = .error (.badAccessor a.toNat)) ∧
    (a.toNat % 4 = 0 → a.toNat + 4 ≤ s.cfg.memSize →
      ((∃ k, k < 4 ∧ s.mem.byte? (a.toNat + k) = none) → hostReadMem a s = .ok none) ∧
      (∀ b0 b1 b2 b3, s.mem.byte? a.toNat = some b0 → s.mem.byte? (a.toNat + 1) = some b1 →
        s.mem.byte? (a.toNat + 2) = some b2 → s.mem.byte? (a.toNat + 3) = some b3 →
        hostReadMem a s = .ok (some (b3 ++ (b2 ++ (b1 ++ b0))))) ∧
      ∃ t, hostWriteMem a v s = .ok t ∧ hostReadMem a t = .ok (some v) ∧ StoresWord s t a v ∧
        t = { s with mem := t.mem })

/-- `run` refuses without a program and leaves a stopped block as it is. With `n > 0` a coherent block has exactly one
answer: the state at most `n` cycles on, exactly `n` unless it ended completed or faulted, each cycle counted. `run(0)`
returns what `run(m)` returns for any budget `m` that reaches completion or a fault, and else nothing. Successive calls
continue the same run (R301, R345, R346; a call of `run` as a relation is log entry 13). -/
def Obligations.RunAnswersWithinItsBudget : Prop :=
  (∀ n s answer, s.prog = none → (RunReturns n s answer ↔ answer = .error .noProgram)) ∧
  (∀ n s answer, s.prog.isSome = true → s.stopped = true → (RunReturns n s answer ↔ answer = .ok (s.status, s))) ∧
  (∀ n s, Coherent s → 0 < n → ∃ t m, (∀ answer, RunReturns n s answer ↔ answer = .ok (t.status, t)) ∧
    m ≤ n ∧ t.cycles = s.cycles + m ∧ (m = n ∨ t.stopped = true) ∧ (t.fault = none → Coherent t)) ∧
  (∀ s answer, s.prog.isSome = true → (RunReturns 0 s answer ↔
    ∃ m x t, 0 < m ∧ RunReturns m s (.ok (x, t)) ∧ t.stopped = true ∧ answer = .ok (x, t))) ∧
  ∀ m n s x t answer, 0 < m → 0 < n → RunReturns m s (.ok (x, t)) →
    (RunReturns (m + n) s answer ↔ RunReturns n t answer)
end

