-- ==== Sys2Proof/Laws/Memory.lean ====
section
/-! SUPPORT. Data memory: a byte read after a write, the canonical form kept by every write, and what the checked
accesses can answer. -/

namespace Sys2Proof.Machine

/-- One write: the byte written, every other byte unchanged. -/
theorem byte?_setByte (m : Memory) (a : Nat) (v : Byte) (b : Nat) :
    (m.setByte a v).byte? b = if b = a then some v else m.byte? b := by
  induction m with
  | nil =>
    by_cases h : b = a
    · simp [Memory.setByte, Memory.byte?, h]
    · have : (b == a) = false := by simpa using h
      simp [Memory.setByte, Memory.byte?, List.lookup, h, this]
  | cons c m ih =>
    obtain ⟨k, w⟩ := c
    unfold Memory.setByte
    simp only [Memory.byte?] at ih ⊢
    split
    · by_cases h : b = a
      · simp [h, List.lookup]
      · have : (b == a) = false := by simpa using h
        simp [List.lookup_cons, this, h]
    · split
      · rename_i hk hak
        subst hak
        by_cases h : b = a
        · simp [h]
        · have : (b == a) = false := by simpa using h
          simp [List.lookup_cons, this, h]
      · rename_i hk hak
        by_cases hb : b = k
        · subst hb
          have : b ≠ a := fun h => hak h.symm
          simp [this]
        · have : (b == k) = false := by simpa using hb
          simp only [List.lookup_cons, this]
          exact ih

/-- The addresses listed after a write are those listed before and the one written. -/
theorem mem_setByte {m : Memory} {a : Nat} {v : Byte} {c : Host.Cell} (h : c ∈ m.setByte a v) :
    c = (a, v) ∨ c ∈ m := by
  induction m with
  | nil => simpa [Memory.setByte] using h
  | cons d m ih =>
    obtain ⟨k, w⟩ := d
    unfold Memory.setByte at h
    split at h
    · simpa using h
    · split at h
      · rcases List.mem_cons.1 h with h | h
        · exact .inl h
        · exact .inr (List.mem_cons_of_mem _ h)
      · rcases List.mem_cons.1 h with h | h
        · exact .inr (by simp [h])
        · rcases ih h with h | h
          · exact .inl h
          · exact .inr (List.mem_cons_of_mem _ h)

/-- A write keeps the canonical form. -/
theorem wf_setByte {m : Memory} (h : m.wf) (a : Nat) (v : Byte) : (m.setByte a v).wf := by
  induction m with
  | nil => simp [Memory.setByte, Memory.wf]
  | cons d m ih =>
    obtain ⟨k, w⟩ := d
    have hm := List.pairwise_cons.1 h
    unfold Memory.setByte
    split
    · rename_i hlt
      refine List.pairwise_cons.2 ⟨fun c hc => ?_, h⟩
      rcases List.mem_cons.1 hc with rfl | hc
      · exact hlt
      · exact Nat.lt_trans hlt (hm.1 c hc)
    · split
      · rename_i _ heq
        subst heq
        exact List.pairwise_cons.2 ⟨fun c hc => hm.1 c hc, hm.2⟩
      · rename_i hnlt hne
        refine List.pairwise_cons.2 ⟨fun c hc => ?_, ih hm.2⟩
        rcases mem_setByte hc with rfl | hc
        · show k < a; omega
        · exact hm.1 c hc

/-- A word write changes its four bytes and no other. -/
theorem byte?_setWord (m : Memory) (a : Nat) (v : Word) (b : Nat) :
    (m.setWord a v).byte? b =
      if b = a + 3 then some (v.extractLsb' 24 8)
      else if b = a + 2 then some (v.extractLsb' 16 8)
      else if b = a + 1 then some (v.extractLsb' 8 8)
      else if b = a then some (v.extractLsb' 0 8)
      else m.byte? b := by
  simp only [Memory.setWord, byte?_setByte]

/-- A word write keeps the canonical form. -/
theorem wf_setWord {m : Memory} (h : m.wf) (a : Nat) (v : Word) : (m.setWord a v).wf :=
  wf_setByte (wf_setByte (wf_setByte (wf_setByte h _ _) _ _) _ _) _ _

/-- The addresses listed after a word write are those listed before and the four written. -/
theorem mem_setWord {m : Memory} {a : Nat} {v : Word} {c : Host.Cell} (h : c ∈ m.setWord a v) :
    (a ≤ c.1 ∧ c.1 < a + 4) ∨ c ∈ m := by
  rcases mem_setByte h with rfl | h
  · left; constructor <;> simp
  rcases mem_setByte h with rfl | h
  · left; constructor <;> simp
  rcases mem_setByte h with rfl | h
  · left; constructor <;> simp
  rcases mem_setByte h with rfl | h
  · left; constructor <;> simp
  · exact .inr h

/-- A word read gives a value exactly when its four bytes do. -/
theorem word?_eq_some {m : Memory} {a : Nat} {v : Word} :
    m.word? a = some v ↔ ∃ b0 b1 b2 b3, m.byte? a = some b0 ∧ m.byte? (a + 1) = some b1 ∧
      m.byte? (a + 2) = some b2 ∧ m.byte? (a + 3) = some b3 ∧ v = b3 ++ (b2 ++ (b1 ++ b0)) := by
  unfold Memory.word?
  constructor
  · intro h
    split at h
    · rename_i b0 b1 b2 b3 h0 h1 h2 h3
      exact ⟨b0, b1, b2, b3, h0, h1, h2, h3, (Option.some.inj h).symm⟩
    · simp at h
  · rintro ⟨b0, b1, b2, b3, h0, h1, h2, h3, rfl⟩
    simp [h0, h1, h2, h3]

/-- The reset memory has the canonical form. -/
theorem wf_reset : State.reset.mem.wf := List.Pairwise.nil

/-- A checked read leaves memory as it is. -/
theorem memRead_value {s : State} {a v : Word} {m : Memory} (h : memRead s a = .value v m) :
    m = s.mem ∧ aligned a = true ∧ inBounds s.cfg.memSize a = true ∧ s.mem.word? a.toNat = some v := by
  unfold memRead at h
  split at h
  · simp at h
  · split at h
    · simp at h
    · split at h <;> simp_all

/-- A checked write answers the word it stored, inside the memory. -/
theorem memWrite_value {s : State} {a d v : Word} {m : Memory} (h : memWrite s a d = .value v m) :
    v = d ∧ m = s.mem.setWord a.toNat d ∧ aligned a = true ∧ inBounds s.cfg.memSize a = true := by
  unfold memWrite at h
  split at h
  · simp at h
  · split at h
    · simp at h
    · simp only [Computed.value.injEq] at h
      obtain ⟨rfl, rfl⟩ := h
      simp_all

/-- An operand that gives a value was resolved to a word. -/
theorem withOperand_value {slot : Slot} {k : Word → Computed} {v : Word} {m : Memory}
    (h : withOperand slot k = .value v m) : ∃ x, slot = .val (some x) ∧ k x = .value v m := by
  unfold withOperand at h
  split at h <;> simp_all

end Sys2Proof.Machine
end

