-- ==== Sys2Proof/Laws/State.lean ====
section
/-! SUPPORT. The small lemmas of the state's updates: one per field and update, so that no later proof unfolds a record
update. -/

namespace Sys2Proof.Machine

variable (s : State)

/-! ### `State.setRat` -/

@[simp] theorem State.setRat_cfg (id : OperandId) (e : RatEntry) : (s.setRat id e).cfg = s.cfg := rfl
@[simp] theorem State.setRat_prog (id : OperandId) (e : RatEntry) : (s.setRat id e).prog = s.prog := rfl
@[simp] theorem State.setRat_r (id : OperandId) (e : RatEntry) : (s.setRat id e).r = s.r := rfl
@[simp] theorem State.setRat_f (id : OperandId) (e : RatEntry) : (s.setRat id e).f = s.f := rfl
@[simp] theorem State.setRat_fetchPC (id : OperandId) (e : RatEntry) : (s.setRat id e).fetchPC = s.fetchPC := rfl
@[simp] theorem State.setRat_rob (id : OperandId) (e : RatEntry) : (s.setRat id e).rob = s.rob := rfl
@[simp] theorem State.setRat_robTail (id : OperandId) (e : RatEntry) : (s.setRat id e).robTail = s.robTail := rfl
@[simp] theorem State.setRat_rs (id : OperandId) (e : RatEntry) : (s.setRat id e).rs = s.rs := rfl
@[simp] theorem State.setRat_fu (id : OperandId) (e : RatEntry) : (s.setRat id e).fu = s.fu := rfl
@[simp] theorem State.setRat_rat (id : OperandId) (e : RatEntry) : (s.setRat id e).rat = s.rat.set id.toNat e id.isLt := rfl
@[simp] theorem State.setRat_mem (id : OperandId) (e : RatEntry) : (s.setRat id e).mem = s.mem := rfl
@[simp] theorem State.setRat_cycles (id : OperandId) (e : RatEntry) : (s.setRat id e).cycles = s.cycles := rfl
@[simp] theorem State.setRat_retired (id : OperandId) (e : RatEntry) : (s.setRat id e).retired = s.retired := rfl
@[simp] theorem State.setRat_retLog (id : OperandId) (e : RatEntry) : (s.setRat id e).retLog = s.retLog := rfl
@[simp] theorem State.setRat_squashLog (id : OperandId) (e : RatEntry) : (s.setRat id e).squashLog = s.squashLog := rfl
@[simp] theorem State.setRat_done (id : OperandId) (e : RatEntry) : (s.setRat id e).done = s.done := rfl
@[simp] theorem State.setRat_fault (id : OperandId) (e : RatEntry) : (s.setRat id e).fault = s.fault := rfl
@[simp] theorem State.setRat_serving (id : OperandId) (e : RatEntry) : (s.setRat id e).serving = s.serving := rfl
@[simp] theorem State.setRat_robAt (id : OperandId) (e : RatEntry) (r' : Nat) : (s.setRat id e).robAt r' = s.robAt r' := rfl
@[simp] theorem State.setRat_readReg (id : OperandId) (e : RatEntry) (id' : OperandId) : (s.setRat id e).readReg id' = s.readReg id' := rfl
@[simp] theorem State.setRat_fetch (id : OperandId) (e : RatEntry) : (s.setRat id e).fetch = s.fetch := rfl

/-! ### `State.setRob` -/

@[simp] theorem State.setRob_cfg (r : Nat) (e : RobEntry) : (s.setRob r e).cfg = s.cfg := rfl
@[simp] theorem State.setRob_prog (r : Nat) (e : RobEntry) : (s.setRob r e).prog = s.prog := rfl
@[simp] theorem State.setRob_r (r : Nat) (e : RobEntry) : (s.setRob r e).r = s.r := rfl
@[simp] theorem State.setRob_f (r : Nat) (e : RobEntry) : (s.setRob r e).f = s.f := rfl
@[simp] theorem State.setRob_fetchPC (r : Nat) (e : RobEntry) : (s.setRob r e).fetchPC = s.fetchPC := rfl
@[simp] theorem State.setRob_rob (r : Nat) (e : RobEntry) : (s.setRob r e).rob = s.rob.set r e := rfl
@[simp] theorem State.setRob_robTail (r : Nat) (e : RobEntry) : (s.setRob r e).robTail = s.robTail := rfl
@[simp] theorem State.setRob_rs (r : Nat) (e : RobEntry) : (s.setRob r e).rs = s.rs := rfl
@[simp] theorem State.setRob_fu (r : Nat) (e : RobEntry) : (s.setRob r e).fu = s.fu := rfl
@[simp] theorem State.setRob_rat (r : Nat) (e : RobEntry) : (s.setRob r e).rat = s.rat := rfl
@[simp] theorem State.setRob_mem (r : Nat) (e : RobEntry) : (s.setRob r e).mem = s.mem := rfl
@[simp] theorem State.setRob_cycles (r : Nat) (e : RobEntry) : (s.setRob r e).cycles = s.cycles := rfl
@[simp] theorem State.setRob_retired (r : Nat) (e : RobEntry) : (s.setRob r e).retired = s.retired := rfl
@[simp] theorem State.setRob_retLog (r : Nat) (e : RobEntry) : (s.setRob r e).retLog = s.retLog := rfl
@[simp] theorem State.setRob_squashLog (r : Nat) (e : RobEntry) : (s.setRob r e).squashLog = s.squashLog := rfl
@[simp] theorem State.setRob_done (r : Nat) (e : RobEntry) : (s.setRob r e).done = s.done := rfl
@[simp] theorem State.setRob_fault (r : Nat) (e : RobEntry) : (s.setRob r e).fault = s.fault := rfl
@[simp] theorem State.setRob_serving (r : Nat) (e : RobEntry) : (s.setRob r e).serving = s.serving := rfl
@[simp] theorem State.setRob_ratAt (r : Nat) (e : RobEntry) (id' : OperandId) : (s.setRob r e).ratAt id' = s.ratAt id' := rfl
@[simp] theorem State.setRob_readReg (r : Nat) (e : RobEntry) (id' : OperandId) : (s.setRob r e).readReg id' = s.readReg id' := rfl
@[simp] theorem State.setRob_fetch (r : Nat) (e : RobEntry) : (s.setRob r e).fetch = s.fetch := rfl

/-! ### `State.setStation` -/

@[simp] theorem State.setStation_cfg (p : Nat) (st : Station) : (s.setStation p st).cfg = s.cfg := rfl
@[simp] theorem State.setStation_prog (p : Nat) (st : Station) : (s.setStation p st).prog = s.prog := rfl
@[simp] theorem State.setStation_r (p : Nat) (st : Station) : (s.setStation p st).r = s.r := rfl
@[simp] theorem State.setStation_f (p : Nat) (st : Station) : (s.setStation p st).f = s.f := rfl
@[simp] theorem State.setStation_fetchPC (p : Nat) (st : Station) : (s.setStation p st).fetchPC = s.fetchPC := rfl
@[simp] theorem State.setStation_rob (p : Nat) (st : Station) : (s.setStation p st).rob = s.rob := rfl
@[simp] theorem State.setStation_robTail (p : Nat) (st : Station) : (s.setStation p st).robTail = s.robTail := rfl
@[simp] theorem State.setStation_rs (p : Nat) (st : Station) : (s.setStation p st).rs = s.rs.set p st := rfl
@[simp] theorem State.setStation_fu (p : Nat) (st : Station) : (s.setStation p st).fu = s.fu := rfl
@[simp] theorem State.setStation_rat (p : Nat) (st : Station) : (s.setStation p st).rat = s.rat := rfl
@[simp] theorem State.setStation_mem (p : Nat) (st : Station) : (s.setStation p st).mem = s.mem := rfl
@[simp] theorem State.setStation_cycles (p : Nat) (st : Station) : (s.setStation p st).cycles = s.cycles := rfl
@[simp] theorem State.setStation_retired (p : Nat) (st : Station) : (s.setStation p st).retired = s.retired := rfl
@[simp] theorem State.setStation_retLog (p : Nat) (st : Station) : (s.setStation p st).retLog = s.retLog := rfl
@[simp] theorem State.setStation_squashLog (p : Nat) (st : Station) : (s.setStation p st).squashLog = s.squashLog := rfl
@[simp] theorem State.setStation_done (p : Nat) (st : Station) : (s.setStation p st).done = s.done := rfl
@[simp] theorem State.setStation_fault (p : Nat) (st : Station) : (s.setStation p st).fault = s.fault := rfl
@[simp] theorem State.setStation_serving (p : Nat) (st : Station) : (s.setStation p st).serving = s.serving := rfl
@[simp] theorem State.setStation_ratAt (p : Nat) (st : Station) (id' : OperandId) : (s.setStation p st).ratAt id' = s.ratAt id' := rfl
@[simp] theorem State.setStation_robAt (p : Nat) (st : Station) (r' : Nat) : (s.setStation p st).robAt r' = s.robAt r' := rfl
@[simp] theorem State.setStation_readReg (p : Nat) (st : Station) (id' : OperandId) : (s.setStation p st).readReg id' = s.readReg id' := rfl
@[simp] theorem State.setStation_fetch (p : Nat) (st : Station) : (s.setStation p st).fetch = s.fetch := rfl

/-! ### `State.setUnit` -/

@[simp] theorem State.setUnit_cfg (x : Nat) (u : FuncUnit) : (s.setUnit x u).cfg = s.cfg := rfl
@[simp] theorem State.setUnit_prog (x : Nat) (u : FuncUnit) : (s.setUnit x u).prog = s.prog := rfl
@[simp] theorem State.setUnit_r (x : Nat) (u : FuncUnit) : (s.setUnit x u).r = s.r := rfl
@[simp] theorem State.setUnit_f (x : Nat) (u : FuncUnit) : (s.setUnit x u).f = s.f := rfl
@[simp] theorem State.setUnit_fetchPC (x : Nat) (u : FuncUnit) : (s.setUnit x u).fetchPC = s.fetchPC := rfl
@[simp] theorem State.setUnit_rob (x : Nat) (u : FuncUnit) : (s.setUnit x u).rob = s.rob := rfl
@[simp] theorem State.setUnit_robTail (x : Nat) (u : FuncUnit) : (s.setUnit x u).robTail = s.robTail := rfl
@[simp] theorem State.setUnit_rs (x : Nat) (u : FuncUnit) : (s.setUnit x u).rs = s.rs := rfl
@[simp] theorem State.setUnit_fu (x : Nat) (u : FuncUnit) : (s.setUnit x u).fu = s.fu.set x u := rfl
@[simp] theorem State.setUnit_rat (x : Nat) (u : FuncUnit) : (s.setUnit x u).rat = s.rat := rfl
@[simp] theorem State.setUnit_mem (x : Nat) (u : FuncUnit) : (s.setUnit x u).mem = s.mem := rfl
@[simp] theorem State.setUnit_cycles (x : Nat) (u : FuncUnit) : (s.setUnit x u).cycles = s.cycles := rfl
@[simp] theorem State.setUnit_retired (x : Nat) (u : FuncUnit) : (s.setUnit x u).retired = s.retired := rfl
@[simp] theorem State.setUnit_retLog (x : Nat) (u : FuncUnit) : (s.setUnit x u).retLog = s.retLog := rfl
@[simp] theorem State.setUnit_squashLog (x : Nat) (u : FuncUnit) : (s.setUnit x u).squashLog = s.squashLog := rfl
@[simp] theorem State.setUnit_done (x : Nat) (u : FuncUnit) : (s.setUnit x u).done = s.done := rfl
@[simp] theorem State.setUnit_fault (x : Nat) (u : FuncUnit) : (s.setUnit x u).fault = s.fault := rfl
@[simp] theorem State.setUnit_serving (x : Nat) (u : FuncUnit) : (s.setUnit x u).serving = s.serving := rfl
@[simp] theorem State.setUnit_ratAt (x : Nat) (u : FuncUnit) (id' : OperandId) : (s.setUnit x u).ratAt id' = s.ratAt id' := rfl
@[simp] theorem State.setUnit_robAt (x : Nat) (u : FuncUnit) (r' : Nat) : (s.setUnit x u).robAt r' = s.robAt r' := rfl
@[simp] theorem State.setUnit_readReg (x : Nat) (u : FuncUnit) (id' : OperandId) : (s.setUnit x u).readReg id' = s.readReg id' := rfl
@[simp] theorem State.setUnit_fetch (x : Nat) (u : FuncUnit) : (s.setUnit x u).fetch = s.fetch := rfl

/-! ### `State.broadcast` -/

@[simp] theorem State.broadcast_cfg (t : Nat) (v : Word) : (s.broadcast t v).cfg = s.cfg := rfl
@[simp] theorem State.broadcast_prog (t : Nat) (v : Word) : (s.broadcast t v).prog = s.prog := rfl
@[simp] theorem State.broadcast_r (t : Nat) (v : Word) : (s.broadcast t v).r = s.r := rfl
@[simp] theorem State.broadcast_f (t : Nat) (v : Word) : (s.broadcast t v).f = s.f := rfl
@[simp] theorem State.broadcast_fetchPC (t : Nat) (v : Word) : (s.broadcast t v).fetchPC = s.fetchPC := rfl
@[simp] theorem State.broadcast_rob (t : Nat) (v : Word) : (s.broadcast t v).rob = s.rob := rfl
@[simp] theorem State.broadcast_robTail (t : Nat) (v : Word) : (s.broadcast t v).robTail = s.robTail := rfl
@[simp] theorem State.broadcast_rs (t : Nat) (v : Word) : (s.broadcast t v).rs = s.rs.map (Station.capture t v) := rfl
@[simp] theorem State.broadcast_fu (t : Nat) (v : Word) : (s.broadcast t v).fu = s.fu := rfl
@[simp] theorem State.broadcast_rat (t : Nat) (v : Word) : (s.broadcast t v).rat = s.rat := rfl
@[simp] theorem State.broadcast_mem (t : Nat) (v : Word) : (s.broadcast t v).mem = s.mem := rfl
@[simp] theorem State.broadcast_cycles (t : Nat) (v : Word) : (s.broadcast t v).cycles = s.cycles := rfl
@[simp] theorem State.broadcast_retired (t : Nat) (v : Word) : (s.broadcast t v).retired = s.retired := rfl
@[simp] theorem State.broadcast_retLog (t : Nat) (v : Word) : (s.broadcast t v).retLog = s.retLog := rfl
@[simp] theorem State.broadcast_squashLog (t : Nat) (v : Word) : (s.broadcast t v).squashLog = s.squashLog := rfl
@[simp] theorem State.broadcast_done (t : Nat) (v : Word) : (s.broadcast t v).done = s.done := rfl
@[simp] theorem State.broadcast_fault (t : Nat) (v : Word) : (s.broadcast t v).fault = s.fault := rfl
@[simp] theorem State.broadcast_serving (t : Nat) (v : Word) : (s.broadcast t v).serving = s.serving := rfl
@[simp] theorem State.broadcast_ratAt (t : Nat) (v : Word) (id' : OperandId) : (s.broadcast t v).ratAt id' = s.ratAt id' := rfl
@[simp] theorem State.broadcast_robAt (t : Nat) (v : Word) (r' : Nat) : (s.broadcast t v).robAt r' = s.robAt r' := rfl
@[simp] theorem State.broadcast_readReg (t : Nat) (v : Word) (id' : OperandId) : (s.broadcast t v).readReg id' = s.readReg id' := rfl
@[simp] theorem State.broadcast_fetch (t : Nat) (v : Word) : (s.broadcast t v).fetch = s.fetch := rfl

/-! ### `State.writeReg` -/

@[simp] theorem State.writeReg_cfg (id : OperandId) (v : Word) : (s.writeReg id v).cfg = s.cfg := by
  unfold State.writeReg; split <;> rfl
@[simp] theorem State.writeReg_prog (id : OperandId) (v : Word) : (s.writeReg id v).prog = s.prog := by
  unfold State.writeReg; split <;> rfl
@[simp] theorem State.writeReg_fetchPC (id : OperandId) (v : Word) : (s.writeReg id v).fetchPC = s.fetchPC := by
  unfold State.writeReg; split <;> rfl
@[simp] theorem State.writeReg_rob (id : OperandId) (v : Word) : (s.writeReg id v).rob = s.rob := by
  unfold State.writeReg; split <;> rfl
@[simp] theorem State.writeReg_robTail (id : OperandId) (v : Word) : (s.writeReg id v).robTail = s.robTail := by
  unfold State.writeReg; split <;> rfl
@[simp] theorem State.writeReg_rs (id : OperandId) (v : Word) : (s.writeReg id v).rs = s.rs := by
  unfold State.writeReg; split <;> rfl
@[simp] theorem State.writeReg_fu (id : OperandId) (v : Word) : (s.writeReg id v).fu = s.fu := by
  unfold State.writeReg; split <;> rfl
@[simp] theorem State.writeReg_rat (id : OperandId) (v : Word) : (s.writeReg id v).rat = s.rat := by
  unfold State.writeReg; split <;> rfl
@[simp] theorem State.writeReg_mem (id : OperandId) (v : Word) : (s.writeReg id v).mem = s.mem := by
  unfold State.writeReg; split <;> rfl
@[simp] theorem State.writeReg_cycles (id : OperandId) (v : Word) : (s.writeReg id v).cycles = s.cycles := by
  unfold State.writeReg; split <;> rfl
@[simp] theorem State.writeReg_retired (id : OperandId) (v : Word) : (s.writeReg id v).retired = s.retired := by
  unfold State.writeReg; split <;> rfl
@[simp] theorem State.writeReg_retLog (id : OperandId) (v : Word) : (s.writeReg id v).retLog = s.retLog := by
  unfold State.writeReg; split <;> rfl
@[simp] theorem State.writeReg_squashLog (id : OperandId) (v : Word) : (s.writeReg id v).squashLog = s.squashLog := by
  unfold State.writeReg; split <;> rfl
@[simp] theorem State.writeReg_done (id : OperandId) (v : Word) : (s.writeReg id v).done = s.done := by
  unfold State.writeReg; split <;> rfl
@[simp] theorem State.writeReg_fault (id : OperandId) (v : Word) : (s.writeReg id v).fault = s.fault := by
  unfold State.writeReg; split <;> rfl
@[simp] theorem State.writeReg_serving (id : OperandId) (v : Word) : (s.writeReg id v).serving = s.serving := by
  unfold State.writeReg; split <;> rfl
@[simp] theorem State.writeReg_ratAt (id : OperandId) (v : Word) (id' : OperandId) : (s.writeReg id v).ratAt id' = s.ratAt id' := by
  unfold State.writeReg; split <;> rfl
@[simp] theorem State.writeReg_robAt (id : OperandId) (v : Word) (r' : Nat) : (s.writeReg id v).robAt r' = s.robAt r' := by
  unfold State.writeReg; split <;> rfl

end Sys2Proof.Machine
end

