-- ==== Sys2Proof/Laws/Registers.lean ====
section
/-! SUPPORT. Reading after writing: registers, the alias table, the reorder buffer. -/

namespace Sys2Proof.Machine

/-- An identifier is its file bit and its number. -/
theorem operandId_ext {a b : OperandId} (h : a.isFloating = b.isFloating) (hn : a.number = b.number) : a = b := by
  have h0 := congrArg BitVec.toNat hn
  simp only [OperandId.isFloating, BitVec.getLsbD, Nat.testBit, OperandId.number, BitVec.extractLsb'_toNat] at h h0
  apply BitVec.eq_of_toNat_eq
  have ha := a.isLt
  have hb := b.isLt
  simp only [Nat.shiftRight_eq_div_pow, Nat.one_and_eq_mod_two] at h h0
  have : (a.toNat / 2 ^ 5 % 2 != 0) = (b.toNat / 2 ^ 5 % 2 != 0) := h
  rcases Nat.mod_two_eq_zero_or_one (a.toNat / 2 ^ 5) with h1 | h1 <;>
    rcases Nat.mod_two_eq_zero_or_one (b.toNat / 2 ^ 5) with h2 | h2 <;>
    rw [h1, h2] at this <;> first | exact absurd this (by decide) | omega

/-- A register reads what was last written to it, and every other register is unchanged. -/
theorem readReg_writeReg (s : State) (id id' : OperandId) (v : Word) :
    (s.writeReg id v).readReg id' = if id' = id then some v else s.readReg id' := by
  by_cases hid : id' = id
  · subst hid
    unfold State.writeReg State.readReg
    by_cases hf : id'.isFloating <;> simp [hf]
  · simp only [hid, if_false]
    unfold State.writeReg State.readReg
    by_cases hf : id.isFloating = true <;> by_cases hf' : id'.isFloating = true <;> simp [hf, hf']
    · rw [Vector.getElem_set_ne]
      intro hn
      exact hid (operandId_ext (by rw [hf, hf']) (BitVec.eq_of_toNat_eq hn.symm))
    · rw [Vector.getElem_set_ne]
      intro hn
      exact hid (operandId_ext (by simp_all) (BitVec.eq_of_toNat_eq hn.symm))

/-- An alias-table entry reads what was last written to it, and every other entry is unchanged. -/
theorem ratAt_setRat (s : State) (id id' : OperandId) (e : RatEntry) :
    (s.setRat id e).ratAt id' = if id' = id then e else s.ratAt id' := by
  unfold State.setRat State.ratAt
  by_cases hid : id' = id
  · subst hid; simp
  · simp only [hid, if_false]
    rw [Vector.getElem_set_ne]
    intro hn
    exact hid (BitVec.eq_of_toNat_eq hn.symm)

/-- A reorder-buffer entry reads what was last written to it, and every other entry is unchanged. -/
theorem robAt_setRob (s : State) (r r' : Nat) (e : RobEntry) :
    (s.setRob r e).robAt r' = if r' = r ∧ r < s.rob.length then e else s.robAt r' := by
  unfold State.setRob State.robAt
  simp only [List.getD_eq_getElem?_getD, List.getElem?_set]
  by_cases h : r = r'
  · subst h
    by_cases hl : r < s.rob.length <;> simp [hl]
  · simp [h, Ne.symm h]

/-- An entry inside the buffer is the list's. -/
theorem robAt_of_lt (s : State) {r : Nat} (h : r < s.rob.length) : s.robAt r = s.rob[r] := by
  unfold State.robAt; simp [h]

theorem robAt_of_getElem? {s : State} {r : Nat} {e : RobEntry} (h : s.rob[r]? = some e) : s.robAt r = e := by
  unfold State.robAt; simp [List.getD_eq_getElem?_getD, h]

/-- A busy entry lies inside the buffer. -/
theorem lt_of_robAt_busy {s : State} {r : Nat} (h : (s.robAt r).busy = true) : r < s.rob.length := by
  by_contra hl
  have : s.rob[r]? = none := by simpa using hl
  simp [State.robAt, List.getD_eq_getElem?_getD, this, RobEntry.busy, RobEntry.free] at h

end Sys2Proof.Machine
end

