-- ==== Sys2Proof/Laws/Stages.lean ====
section
/-! SUPPORT. What each stage operation can do: if it answers a next state, then which one and under which conditions.
Every later proof about a stage cites these instead of unfolding the operation. -/

namespace Sys2Proof.Machine

theorem raise_next {code : FaultCode} {pc : Word} {info : Option Word} {s t : State}
    (h : raise code pc info s = .next t) : t = { s with fault := some { code := code, pc := pc, info := info } } := by
  simpa [raise] using h.symm

/-- Going on: the first part answered a state, and either it faulted, and that is all, or the second part ran. -/
theorem andThen_next {o : Result} {k : State → Result} {t : State} (h : andThen o k = .next t) :
    ∃ s, o = .next s ∧ (s.fault.isSome = true ∧ t = s ∨ s.fault = none ∧ k s = .next t) := by
  unfold andThen at h
  split at h
  · rename_i s
    split at h
    · rename_i hf
      simp only [Host.Outcome.next.injEq] at h
      exact ⟨s, rfl, .inl ⟨hf, h.symm⟩⟩
    · rename_i hf
      exact ⟨s, rfl, .inr ⟨by simpa using hf, h⟩⟩
  · simp at h
  · simp at h

theorem andThen_of_running {s : State} {k : State → Result} (h : s.fault = none) : andThen (.next s) k = k s := by
  simp [andThen, h]

theorem andThen_of_fault {s : State} {k : State → Result} (h : s.fault.isSome = true) :
    andThen (.next s) k = .next s := by
  simp [andThen, h]

/-- Issue of one record: it stalled and changed nothing, or it issued into a free station. -/
theorem issueRecord_next {op : Opcode} {dest : Dest} {src1 src2 : Option OperandId} {imm : Word} {s t : State}
    (h : issueRecord op dest src1 src2 imm s = .next t) :
    (issueSlot op s = none ∧ t = s) ∨
    ∃ p, issueSlot op s = some p ∧ t = issueAt op dest src1 src2 imm p s := by
  unfold issueRecord at h
  split at h
  · simp at h
  · split at h
    · rename_i hs
      exact .inl ⟨hs, by simpa using h.symm⟩
    · rename_i p hs
      exact .inr ⟨p, hs, by simpa using h.symm⟩

/-- A place to issue to: the entry at the tail is free, and so is the station, which has the opcode's class. -/
theorem issueSlot_some {op : Opcode} {s : State} {p : Nat} (h : issueSlot op s = some p) :
    (s.robAt s.robTail).busy = false ∧ ∃ c st, s.cfg.rsClass op = some c ∧ s.rs[p]? = some st ∧
      st.cls = c ∧ st.busy = false := by
  unfold issueSlot at h
  split at h
  · simp at h
  · rename_i hb
    split at h
    · simp at h
    · rename_i c hc
      refine ⟨by simpa using hb, c, ?_⟩
      unfold State.freeStation at h
      rw [List.findIdx?_eq_some_iff_getElem] at h
      obtain ⟨hp, hq, _⟩ := h
      refine ⟨s.rs[p], hc, by simp [hp], ?_⟩
      simpa using hq

/-- With a place to issue to, the record issues. -/
theorem issueRecord_of_slot {op : Opcode} {s : State} {p : Nat} (h : issueSlot op s = some p)
    (dest : Dest) (src1 src2 : Option OperandId) (imm : Word) :
    issueRecord op dest src1 src2 imm s = .next (issueAt op dest src1 src2 imm p s) := by
  obtain ⟨_, c, _, hc, _⟩ := issueSlot_some h
  simp [issueRecord, hc, h]

/-- Without one, it stalls. -/
theorem issueRecord_of_stall {op : Opcode} {s : State} {c : RsClass} (hc : s.cfg.rsClass op = some c)
    (h : issueSlot op s = none) (dest : Dest) (src1 src2 : Option OperandId) (imm : Word) :
    issueRecord op dest src1 src2 imm s = .next s := by
  simp [issueRecord, hc, h]

theorem takeUnit_next {p x : Nat} {s t : State} (h : takeUnit p x s = .next t) :
    ∃ st u, s.rs[p]? = some st ∧ s.fu[x]? = some u ∧ st.busy = true ∧ t = takeUnitWith p x st u st.ea s := by
  unfold takeUnit at h
  split at h
  · rename_i st u h1 h2
    split at h
    · rename_i hb
      exact ⟨st, u, h1, h2, hb, by simpa using h.symm⟩
    · simp at h
  · simp at h

/-- Dispatch of a memory access: the unit is taken with the address, or the base is undefined and only the fault is
recorded. -/
theorem takeUnitAddressed_next {p x : Nat} {s t : State} (h : takeUnitAddressed p x s = .next t) :
    ∃ st u pc, s.rs[p]? = some st ∧ s.fu[x]? = some u ∧ st.pc = some pc ∧
      ((∃ base, st.j = .val (some base) ∧ t = takeUnitWith p x st u (some (base + st.imm)) s) ∨
       (st.j = .val none ∧ t = { s with fault := some { code := .undefinedOperand, pc := pc, info := none } })) := by
  unfold takeUnitAddressed at h
  split at h
  · rename_i st u h1 h2
    split at h
    · rename_i pc base hpc hj
      exact ⟨st, u, pc, h1, h2, hpc, .inl ⟨base, hj, by simpa using h.symm⟩⟩
    · rename_i pc hpc hj
      exact ⟨st, u, pc, h1, h2, hpc, .inr ⟨hj, raise_next h⟩⟩
    · simp at h
    · simp at h
    · simp at h
  · simp at h

/-- Write-result: the result was published, or the fault `Compute` raised was recorded. -/
theorem writeResult_next {compute : Compute} {p x : Nat} {s t : State} (h : writeResult compute p x s = .next t) :
    ∃ st u pc, s.rs[p]? = some st ∧ s.fu[x]? = some u ∧ st.pc = some pc ∧
      ((∃ v m, compute s pc st = .value v m ∧ t = finishAt p x st u v { s with mem := m }) ∨
       (∃ code info, compute s pc st = .raised code info ∧
          t = { s with fault := some { code := code, pc := pc, info := info } })) := by
  unfold writeResult at h
  split at h
  · rename_i st u h1 h2
    split at h
    · simp at h
    · rename_i pc hpc
      split at h
      · rename_i v m hc
        exact ⟨st, u, pc, h1, h2, hpc, .inl ⟨v, m, hc, by simpa using h.symm⟩⟩
      · rename_i code info hc
        exact ⟨st, u, pc, h1, h2, hpc, .inr ⟨code, info, hc, raise_next h⟩⟩
      · simp at h
  · simp at h

/-- Write-result from what `Compute` answers. -/
theorem writeResult_of_value {compute : Compute} {p x : Nat} {s : State} {st : Station} {u : FuncUnit} {pc v : Word}
    {m : Memory} (h1 : s.rs[p]? = some st) (h2 : s.fu[x]? = some u) (h3 : st.pc = some pc)
    (hc : compute s pc st = .value v m) :
    writeResult compute p x s = .next (finishAt p x st u v { s with mem := m }) := by
  simp [writeResult, h1, h2, h3, hc]

theorem writeResult_of_raised {compute : Compute} {p x : Nat} {s : State} {st : Station} {u : FuncUnit} {pc : Word}
    {code : FaultCode} {info : Option Word} (h1 : s.rs[p]? = some st) (h2 : s.fu[x]? = some u) (h3 : st.pc = some pc)
    (hc : compute s pc st = .raised code info) :
    writeResult compute p x s = raise code pc info s := by
  simp [writeResult, h1, h2, h3, hc]

/-- Commit: the entry retired, and then either everything was flushed or completion was checked. -/
theorem commitEntry_next {control : Bool} {r : Nat} {s t : State} (h : commitEntry control r s = .next t) :
    ∃ e pc v, s.rob[r]? = some e ∧ e.pc = some pc ∧ e.value = some v ∧
      ((control = true ∧ v ≠ fallThrough pc ∧ t = recover pc v (retireEntry r e pc v s)) ∨
       ((control = false ∨ v = fallThrough pc) ∧ t = completionCheck pc (retireEntry r e pc v s))) := by
  unfold commitEntry at h
  split at h
  · simp at h
  · rename_i e he
    split at h
    · simp at h
    · simp at h
    · rename_i pc v hpc hv
      refine ⟨e, pc, v, he, hpc, hv, ?_⟩
      simp only [Host.Outcome.next.injEq] at h
      split at h
      · rename_i hc
        simp only [Bool.and_eq_true, bne_iff_ne] at hc
        exact .inl ⟨hc.1, hc.2, h.symm⟩
      · rename_i hc
        simp only [Bool.and_eq_true, bne_iff_ne, not_and, not_not] at hc
        refine .inr ⟨?_, h.symm⟩
        cases control
        · exact .inl rfl
        · exact .inr (hc rfl)

/-- Commit of a busy entry with a value. -/
theorem commitEntry_of_value {control : Bool} {r : Nat} {s : State} {e : RobEntry} {pc v : Word}
    (he : s.rob[r]? = some e) (hpc : e.pc = some pc) (hv : e.value = some v) :
    commitEntry control r s = .next (if control && v != fallThrough pc then recover pc v (retireEntry r e pc v s)
      else completionCheck pc (retireEntry r e pc v s)) := by
  simp [commitEntry, he, hpc, hv]

/-- The completion check changes the completion bit only. -/
theorem completionCheck_eq (pc : Word) (s : State) :
    completionCheck pc s = { s with done := (completionCheck pc s).done } := by
  unfold completionCheck
  split
  · rfl
  · split <;> rfl

end Sys2Proof.Machine
end

