-- ==== Sys2Proof/Laws/Exec.lean ====
section
/-! SUPPORT. `exec` stage by stage: which stage operation an instruction's meaning is, said once for all instructions
in terms of the roles of its record (R119) and of its opcode. -/

namespace Sys2Proof.Machine

/-- The `Compute` function of an opcode (R164). `EOP` has none; it is never issued. -/
def computeOf : Opcode → Compute
  | .add => binary fun a b => a + b
  | .sub => binary fun a b => a - b
  | .xor => binary fun a b => a ^^^ b
  | .and => binary fun a b => a &&& b
  | .mult => binary lowProduct
  | .div => divide
  | .addi => immediate fun a i => a + i
  | .subi => immediate fun a i => a - i
  | .xori => immediate fun a i => a ^^^ i
  | .andi => immediate fun a i => a &&& i
  | .adds => binary addFloat
  | .subs => binary subFloat
  | .mults => binary mulFloat
  | .divs => binary divFloat
  | .lw => load
  | .lws => load
  | .sw => store
  | .sws => store
  | .beqz => branchOn isZero
  | .bnez => branchOn isNonzero
  | .bltz => branchOn isNegative
  | .bgtz => branchOn isPositive
  | .blez => branchOn isNonpositive
  | .bgez => branchOn isNonnegative
  | .jump => jumpTo
  | .eop => fun _ _ _ => .unresolved

theorem exec_eop (s : State) : exec .eop s = .next s := rfl

/-- At Issue an instruction issues with the roles of its record. -/
theorem exec_issue {i : Instr} (hi : i ≠ .eop) {s : State} (h : s.serving = .issue) :
    exec i s = issueRecord i.opcode (destOf i) (firstSource i) (secondSource i) (immediateOf i) s := by
  cases i <;> first
    | exact absurd rfl hi
    | simp only [exec, execAdd, execSub, execXor, execAnd, execMult, execDiv, execAddi, execSubi, execXori, execAndi,
        execAdds, execSubs, execMults, execDivs, execLw, execLws, execSw, execSws, execBeqz, execBnez, execBltz,
        execBgtz, execBlez, execBgez, execJump, computing, loading, storing, controlling, life, h, Instr.opcode,
        destOf, firstSource, secondSource, immediateOf]

/-- At Execute-dispatch an instruction takes its unit, a memory access with its address. -/
theorem exec_dispatch {i : Instr} (hi : i ≠ .eop) {s : State} {p x : Nat} (h : s.serving = .dispatch p x) :
    exec i s = if isMemory i.opcode then takeUnitAddressed p x s else takeUnit p x s := by
  cases i <;> first
    | exact absurd rfl hi
    | simp [exec, execAdd, execSub, execXor, execAnd, execMult, execDiv, execAddi, execSubi, execXori, execAndi,
        execAdds, execSubs, execMults, execDivs, execLw, execLws, execSw, execSws, execBeqz, execBnez, execBltz,
        execBgtz, execBlez, execBgez, execJump, computing, loading, storing, controlling, life, h, Instr.opcode,
        isMemory]

/-- At Write-result an instruction computes what its opcode says. -/
theorem exec_writeResult {i : Instr} (hi : i ≠ .eop) {s : State} {p x : Nat} (h : s.serving = .writeResult p x) :
    exec i s = writeResult (computeOf i.opcode) p x s := by
  cases i <;> first
    | exact absurd rfl hi
    | simp only [exec, execAdd, execSub, execXor, execAnd, execMult, execDiv, execAddi, execSubi, execXori, execAndi,
        execAdds, execSubs, execMults, execDivs, execLw, execLws, execSw, execSws, execBeqz, execBnez, execBltz,
        execBgtz, execBlez, execBgez, execJump, computing, loading, storing, controlling, life, h, Instr.opcode,
        computeOf]

/-- At Commit an instruction retires its entry, a control instruction after comparing its value with its
fall-through. -/
theorem exec_commit {i : Instr} (hi : i ≠ .eop) {s : State} {r : Nat} (h : s.serving = .commit r) :
    exec i s = commitEntry (isControl i.opcode) r s := by
  cases i <;> first
    | exact absurd rfl hi
    | simp only [exec, execAdd, execSub, execXor, execAnd, execMult, execDiv, execAddi, execSubi, execXori, execAndi,
        execAdds, execSubs, execMults, execDivs, execLw, execLws, execSw, execSws, execBeqz, execBnez, execBltz,
        execBgtz, execBlez, execBgez, execJump, computing, loading, storing, controlling, life, h, Instr.opcode,
        isControl]

/-- The instruction in flight has its opcode. -/
@[simp] theorem inFlight_opcode (op : Opcode) : op.inFlight.opcode = op := by cases op <;> rfl

theorem inFlight_ne_eop {op : Opcode} (h : op ≠ .eop) : op.inFlight ≠ .eop := by
  cases op <;> first | exact absurd rfl h | exact Instr.noConfusion

/-- What memory an opcode's `Compute` leaves: the memory it met, unless it is a store, which writes one word inside the
memory. -/
theorem computeOf_memory {op : Opcode} {s : State} {pc : Word} {st : Station} {v : Word} {m : Memory}
    (h : computeOf op s pc st = .value v m) :
    m = s.mem ∨ isStore op = true ∧ ∃ a, st.ea = some a ∧ aligned a = true ∧ inBounds s.cfg.memSize a = true ∧
      m = s.mem.setWord a.toNat v := by
  have hload : load s pc st = .value v m → m = s.mem := by
    intro h
    unfold load at h
    split at h
    · simp at h
    · exact (memRead_value h).1
  have hstore : store s pc st = .value v m → ∃ a, st.ea = some a ∧ aligned a = true ∧
      inBounds s.cfg.memSize a = true ∧ m = s.mem.setWord a.toNat v := by
    intro h
    obtain ⟨d, _, h⟩ := withOperand_value h
    split at h
    · simp at h
    · rename_i a ha
      obtain ⟨rfl, hm, hal, hin⟩ := memWrite_value h
      exact ⟨a, ha, hal, hin, hm⟩
  have hbin : ∀ f, binary f s pc st = .value v m → m = s.mem := by
    intro f h
    obtain ⟨a, _, h⟩ := withOperand_value h
    obtain ⟨b, _, h⟩ := withOperand_value h
    simp only [Computed.value.injEq] at h
    exact h.2.symm
  have himm : ∀ f, immediate f s pc st = .value v m → m = s.mem := by
    intro f h
    obtain ⟨a, _, h⟩ := withOperand_value h
    simp only [Computed.value.injEq] at h
    exact h.2.symm
  have hbr : ∀ f, branchOn f s pc st = .value v m → m = s.mem := by
    intro f h
    obtain ⟨a, _, h⟩ := withOperand_value h
    simp only [Computed.value.injEq] at h
    exact h.2.symm
  have hdiv : divide s pc st = .value v m → m = s.mem := by
    intro h
    obtain ⟨a, _, h⟩ := withOperand_value h
    obtain ⟨b, _, h⟩ := withOperand_value h
    split at h
    · simp at h
    · split at h
      · simp at h
      · simp only [Computed.value.injEq] at h
        exact h.2.symm
  cases op <;> simp only [computeOf] at h
  all_goals first
    | exact .inl (hbin _ h)
    | exact .inl (himm _ h)
    | exact .inl (hbr _ h)
    | exact .inl (hdiv h)
    | exact .inl (hload h)
    | exact .inr ⟨rfl, hstore h⟩
    | (simp only [jumpTo, Computed.value.injEq] at h; exact .inl h.2.symm)
    | simp at h

end Sys2Proof.Machine
end

