-- ==== Sys2Proof/Laws/Cycle.lean ====
section
/-! SUPPORT. What a cycle is made of, said once: the phases only serve instructions and apply the three whole-pool updates,
so a property that each of these keeps is kept by every step. -/

namespace Sys2Proof.Machine

/-- Serving an instruction: it was executed with the cursor at its place, and the cursor is at rest again. -/
theorem serve_next {w : Serving} {i : Instr} {s t : State} (h : serve w i s = .next t) :
    ∃ t', exec i { s with serving := w } = .next t' ∧ t = { t' with serving := .issue } := by
  unfold serve at h
  split at h
  · rename_i t' he
    exact ⟨t', he, by simpa using h.symm⟩
  · simp at h
  · simp at h

theorem serve_of_next {w : Serving} {i : Instr} {s t : State} (h : exec i { s with serving := w } = .next t) :
    serve w i s = .next { t with serving := .issue } := by
  simp [serve, h]

/-- A property kept by every visit is kept by the visits in turn. -/
theorem inTurn_keeps {P : State → Prop} {visit : Nat → State → Result}
    (hv : ∀ p s t, P s → s.fault = none → visit p s = .next t → P t) :
    ∀ (l : List Nat) (s t : State), P s → s.fault = none → inTurn visit l s = .next t → P t := by
  intro l
  induction l with
  | nil =>
    intro s t hP _ h
    simp only [inTurn, Host.Outcome.next.injEq] at h
    exact h ▸ hP
  | cons p l ih =>
    intro s t hP hf h
    obtain ⟨s1, h1, ⟨_, rfl⟩ | ⟨hf1, h2⟩⟩ := andThen_next h
    · exact hv p s _ hP hf h1
    · exact ih s1 t (hv p s s1 hP hf h1) hf1 h2

/-- A property kept by issuing one record, and by a fetch fault, is kept by Issue. -/
theorem issuePhase_keeps {P : State → Prop}
    (hi : ∀ i s t, P s → s.fault = none → s.fetch = some i → serve .issue i s = .next t → P t)
    (hf : ∀ s t, P s → s.fault = none → s.fetch = none → raise .fetchFault s.fetchPC none s = .next t → P t) :
    ∀ (n : Nat) (s t : State), P s → s.fault = none → issuePhase n s = .next t → P t := by
  intro n
  induction n with
  | zero =>
    intro s t hP _ h
    simp only [issuePhase, Host.Outcome.next.injEq] at h
    exact h ▸ hP
  | succ n ih =>
    intro s t hP hs h
    unfold issuePhase at h
    split at h
    · rename_i hn
      exact hf s t hP hs hn h
    · rename_i i hi'
      obtain ⟨s1, h1, ⟨_, rfl⟩ | ⟨hf1, h2⟩⟩ := andThen_next h
      · exact hi i s _ hP hs hi' h1
      · have hP1 := hi i s s1 hP hs hi' h1
        split at h2
        · exact ih s1 t hP1 hf1 h2
        · simp only [Host.Outcome.next.injEq] at h2
          exact h2 ▸ hP1

/-- One dispatch visit: nothing happened, or an instruction was served at a free unit of its class. -/
theorem dispatchStation_next {p : Nat} {s t : State} (h : dispatchStation p s = .next t) :
    t = s ∨ ∃ st k x, s.rs[p]? = some st ∧ s.cfg.fuClass st.op = some k ∧ s.freeUnit k = some x ∧
      serve (.dispatch p x) st.op.inFlight s = .next t := by
  unfold dispatchStation at h
  split at h
  · simp at h
  · rename_i st hst
    split at h
    · simp at h
    · rename_i k hk
      split at h
      · exact .inl (by simpa using h.symm)
      · rename_i x hx
        exact .inr ⟨st, k, x, hst, hk, hx, h⟩

/-- One completing unit: its unique busy station was served. -/
theorem completeUnit_next {x : Nat} {s t : State} (h : completeUnit x s = .next t) :
    ∃ u st p, s.fu[x]? = some u ∧ servedStations s u.pc = [(st, p)] ∧
      serve (.writeResult p x) st.op.inFlight s = .next t := by
  unfold completeUnit at h
  split at h
  · simp at h
  · rename_i u hu
    split at h
    · rename_i st p hsp
      exact ⟨u, st, p, hu, hsp, h⟩
    · simp at h

/-- Commit: nothing happened, or the oldest entry, ready, was served. -/
theorem commitPhase_next {s t : State} (h : commitPhase s = .next t) :
    t = s ∨ ∃ pc r l, s.inFlight = (pc, r) :: l ∧ (s.robAt r).ready = true ∧
      serve (.commit r) (s.robAt r).op.inFlight s = .next t := by
  unfold commitPhase at h
  split at h
  · exact .inl (by simpa using h.symm)
  · rename_i pc r l hl
    split at h
    · rename_i hr
      exact .inr ⟨pc, r, l, hl, hr, h⟩
    · exact .inl (by simpa using h.symm)

/-- A step: nothing moved because the block has stopped, or a cycle ran. -/
theorem step_next {s t : State} (h : step s = .next t) :
    (∃ p, s.prog = some p) ∧ ((s.done = true ∨ s.fault.isSome = true) ∧ t = s ∨
      s.done = false ∧ s.fault = none ∧ cycle s = .next t) := by
  unfold step advance at h
  split at h
  · simp at h
  · rename_i p hp
    refine ⟨⟨p, hp⟩, ?_⟩
    split at h
    · rename_i hs
      exact .inl ⟨by simpa [State.stopped] using hs, by simpa using h.symm⟩
    · rename_i hs
      simp only [State.stopped, Bool.or_eq_true, not_or, Bool.not_eq_true, Option.isSome_eq_false_iff, Option.isNone_iff_eq_none] at hs
      exact .inr ⟨hs.1, hs.2, h⟩

/-- The phases of a cycle that ran, in order (R140): each saw the state the one before left, and none ran after a
fault (R142). -/
theorem cycle_next {s t : State} (h : cycle s = .next t) :
    ∃ a, issuePhase s.cfg.issueWidth { s with cycles := s.cycles + 1 } = .next a ∧
      (a.fault.isSome = true ∧ t = a ∨ a.fault = none ∧ ∃ b, dispatchPhase a = .next b ∧
        (b.fault.isSome = true ∧ t = b ∨ b.fault = none ∧ ∃ c, writeResultPhase (tickPhase b) = .next c ∧
          (c.fault.isSome = true ∧ t = c ∨ c.fault = none ∧ ∃ d, commitPhase c = .next d ∧
            (d.fault.isSome = true ∧ t = d ∨ d.fault = none ∧ t = endOfCycle d)))) := by
  obtain ⟨a, ha, ⟨hf, rfl⟩ | ⟨hf, h1⟩⟩ := andThen_next h
  · exact ⟨t, ha, .inl ⟨hf, rfl⟩⟩
  refine ⟨a, ha, .inr ⟨hf, ?_⟩⟩
  obtain ⟨b, hb, ⟨hf, rfl⟩ | ⟨hf, h2⟩⟩ := andThen_next h1
  · exact ⟨t, hb, .inl ⟨hf, rfl⟩⟩
  refine ⟨b, hb, .inr ⟨hf, ?_⟩⟩
  obtain ⟨c, hc, ⟨hf, rfl⟩ | ⟨hf, h3⟩⟩ := andThen_next h2
  · exact ⟨t, hc, .inl ⟨hf, rfl⟩⟩
  refine ⟨c, hc, .inr ⟨hf, ?_⟩⟩
  obtain ⟨d, hd, ⟨hf, rfl⟩ | ⟨hf, h4⟩⟩ := andThen_next h3
  · exact ⟨t, hd, .inl ⟨hf, rfl⟩⟩
  exact ⟨d, hd, .inr ⟨hf, by simpa using h4.symm⟩⟩

/-- A property that the counter, a fetch fault, every served instruction and the three whole-pool updates keep is kept by
every step. `P` holds at each point of the cycle, with the cursor at rest. -/
theorem step_keeps {P : State → Prop}
    (hcount : ∀ s, P s → P { s with cycles := s.cycles + 1 })
    (hfetch : ∀ s, P s → P { s with fault := some { code := .fetchFault, pc := s.fetchPC, info := none } })
    (hissue : ∀ i s t, P s → s.fetch = some i → serve .issue i s = .next t → P t)
    (hdispatch : ∀ p s t, P s → dispatchStation p s = .next t → P t)
    (htick : ∀ s, P s → P (tickPhase s))
    (hcomplete : ∀ x s t, P s → completeUnit x s = .next t → P t)
    (hsweep : ∀ s, P s → P (readySweep s))
    (hcommit : ∀ s t, P s → commitPhase s = .next t → P t)
    (hend : ∀ s, P s → P (endOfCycle s))
    {s t : State} (hP : P s) (h : step s = .next t) : P t := by
  obtain ⟨_, ⟨_, rfl⟩ | ⟨_, hf, hc⟩⟩ := step_next h
  · exact hP
  obtain ⟨a, ha, h1⟩ := cycle_next hc
  have hPa : P a := issuePhase_keeps (P := P) (fun i s t hs _ hfe ht => hissue i s t hs hfe ht)
    (fun s t hs _ _ ht => by rw [raise_next ht]; exact hfetch s hs) _ _ _ (hcount s hP) hf ha
  obtain ⟨_, rfl⟩ | ⟨hfa, b, hb, h2⟩ := h1
  · exact hPa
  have hPb : P b := inTurn_keeps (fun p s t hs _ ht => hdispatch p s t hs ht) _ _ _ hPa hfa hb
  obtain ⟨_, rfl⟩ | ⟨hfb, c, hcc, h3⟩ := h2
  · exact hPb
  have hPc : P c := by
    obtain ⟨c', hc', hcase⟩ := andThen_next hcc
    have hPc' : P c' := inTurn_keeps (fun x s t hs _ ht => hcomplete x s t hs ht) _ _ _ (htick b hPb) hfb hc'
    obtain ⟨_, rfl⟩ | ⟨_, hsw⟩ := hcase
    · exact hPc'
    · simp only [Host.Outcome.next.injEq] at hsw
      exact hsw ▸ hsweep c' hPc'
  obtain ⟨_, rfl⟩ | ⟨_, d, hd, h4⟩ := h3
  · exact hPc
  have hPd : P d := hcommit c d hPc hd
  obtain ⟨_, rfl⟩ | ⟨_, rfl⟩ := h4
  · exact hPd
  · exact hend d hPd

/-! ### Ascending program-counter order -/

theorem perm_insertByPc (x : Word × Nat) (l : List (Word × Nat)) : (insertByPc x l).Perm (x :: l) := by
  induction l with
  | nil => exact List.Perm.refl _
  | cons y l ih =>
    unfold insertByPc
    split
    · exact List.Perm.refl _
    · exact (List.Perm.cons y ih).trans (List.Perm.swap x y l)

/-- Sorting only rearranges. -/
theorem perm_sortByPc (l : List (Word × Nat)) : (sortByPc l).Perm l := by
  induction l with
  | nil => exact List.Perm.refl _
  | cons x l ih => exact (perm_insertByPc x _).trans (List.Perm.cons x ih)

theorem sorted_insertByPc (x : Word × Nat) {l : List (Word × Nat)}
    (h : l.Pairwise fun a b => a.1.toNat ≤ b.1.toNat) :
    (insertByPc x l).Pairwise fun a b => a.1.toNat ≤ b.1.toNat := by
  induction l with
  | nil => simp [insertByPc]
  | cons y l ih =>
    have hy := List.pairwise_cons.1 h
    unfold insertByPc
    split
    · rename_i hxy
      refine List.pairwise_cons.2 ⟨fun z hz => ?_, h⟩
      rcases List.mem_cons.1 hz with rfl | hz
      · exact hxy
      · exact Nat.le_trans hxy (hy.1 z hz)
    · rename_i hxy
      refine List.pairwise_cons.2 ⟨fun z hz => ?_, ih hy.2⟩
      rcases List.mem_cons.1 ((perm_insertByPc x l).mem_iff.1 hz) with rfl | hz
      · omega
      · exact hy.1 z hz

/-- Sorted positions stand in ascending program-counter order. -/
theorem sorted_sortByPc (l : List (Word × Nat)) : (sortByPc l).Pairwise fun a b => a.1.toNat ≤ b.1.toNat := by
  induction l with
  | nil => exact List.Pairwise.nil
  | cons x l ih => exact sorted_insertByPc x ih

end Sys2Proof.Machine
end

