-- ==== Sys2Proof/Laws/Effects.lean ====
section
/-! SUPPORT. What the four stage operations do, in the terms of `Safety.lean`: dispatch links, Write-result publishes,
Commit retires, `Recover` flushes, and Issue allocates and renames. -/

namespace Sys2Proof.Machine

theorem fallThrough_eq (pc : Word) : fallThrough pc = pc + 4 := rfl

/-- The `DispatchOne` of R159 links station and unit and does nothing else. -/
theorem takeUnitWith_dispatched {s : State} {p x : Nat} {st : Station} {u : FuncUnit} (ea : Option Word)
    (hp : s.rs[p]? = some st) (hx : s.fu[x]? = some u) : Dispatched s (takeUnitWith p x st u ea s) p x st u ea where
  stations := by
    intro q
    have hlt : p < s.rs.length := (List.getElem?_eq_some_iff.mp hp).1
    simp only [takeUnitWith, State.setRob_rs, State.setUnit_rs, State.setStation_rs, List.getElem?_set]
    by_cases h : p = q
    · subst h; simp_all
    · simp [h, Ne.symm h]
  units := by
    intro y
    have hlt : x < s.fu.length := (List.getElem?_eq_some_iff.mp hx).1
    simp only [takeUnitWith, State.setRob_fu, State.setUnit_fu, State.setStation_fu, List.getElem?_set]
    by_cases h : x = y
    · subst h; simp_all
    · simp [h, Ne.symm h]
  entries := by simp [takeUnitWith]
  entry := by
    intro r hr
    simp only [takeUnitWith, robAt_setRob, State.setUnit_robAt, State.setStation_robAt]
    by_cases h : r = st.dest
    · subst h; simp [hr]
    · simp [h]
  registers := fun _ => rfl
  memory := fun _ => rfl
  rat := fun _ => rfl
  fetch := ⟨rfl, rfl⟩
  metrics := ⟨rfl, rfl, rfl, rfl, rfl, rfl⟩
  parameters := ⟨rfl, rfl, rfl⟩

/-- The finish of R162 publishes the value and does nothing else, whatever `Compute` left in memory. -/
theorem finishAt_published {s : State} {p x : Nat} {st : Station} {u : FuncUnit} (v : Word) (m : Memory)
    (hp : s.rs[p]? = some st) (hx : s.fu[x]? = some u) :
    Published s (finishAt p x st u v { s with mem := m }) p x st u v where
  entries := by simp [finishAt, State.broadcast]
  entry := by
    intro r hr
    simp only [finishAt, State.setUnit_robAt, State.setStation_robAt, robAt_setRob]
    by_cases h : r = st.dest
    · subst h
      rw [if_pos ⟨rfl, by simpa [State.broadcast] using hr⟩, if_pos rfl]
      rfl
    · simp only [h, false_and, if_false]
      rfl
  stations := by
    intro q
    have hlt : p < s.rs.length := (List.getElem?_eq_some_iff.mp hp).1
    simp only [finishAt, State.setUnit_rs, State.setStation_rs, State.setRob_rs, State.broadcast, List.getElem?_set,
      List.length_map, List.getElem?_map]
    by_cases h : p = q
    · subst h; simp_all
    · simp [h, Ne.symm h]
  units := by
    intro y
    have hlt : x < s.fu.length := (List.getElem?_eq_some_iff.mp hx).1
    simp only [finishAt, State.setUnit_fu, State.setStation_fu, State.setRob_fu, State.broadcast, List.getElem?_set]
    by_cases h : x = y
    · subst h; simp_all
    · simp [h, Ne.symm h]
  registers := fun _ => rfl
  rat := fun _ => rfl
  fetch := ⟨rfl, rfl⟩
  metrics := ⟨rfl, rfl, rfl, rfl, rfl, rfl⟩
  parameters := ⟨rfl, rfl, rfl⟩

/-- After Write-result memory is what `Compute` left. -/
@[simp] theorem finishAt_mem (s : State) (p x : Nat) (st : Station) (u : FuncUnit) (v : Word) (m : Memory) :
    (finishAt p x st u v { s with mem := m }).mem = m := rfl

/-! ### Issue -/

theorem renameDest_eq (op : Opcode) (dest : Dest) (r : Nat) (s : State) :
    renameDest op dest r s = { s with rat := (renameDest op dest r s).rat } := by
  cases dest <;> rfl

/-- The renaming of R151 changes the destination's alias entry only. -/
theorem ratAt_renameDest (op : Opcode) (dest : Dest) (r : Nat) (s : State) (id : OperandId) :
    (renameDest op dest r s).ratAt id =
      if dest = .reg id then { tag := some r, op := some op, pc := some s.fetchPC } else s.ratAt id := by
  cases dest with
  | reg d => simp [renameDest, ratAt_setRat, eq_comm]
  | store => simp [renameDest]
  | noDest => simp [renameDest]

/-- Resolution reads only registers, alias table and reorder buffer. -/
theorem resolve_congr {s t : State} {src : Option OperandId} {r : Nat} (hrat : ∀ id, src = some id → t.ratAt id = s.ratAt id)
    (hreg : ∀ id, t.readReg id = s.readReg id) (hrob : ∀ q, q ≠ r → t.robAt q = s.robAt q) :
    resolve t src r = resolve s src r := by
  cases src with
  | none => rfl
  | some id =>
    simp only [resolve, resolveRegister, hrat id rfl, hreg]
    split
    · rfl
    · rename_i p _
      by_cases hp : p = r
      · simp [hp]
      · simp [hp, hrob p hp]

/-- Resolution under either policy, from the state before Issue (R152 to R154). -/
theorem resolve_issuedSlot (s : State) (i : Instr) (src : Option OperandId) (e : RobEntry) :
    resolve (match s.cfg.selfAlias with
      | .destFirst => renameDest i.opcode (destOf i) s.robTail
          { s.setRob s.robTail e with robTail := (s.robTail + 1) % s.cfg.robDepth }
      | .sourcesFirst => { s.setRob s.robTail e with robTail := (s.robTail + 1) % s.cfg.robDepth }) src s.robTail =
      issuedSlot s i src := by
  have hsrc : resolve { s.setRob s.robTail e with robTail := (s.robTail + 1) % s.cfg.robDepth } src s.robTail =
      resolve s src s.robTail :=
    resolve_congr (fun _ _ => rfl) (fun _ => rfl) fun q hq =>
      (robAt_setRob s s.robTail q e).trans (by simp [hq])
  cases src with
  | none => split <;> rfl
  | some id =>
    have hnone : issuedSlot s i (some id) =
        if s.cfg.selfAlias = .destFirst ∧ destOf i = .reg id then .val (s.readReg id)
        else resolve s (some id) s.robTail := rfl
    rw [hnone]
    split
    · rename_i hpol
      by_cases hd : destOf i = .reg id
      · rw [if_pos ⟨hpol, hd⟩]
        simp [resolve, resolveRegister, hd, renameDest, ratAt_setRat]
        rfl
      · rw [if_neg (fun h => hd h.2), ← hsrc]
        refine resolve_congr (fun id' h => ?_) (fun id' => ?_) fun q _ => ?_
        · cases h
          rw [ratAt_renameDest, if_neg hd]
        · rw [renameDest_eq]; rfl
        · rw [renameDest_eq]; rfl
    · rename_i hpol
      rw [if_neg (fun h => by simp [hpol] at h)]
      exact hsrc

/-- `IssueOne` allocates, renames and resolves as R147 to R153 say, and does nothing else. -/
theorem issueAt_issued {s : State} {i : Instr} {p : Nat} (h : issueSlot i.opcode s = some p)
    (ht : s.robTail < s.rob.length) :
    Issued s (issueAt i.opcode (destOf i) (firstSource i) (secondSource i) (immediateOf i) p s) i p := by
  obtain ⟨-, c, st, hc, hst, hcls, hfree⟩ := issueSlot_some h
  have hp : p < s.rs.length := (List.getElem?_eq_some_iff.mp hst).1
  have hfirst : ∀ q st', q < p → s.rs[q]? = some st' → st'.cls = st.cls → st'.busy = true := by
    intro q st' hq hst' hcls'
    unfold issueSlot at h
    split at h
    · simp at h
    · rw [hc] at h
      dsimp only at h
      unfold State.freeStation at h
      rw [List.findIdx?_eq_some_iff_getElem] at h
      obtain ⟨_, _, hlow⟩ := h
      have := hlow q hq
      obtain ⟨hql, rfl⟩ := List.getElem?_eq_some_iff.mp hst'
      simpa [hcls', hcls] using this
  have hren : ∀ e, renameDest i.opcode (destOf i) s.robTail
      { s.setRob s.robTail e with robTail := (s.robTail + 1) % s.cfg.robDepth } =
      { s.setRob s.robTail e with
        robTail := (s.robTail + 1) % s.cfg.robDepth
        rat := (renameDest i.opcode (destOf i) s.robTail
          { s.setRob s.robTail e with robTail := (s.robTail + 1) % s.cfg.robDepth }).rat } :=
    fun e => renameDest_eq ..
  constructor
  case station =>
    refine ⟨st, hst, hfree, by rw [hc, hcls], hfirst, ?_⟩
    have hrs : ∀ e, (renameDest i.opcode (destOf i) s.robTail
        { s.setRob s.robTail e with robTail := (s.robTail + 1) % s.cfg.robDepth }).rs = s.rs :=
      fun e => by rw [hren]; rfl
    simp only [issueAt, hrs, List.getElem?_modify_eq, hst]
    refine congrArg some ?_
    have h1 := resolve_issuedSlot s i (firstSource i)
      { pc := some s.fetchPC, ready := false, stage := .issue, dest := destOf i, op := i.opcode, value := none }
    have h2 := resolve_issuedSlot s i (secondSource i)
      { pc := some s.fetchPC, ready := false, stage := .issue, dest := destOf i, op := i.opcode, value := none }
    exact congrArg₂ (fun j k : Slot =>
      { cls := st.cls, pc := some s.fetchPC, op := i.opcode, j := j, k := k, dest := s.robTail, imm := immediateOf i,
        ea := none, ready := false, executing := false : Station }) h1 h2
  case rat =>
    intro id
    exact (ratAt_renameDest i.opcode (destOf i) s.robTail _ id).trans rfl
  case stations =>
    intro q hq
    simp only [issueAt]
    rw [hren]
    simp [Ne.symm hq]
  case entry =>
    intro r hr
    simp only [issueAt]
    rw [hren]
    refine (robAt_setRob s s.robTail r _).trans ?_
    simp [ht]
  case metrics => refine ⟨?_, ?_, ?_, ?_, ?_, ?_⟩ <;> (simp only [issueAt]; rw [hren]; rfl)
  case parameters => refine ⟨?_, ?_, ?_⟩ <;> (simp only [issueAt]; rw [hren]; rfl)
  case entries => simp only [issueAt]; rw [hren]; exact List.length_set
  case registers => intro id; simp only [issueAt]; rw [hren]; rfl
  case memory => intro id; simp only [issueAt]; rw [hren]; rfl
  case tail => simp only [issueAt]; rw [hren]
  case fetch => rfl
  case units => simp only [issueAt]; rw [hren]; rfl

/-! ### Commit -/

/-- The write-back of R174 writes the destination register and no other. -/
theorem readReg_writeBack (dest : Dest) (r : Nat) (v : Word) (s : State) (id : OperandId) :
    (writeBack dest r v s).readReg id = if dest = .reg id then some v else s.readReg id := by
  cases dest with
  | reg d =>
    simp only [writeBack, Dest.reg.injEq]
    split <;> simp [readReg_writeReg, eq_comm]
  | store => simp [writeBack]
  | noDest => simp [writeBack]

/-- The write-back of R175 releases the destination's alias entry where it still names the committing entry. -/
theorem ratAt_writeBack (dest : Dest) (r : Nat) (v : Word) (s : State) (id : OperandId) :
    (writeBack dest r v s).ratAt id =
      if dest = .reg id ∧ (s.ratAt id).tag = some r then RatEntry.empty else s.ratAt id := by
  cases dest with
  | reg d =>
    simp only [writeBack, Dest.reg.injEq]
    have hw : ∀ id', (s.writeReg d v).ratAt id' = s.ratAt id' := fun id' => by
      unfold State.writeReg; split <;> rfl
    by_cases hd : d = id
    · subst hd
      split <;> simp_all [ratAt_setRat]
    · split <;> simp_all [ratAt_setRat, Ne.symm hd]
  | store => simp [writeBack]
  | noDest => simp [writeBack]

/-- The write-back changes registers and alias table only. -/
theorem writeBack_eq (dest : Dest) (r : Nat) (v : Word) (s : State) :
    writeBack dest r v s =
      { s with
        r := (writeBack dest r v s).r, f := (writeBack dest r v s).f, rat := (writeBack dest r v s).rat } := by
  cases dest with
  | reg d =>
    unfold writeBack State.writeReg
    dsimp only
    split <;> split <;> rfl
  | store => rfl
  | noDest => rfl

@[simp] theorem robAt_writeBack (dest : Dest) (r : Nat) (v : Word) (s : State) (q : Nat) :
    (writeBack dest r v s).robAt q = s.robAt q := by rw [writeBack_eq]; rfl

/-- The common part of R173 retires the entry. -/
theorem retireEntry_retired {s : State} {r : Nat} {e : RobEntry} {pc : Word} (v : Word) (he : s.rob[r]? = some e) :
    Retired s (retireEntry r e pc v s) r e pc := by
  have hlt : r < s.rob.length := (List.getElem?_eq_some_iff.mp he).1
  have hw := writeBack_eq e.dest r v (s.setRob r { e with stage := .commit })
  constructor
  case cleared =>
    have hb : (writeBack e.dest r v (s.setRob r { e with stage := .commit })).robAt r = { e with stage := .commit } := by
      rw [robAt_writeBack, robAt_setRob, if_pos ⟨rfl, hlt⟩]
    have hl : r < (writeBack e.dest r v (s.setRob r { e with stage := .commit })).rob.length := by
      rw [hw]; simpa using hlt
    refine ⟨e.op, ?_⟩
    simp only [retireEntry, robAt_setRob]
    refine (if_pos ⟨trivial, hl⟩).trans ?_
    exact (congrArg RobEntry.clear hb).trans rfl
  case others =>
    intro q hq
    simp only [retireEntry, robAt_setRob, hq, false_and, if_false]
    exact (robAt_writeBack ..).trans (by simp [robAt_setRob, hq])
  case memory =>
    intro a
    simp only [retireEntry]
    rw [hw]; rfl
  case parameters =>
    refine ⟨?_, ?_, ?_⟩ <;> (simp only [retireEntry]; rw [hw]; rfl)
  case entries =>
    simp only [retireEntry]; rw [hw]; simp
  all_goals (simp only [retireEntry]; rw [hw]; rfl)

/-- Retiring writes the destination register and no other. -/
theorem readReg_retireEntry (r : Nat) (e : RobEntry) (pc v : Word) (s : State) (id : OperandId) :
    (retireEntry r e pc v s).readReg id = if e.dest = .reg id then some v else s.readReg id :=
  (readReg_writeBack e.dest r v (s.setRob r { e with stage := .commit }) id).trans rfl

/-- Retiring releases the destination's alias entry where it still names the entry. -/
theorem ratAt_retireEntry (r : Nat) (e : RobEntry) (pc v : Word) (s : State) (id : OperandId) :
    (retireEntry r e pc v s).ratAt id =
      if e.dest = .reg id ∧ (s.ratAt id).tag = some r then RatEntry.empty else s.ratAt id :=
  (ratAt_writeBack e.dest r v (s.setRob r { e with stage := .commit }) id).trans rfl

theorem retireEntry_fetchPC (r : Nat) (e : RobEntry) (pc v : Word) (s : State) :
    (retireEntry r e pc v s).fetchPC = s.fetchPC := by
  simp only [retireEntry]; rw [writeBack_eq]; rfl

theorem retireEntry_done (r : Nat) (e : RobEntry) (pc v : Word) (s : State) :
    (retireEntry r e pc v s).done = s.done := by
  simp only [retireEntry]; rw [writeBack_eq]; rfl

/-- The completion check of R282. -/
theorem completionCheck_done (pc : Word) (s : State) :
    (completionCheck pc s).done = true ↔ s.done = true ∨ ∃ p, s.prog = some p ∧ fallThrough pc = p.eopPC := by
  unfold completionCheck
  split
  · simp_all
  · split <;> simp_all

/-- `Recover` leaves nothing in flight (R178, R184). -/
theorem recover_flushed (pc v : Word) (s : State) : Flushed (recover pc v s) := by
  refine ⟨?_, ?_, ?_, ?_⟩
  · intro e he
    obtain ⟨e', -, rfl⟩ := List.mem_map.mp he
    rfl
  · intro st hst
    obtain ⟨st', -, rfl⟩ := List.mem_map.mp hst
    rfl
  · intro u hu
    obtain ⟨u', -, rfl⟩ := List.mem_map.mp hu
    rfl
  · intro id
    simp [recover, State.ratAt]

end Sys2Proof.Machine
end

