-- ==== Sys2Proof/Laws/PerInstr.lean ====
section
/-! SUPPORT. Statements made instruction by instruction. The family `EncodesItsRow` says that the word of a well-formed
instruction lies in its opcode's row of the opcode table: every bit the row fixes has the row's value (R127). -/

namespace Sys2Proof

/-- A row mask as the fields of R112 side by side. -/
theorem rowMask_fields :
    (∀ op ∈ [Opcode.add, .sub, .xor, .and, .mult, .div, .adds, .subs, .mults, .divs], rowMask op =
      (0xFFFFFFFF#32 ++ (0x3F#6 ++ (0x20#6 ++ (0x20#6 ++ (0x20#6 ++ (7#3 ++ 31#5))))))) ∧
    (∀ op ∈ [Opcode.addi, .subi, .xori, .andi, .lw, .lws], rowMask op =
      (0#32 ++ (0x3F#6 ++ (0x20#6 ++ (0x3F#6 ++ (0x20#6 ++ (7#3 ++ 31#5))))))) ∧
    (∀ op ∈ [Opcode.sw, .sws], rowMask op =
      (0#32 ++ (0x3F#6 ++ (0x3F#6 ++ (0x20#6 ++ (0x20#6 ++ (7#3 ++ 31#5))))))) ∧
    (∀ op ∈ [Opcode.beqz, .bnez, .bltz, .bgtz, .blez, .bgez], rowMask op =
      (0#32 ++ (0x3F#6 ++ (0x3F#6 ++ (0x3F#6 ++ (0x20#6 ++ (7#3 ++ 31#5))))))) := by
  decide

/-- The masked word of a record, field by field. -/
theorem packRecord_and (op : Opcode) (d a b : OperandId) (i : Word) (mi : Word) (md ma mb : OperandId) :
    packRecord op d a b i &&& (mi ++ (0x3F#6 ++ (md ++ (mb ++ (ma ++ (7#3 ++ 31#5)))))) =
      ((i &&& mi) ++ (0#6 ++ ((d &&& md) ++ ((b &&& mb) ++ ((a &&& ma) ++ (0#3 ++ op.code)))))) := by
  have h5 : op.code &&& 31#5 = op.code := by cases op <;> rfl
  have e1 : (0#3 ++ op.code) &&& (7#3 ++ 31#5) = 0#3 ++ op.code := by
    rw [BitVec.and_append, h5]; rfl
  have e2 : (a ++ (0#3 ++ op.code)) &&& (ma ++ (7#3 ++ 31#5)) = (a &&& ma) ++ (0#3 ++ op.code) := by
    rw [BitVec.and_append, e1]
  have e3 : (b ++ (a ++ (0#3 ++ op.code))) &&& (mb ++ (ma ++ (7#3 ++ 31#5))) =
      (b &&& mb) ++ ((a &&& ma) ++ (0#3 ++ op.code)) := by rw [BitVec.and_append, e2]
  have e4 : (d ++ (b ++ (a ++ (0#3 ++ op.code)))) &&& (md ++ (mb ++ (ma ++ (7#3 ++ 31#5)))) =
      (d &&& md) ++ ((b &&& mb) ++ ((a &&& ma) ++ (0#3 ++ op.code))) := by rw [BitVec.and_append, e3]
  have e5 : (0#6 ++ (d ++ (b ++ (a ++ (0#3 ++ op.code))))) &&& (0x3F#6 ++ (md ++ (mb ++ (ma ++ (7#3 ++ 31#5))))) =
      0#6 ++ ((d &&& md) ++ ((b &&& mb) ++ ((a &&& ma) ++ (0#3 ++ op.code)))) := by
    rw [BitVec.and_append, e4]; rfl
  have e6 : (i ++ (0#6 ++ (d ++ (b ++ (a ++ (0#3 ++ op.code)))))) &&&
      (mi ++ (0x3F#6 ++ (md ++ (mb ++ (ma ++ (7#3 ++ 31#5)))))) =
      (i &&& mi) ++ (0#6 ++ ((d &&& md) ++ ((b &&& mb) ++ ((a &&& ma) ++ (0#3 ++ op.code))))) := by
    rw [BitVec.and_append, e5]
  exact e6

/-- The file bit of an integer identifier is 0. -/
theorem and_of_isInteger {a : OperandId} (h : a.isInteger = true) : a &&& 0x20#6 = 0#6 := by
  revert a; decide

/-- The file bit of a floating identifier is 1. -/
theorem and_of_isFloating {a : OperandId} (h : a.isFloating = true) : a &&& 0x20#6 = 0x20#6 := by
  revert a; decide

/-- The word of a record lies in its row, from the masked fields. -/
theorem inRow_packRecord (op : Opcode) {d a b : OperandId} {i : Word} (mi : Word) (md ma mb : OperandId)
    (hm : rowMask op = (mi ++ (0x3F#6 ++ (md ++ (mb ++ (ma ++ (7#3 ++ 31#5)))))))
    (i' : Word) (d' a' b' : OperandId) (hi : i &&& mi = i') (hd : d &&& md = d') (ha : a &&& ma = a')
    (hb : b &&& mb = b')
    (hr : rowMatch op = (i' ++ (0#6 ++ (d' ++ (b' ++ (a' ++ (0#3 ++ op.code))))))) :
    inRow op (packRecord op d a b i) = true := by
  have h := packRecord_and op d a b i mi md ma mb
  rw [hi, hd, ha, hb] at h
  unfold inRow
  rw [hm, hr, beq_iff_eq]
  exact h

namespace Laws.EncodesItsRow

/-- The word of a well-formed instruction lies in its opcode's row. -/
def Statement (i : Instr) : Prop := i.wellFormed = true → inRow i.opcode (encode i) = true

/-- Form RRR. -/
theorem of_rrr {op : Opcode} (ho : op ∈ [Opcode.add, .sub, .xor, .and, .mult, .div, .adds, .subs, .mults, .divs])
    (hr : rowMatch op = (0#32 ++ (0#6 ++ (0#6 ++ (0#6 ++ (0#6 ++ (0#3 ++ op.code)))))))
    {d a b : OperandId} (h : (d.isInteger && a.isInteger && b.isInteger) = true) :
    inRow op (packRecord op d a b 0) = true := by
  simp only [Bool.and_eq_true] at h
  exact inRow_packRecord op _ _ _ _ (rowMask_fields.1 op ho) 0 0 0 0 (by decide) (and_of_isInteger h.1.1)
    (and_of_isInteger h.1.2) (and_of_isInteger h.2) hr

/-- Form FFF. -/
theorem of_fff {op : Opcode} (ho : op ∈ [Opcode.add, .sub, .xor, .and, .mult, .div, .adds, .subs, .mults, .divs])
    (hr : rowMatch op = (0#32 ++ (0#6 ++ (0x20#6 ++ (0x20#6 ++ (0x20#6 ++ (0#3 ++ op.code)))))))
    {d a b : OperandId} (h : (d.isFloating && a.isFloating && b.isFloating) = true) :
    inRow op (packRecord op d a b 0) = true := by
  simp only [Bool.and_eq_true] at h
  exact inRow_packRecord op _ _ _ _ (rowMask_fields.1 op ho) 0 32 32 32 (by decide) (and_of_isFloating h.1.1)
    (and_of_isFloating h.1.2) (and_of_isFloating h.2) hr

/-- Forms RRI and LDR. -/
theorem of_rri {op : Opcode} (ho : op ∈ [Opcode.addi, .subi, .xori, .andi, .lw, .lws])
    (hr : rowMatch op = (0#32 ++ (0#6 ++ (0#6 ++ (0#6 ++ (0#6 ++ (0#3 ++ op.code)))))))
    {d a : OperandId} {i : Word} (h : (d.isInteger && a.isInteger) = true) :
    inRow op (packRecord op d a 0 i) = true := by
  simp only [Bool.and_eq_true] at h
  exact inRow_packRecord op _ _ _ _ (rowMask_fields.2.1 op ho) 0 0 0 0 (by simp) (and_of_isInteger h.1)
    (and_of_isInteger h.2) (by decide) hr

/-- Form BR. -/
theorem of_br {op : Opcode} (ho : op ∈ [Opcode.beqz, .bnez, .bltz, .bgtz, .blez, .bgez])
    (hr : rowMatch op = (0#32 ++ (0#6 ++ (0#6 ++ (0#6 ++ (0#6 ++ (0#3 ++ op.code)))))))
    {a : OperandId} {i : Word} (h : a.isInteger = true) : inRow op (packRecord op 0 a 0 i) = true :=
  inRow_packRecord op _ _ _ _ (rowMask_fields.2.2.2 op ho) 0 0 0 0 (by simp) (by decide) (and_of_isInteger h)
    (by decide) hr

theorem add (d a b : OperandId) : Statement (.add d a b) := of_rrr (op := .add) (by decide) (by decide)
theorem sub (d a b : OperandId) : Statement (.sub d a b) := of_rrr (op := .sub) (by decide) (by decide)
theorem xor (d a b : OperandId) : Statement (.xor d a b) := of_rrr (op := .xor) (by decide) (by decide)
theorem and (d a b : OperandId) : Statement (.and d a b) := of_rrr (op := .and) (by decide) (by decide)
theorem mult (d a b : OperandId) : Statement (.mult d a b) := of_rrr (op := .mult) (by decide) (by decide)
theorem div (d a b : OperandId) : Statement (.div d a b) := of_rrr (op := .div) (by decide) (by decide)
theorem addi (d a : OperandId) (i : Word) : Statement (.addi d a i) := of_rri (op := .addi) (by decide) (by decide)
theorem subi (d a : OperandId) (i : Word) : Statement (.subi d a i) := of_rri (op := .subi) (by decide) (by decide)
theorem xori (d a : OperandId) (i : Word) : Statement (.xori d a i) := of_rri (op := .xori) (by decide) (by decide)
theorem andi (d a : OperandId) (i : Word) : Statement (.andi d a i) := of_rri (op := .andi) (by decide) (by decide)
theorem adds (d a b : OperandId) : Statement (.adds d a b) := of_fff (op := .adds) (by decide) (by decide)
theorem subs (d a b : OperandId) : Statement (.subs d a b) := of_fff (op := .subs) (by decide) (by decide)
theorem mults (d a b : OperandId) : Statement (.mults d a b) := of_fff (op := .mults) (by decide) (by decide)
theorem divs (d a b : OperandId) : Statement (.divs d a b) := of_fff (op := .divs) (by decide) (by decide)
theorem lw (d a : OperandId) (i : Word) : Statement (.lw d a i) := of_rri (op := .lw) (by decide) (by decide)

theorem lws (d a : OperandId) (i : Word) : Statement (.lws d a i) := by
  intro h
  simp only [Instr.wellFormed, Bool.and_eq_true] at h
  exact inRow_packRecord .lws _ _ _ _ (rowMask_fields.2.1 .lws (by decide)) 0 32 0 0 (by simp)
    (and_of_isFloating h.1) (and_of_isInteger h.2) (by decide) (by decide)

theorem sw (a b : OperandId) (i : Word) : Statement (.sw a b i) := by
  intro h
  simp only [Instr.wellFormed, Bool.and_eq_true] at h
  exact inRow_packRecord .sw _ _ _ _ (rowMask_fields.2.2.1 .sw (by decide)) 0 0 0 0 (by simp) (by decide)
    (and_of_isInteger h.1) (and_of_isInteger h.2) (by decide)

theorem sws (a b : OperandId) (i : Word) : Statement (.sws a b i) := by
  intro h
  simp only [Instr.wellFormed, Bool.and_eq_true] at h
  exact inRow_packRecord .sws _ _ _ _ (rowMask_fields.2.2.1 .sws (by decide)) 0 0 0 32 (by simp) (by decide)
    (and_of_isInteger h.1) (and_of_isFloating h.2) (by decide)

theorem beqz (a : OperandId) (i : Word) : Statement (.beqz a i) := of_br (op := .beqz) (by decide) (by decide)
theorem bnez (a : OperandId) (i : Word) : Statement (.bnez a i) := of_br (op := .bnez) (by decide) (by decide)
theorem bltz (a : OperandId) (i : Word) : Statement (.bltz a i) := of_br (op := .bltz) (by decide) (by decide)
theorem bgtz (a : OperandId) (i : Word) : Statement (.bgtz a i) := of_br (op := .bgtz) (by decide) (by decide)
theorem blez (a : OperandId) (i : Word) : Statement (.blez a i) := of_br (op := .blez) (by decide) (by decide)
theorem bgez (a : OperandId) (i : Word) : Statement (.bgez a i) := of_br (op := .bgez) (by decide) (by decide)

theorem jump (i : Word) : Statement (.jump i) := fun _ =>
  inRow_packRecord .jump 0 0x3F 0x3F 0x3F (by decide) 0 0 0 0 (by simp) (by decide) (by decide) (by decide)
    (by decide)

theorem eop : Statement .eop := fun _ => by decide

end Laws.EncodesItsRow

end Sys2Proof
end

