-- ==== Sys2Proof/Laws/Run.lean ====
section
/-! SUPPORT. What `step` and `run` do to a stopped block, and how calls of `run` compose. -/

namespace Sys2Proof.Machine

/-- A loaded block that has completed or faulted stays as it is. -/
theorem step_of_stopped {s : State} (hp : s.prog.isSome = true) (h : s.stopped = true) : step s = .next s := by
  obtain ⟨p, hp⟩ := Option.isSome_iff_exists.mp hp
  simp [step, advance, hp, h]

theorem runCycles_of_stopped {s : State} (hp : s.prog.isSome = true) (h : s.stopped = true) (n : Nat) :
    runCycles n s = .next s := by
  induction n with
  | zero => rfl
  | succ n ih => simp only [runCycles, step_of_stopped hp h, ih]

/-- Cycles run one after another. -/
theorem runCycles_add {m n : Nat} {s t : State} (h : runCycles m s = .next t) :
    runCycles (m + n) s = runCycles n t := by
  induction m generalizing s with
  | zero =>
    simp only [runCycles, Host.Outcome.next.injEq] at h
    rw [h, Nat.zero_add]
  | succ m ih =>
    rw [Nat.succ_add]
    simp only [runCycles] at h ⊢
    split at h
    · exact ih h
    · simp at h
    · simp at h

/-- With a budget `run` returns what its cycles leave. -/
theorem runReturns_of_pos {n : Nat} {s : State} {answer : Except ConfigError (Status × State)}
    (hp : s.prog.isSome = true) (hn : 0 < n) :
    RunReturns n s answer ↔ ∃ t, runCycles n s = .next t ∧ answer = .ok (t.status, t) := by
  obtain ⟨p, hp⟩ := Option.isSome_iff_exists.mp hp
  simp only [RunReturns, hp, Nat.ne_of_gt hn, if_false]
  exact ⟨fun ⟨m, t, h, hm, ha⟩ => ⟨t, hm ▸ h, ha⟩, fun ⟨t, h, ha⟩ => ⟨n, t, h, rfl, ha⟩⟩

/-- Without one it returns where the block has completed or faulted. -/
theorem runReturns_zero {s : State} {answer : Except ConfigError (Status × State)} (hp : s.prog.isSome = true) :
    RunReturns 0 s answer ↔ ∃ m t, runCycles m s = .next t ∧ t.stopped = true ∧ answer = .ok (t.status, t) := by
  obtain ⟨p, hp⟩ := Option.isSome_iff_exists.mp hp
  simp [RunReturns, hp]

end Sys2Proof.Machine
end

