-- ==== Sys2Proof/Tests/Slice0.lean ====
section
/-! SUPPORT. The model's own tests. Expected results come from the spec: words written from the encoding tables
(R112, R116, R117), the vectors of 95_test_vectors.md section 2, and the tables of the rules. Each `witness_<Name>` shows a
concrete state and operands that meet the hypotheses of the statement `Obligations.<Name>`, one for each clause. -/

namespace Sys2Proof.Machine.Tests

open Sys2Proof Sys2Proof.Machine

/-! ### Well-formedness: for each form and field, a term with a field of the wrong file is refused (R117) -/

theorem test_wf_rrr_dst : (Instr.add 35 1 2).wellFormed = false := by decide
theorem test_wf_rrr_src1 : (Instr.mult 3 33 2).wellFormed = false := by decide
theorem test_wf_rrr_src2 : (Instr.div 3 1 32).wellFormed = false := by decide
theorem test_wf_rri_dst : (Instr.addi 63 1 5).wellFormed = false := by decide
theorem test_wf_rri_src1 : (Instr.andi 3 32 5).wellFormed = false := by decide
theorem test_wf_fff_dst : (Instr.adds 31 33 34).wellFormed = false := by decide
theorem test_wf_fff_src1 : (Instr.mults 35 1 34).wellFormed = false := by decide
theorem test_wf_fff_src2 : (Instr.divs 35 33 0).wellFormed = false := by decide
theorem test_wf_lw_dst : (Instr.lw 32 1 0).wellFormed = false := by decide
theorem test_wf_lw_base : (Instr.lw 1 32 0).wellFormed = false := by decide
theorem test_wf_lws_dst : (Instr.lws 1 1 0).wellFormed = false := by decide
theorem test_wf_lws_base : (Instr.lws 33 33 0).wellFormed = false := by decide
theorem test_wf_sw_base : (Instr.sw 33 1 0).wellFormed = false := by decide
theorem test_wf_sw_data : (Instr.sw 1 33 0).wellFormed = false := by decide
theorem test_wf_sws_base : (Instr.sws 33 33 0).wellFormed = false := by decide
theorem test_wf_sws_data : (Instr.sws 1 1 0).wellFormed = false := by decide
theorem test_wf_branch : (Instr.bgez 32 8).wellFormed = false := by decide
theorem test_wf_accepts : (Instr.sws 31 63 0xFFFFFFFF).wellFormed = true := by decide

/-! ### Decoding: one word per row, its fields put together from R112, R116 and R117 -/

theorem test_decode_add : decode 0x0000000000344100 = .ok (.add 3 1 17) := by decide
theorem test_decode_sub : decode 0x0000000000A70601 = .ok (.sub 10 6 28) := by decide
theorem test_decode_xor : decode 0x000000000111CB02 = .ok (.xor 17 11 7) := by decide
theorem test_decode_and : decode 0x0000000001849003 = .ok (.and 24 16 18) := by decide
theorem test_decode_mult : decode 0x0000000001F75504 = .ok (.mult 31 21 29) := by decide
theorem test_decode_div : decode 0x0000000000621A05 = .ok (.div 6 26 8) := by decide
theorem test_decode_addi : decode 0x8606060600D01F06 = .ok (.addi 13 31 0x86060606) := by decide
theorem test_decode_subi : decode 0x8707070701400407 = .ok (.subi 20 4 0x87070707) := by decide
theorem test_decode_xori : decode 0x8808080801B00908 = .ok (.xori 27 9 0x88080808) := by decide
theorem test_decode_andi : decode 0x8909090900200E09 = .ok (.andi 2 14 0x89090909) := by decide
theorem test_decode_adds : decode 0x00000000029FF30A = .ok (.adds 41 51 63) := by decide
theorem test_decode_subs : decode 0x00000000030AB80B = .ok (.subs 48 56 42) := by decide
theorem test_decode_mults : decode 0x00000000037D7D0C = .ok (.mults 55 61 53) := by decide
theorem test_decode_divs : decode 0x0000000003E8220D = .ok (.divs 62 34 32) := by decide
theorem test_decode_lw : decode 0x8E0E0E0E0050070E = .ok (.lw 5 7 0x8e0e0e0e) := by decide
theorem test_decode_lws : decode 0x8F0F0F0F02C00C0F = .ok (.lws 44 12 0x8f0f0f0f) := by decide
theorem test_decode_sw : decode 0x9010101000005110 = .ok (.sw 17 1 0x90101010) := by decide
theorem test_decode_sws : decode 0x91111111000B1611 = .ok (.sws 22 44 0x91111111) := by decide
theorem test_decode_beqz : decode 0x9212121200001B12 = .ok (.beqz 27 0x92121212) := by decide
theorem test_decode_bnez : decode 0x9313131300000013 = .ok (.bnez 0 0x93131313) := by decide
theorem test_decode_bltz : decode 0x9414141400000514 = .ok (.bltz 5 0x94141414) := by decide
theorem test_decode_bgtz : decode 0x9515151500000A15 = .ok (.bgtz 10 0x95151515) := by decide
theorem test_decode_blez : decode 0x9616161600000F16 = .ok (.blez 15 0x96161616) := by decide
theorem test_decode_bgez : decode 0x9717171700001417 = .ok (.bgez 20 0x97171717) := by decide
theorem test_decode_jump : decode 0x9818181800000018 = .ok (.jump 0x98181818) := by decide
theorem test_decode_eop : decode 0x0000000000000019 = .ok (.eop) := by decide

/-! ### Refused words (R115, R117, R123, R124) -/

theorem test_decode_reserved_code : decode 0x000000000000001A = .error .unknownOpcode := by decide
theorem test_decode_last_reserved_code : decode 0xFFFFFFFFFFFFFFFF = .error .unknownOpcode := by decide
theorem test_decode_reserved_low : decode 0x0000000000308120 = .error .badOperand := by decide
theorem test_decode_reserved_high : decode 0x0000000004308100 = .error .badOperand := by decide
theorem test_decode_wrong_file : decode 0x0000000002308100 = .error .badOperand := by decide
theorem test_decode_unused_immediate : decode 0x0000000100308100 = .error .badOperand := by decide
theorem test_decode_unused_src2 : decode 0x0000000100104107 = .error .badOperand := by decide
theorem test_decode_unused_dst : decode 0x0000000800000118 = .error .badOperand := by decide
theorem test_decode_eop_field : decode 0x0000000000000119 = .error .badOperand := by decide

/-- The table's numbering is the packed word's (bit 0 of the record is bit 0 of the row). -/
theorem test_table_word : decodeTableWord 64 0x0000000800090111 = some (.sws 1 36 8) := by decide

/-! ### Small states -/

/-- A busy station at address 0x100, linked to `unit`, with entry 0 as its destination. -/
def servedStation (op : Opcode) (j k : Slot) (imm : Word) (ea : Option Word) : Station :=
  { cls := .int, pc := some 0x100, op := op, j := j, k := k, dest := 0, imm := imm, ea := ea, ready := true,
    executing := true }

/-- A unit in use for the instruction at 0x100, its countdown over. -/
def doneUnit : FuncUnit := { cls := .integer, latency := 1, count := 0, pc := some 0x100, inUse := true }

/-- The entry of the instruction at 0x100, as Issue and Dispatch leave it. -/
def runningEntry (op : Opcode) (dest : Dest) : RobEntry :=
  { pc := some 0x100, ready := false, stage := .execute, dest := dest, op := op, value := none }

/-- The same entry with its result. -/
def finishedEntry (op : Opcode) (dest : Dest) (v : Word) : RobEntry :=
  { pc := some 0x100, ready := true, stage := .writeResult, dest := dest, op := op, value := some v }

/-- The memory of 95_test_vectors.md section 2.3. -/
def vectorMemory : Memory :=
  [(0x10, 0x78), (0x11, 0x56), (0x12, 0x34), (0x13, 0x12), (0x20, 0x00), (0x21, 0x00), (0x22, 0xC0), (0x23, 0x3F)]

/-- A block whose one station completes now. -/
def completing (op : Opcode) (j k : Slot) (imm : Word) (ea : Option Word) : State :=
  { State.reset with
    rs := [servedStation op j k imm ea]
    fu := [doneUnit]
    rob := [runningEntry op .noDest]
    mem := vectorMemory
    serving := .writeResult 0 0 }

/-- The value Write-result leaves in the entry. -/
def published (o : Result) : Option Word :=
  match o with
  | .next s => (s.robAt 0).value
  | .fault _ => none
  | .refused _ => none

/-- The runtime fault a stage recorded. -/
def recorded (o : Result) : Option FaultRecord :=
  match o with
  | .next s => s.fault
  | .fault _ => none
  | .refused _ => none

/-- The bytes of the word at `a` after a stage, lowest address first. -/
def bytesAfter (o : Result) (a : Nat) : List (Option Byte) :=
  match o with
  | .next s => [s.mem.byte? a, s.mem.byte? (a + 1), s.mem.byte? (a + 2), s.mem.byte? (a + 3)]
  | .fault _ => []
  | .refused _ => []

/-- A slot holding a word. -/
def word (v : Word) : Slot := .val (some v)

/-- Write-result of a two-source instruction. -/
def compute2 (i : Instr) (a b : Slot) : Result := exec i (completing i.opcode a b 0 none)

/-- Write-result of a one-source instruction with an immediate. -/
def compute1 (i : Instr) (a : Slot) (imm : Word) : Result := exec i (completing i.opcode a .absent imm none)

/-- Write-result of a load or store at an effective address. -/
def access (i : Instr) (data : Slot) (ea : Word) : Result :=
  exec i (completing i.opcode (word 0) data 0 (some ea))

/-! ### What each instruction computes (95_test_vectors.md section 2) -/

theorem test_add_wraps : published (compute2 (.add 3 1 2) (word 0x7FFFFFFF) (word 1)) = some 0x80000000 := by decide
theorem test_add_undefined : recorded (compute2 (.add 3 1 2) (.val none) (word 1)) =
    some { code := .undefinedOperand, pc := 0x100, info := none } := by decide
theorem test_sub_order : published (compute2 (.sub 3 1 2) (word 0) (word 1)) = some 0xFFFFFFFF := by decide
theorem test_xor : published (compute2 (.xor 3 1 2) (word 0xF0F0F0F0) (word 0xFF00FF00)) = some 0x0FF00FF0 := by decide
theorem test_and : published (compute2 (.and 3 1 2) (word 0xF0F0F0F0) (word 0xFF00FF00)) = some 0xF000F000 := by decide
theorem test_mult_negative : published (compute2 (.mult 3 1 2) (word 0xFFFFFFFF) (word 3)) = some 0xFFFFFFFD := by decide
theorem test_mult_low_half : published (compute2 (.mult 3 1 2) (word 0x80000000) (word 0xFFFFFFFF)) =
    some 0x80000000 := by decide
theorem test_div_truncates : published (compute2 (.div 3 1 2) (word 0xFFFFFFF9) (word 2)) = some 0xFFFFFFFD := by decide
theorem test_div_undefined_first : recorded (compute2 (.div 3 1 2) (.val none) (word 0)) =
    some { code := .undefinedOperand, pc := 0x100, info := none } := by decide
theorem test_addi : published (compute1 (.addi 3 1 0) (word 5) 0xFFFFFFFF) = some 4 := by decide
theorem test_subi : published (compute1 (.subi 3 1 0) (word 0) 0x80000000) = some 0x80000000 := by decide
theorem test_xori : published (compute1 (.xori 3 1 0) (word 0x0000FFFF) 0xFFFFFFFF) = some 0xFFFF0000 := by decide
theorem test_andi : published (compute1 (.andi 3 1 0) (word 0x12345678) 0x000000FF) = some 0x78 := by decide

theorem test_adds_tie_to_even : published (compute2 (.adds 35 33 34) (word 0x3F800000) (word 0x33800000)) =
    some 0x3F800000 := by decide
theorem test_adds_above_tie : published (compute2 (.adds 35 33 34) (word 0x3F800000) (word 0x33800001)) =
    some 0x3F800001 := by decide
theorem test_subs : published (compute2 (.subs 35 33 34) (word 0x40700000) (word 0x3FC00000)) = some 0x40100000 := by decide
theorem test_subs_negative_zero : published (compute2 (.subs 35 33 34) (word 0x80000000) (word 0)) =
    some 0x80000000 := by decide
theorem test_mults : published (compute2 (.mults 35 33 34) (word 0x3FC00000) (word 0xC0000000)) = some 0xC0400000 := by decide
theorem test_mults_subnormal : published (compute2 (.mults 35 33 34) (word 0x00800000) (word 0x3F000000)) =
    some 0x00400000 := by decide
theorem test_divs_rounds_up : published (compute2 (.divs 35 33 34) (word 0x3F800000) (word 0x40400000)) =
    some 0x3EAAAAAB := by decide
theorem test_divs_by_zero : published (compute2 (.divs 35 33 34) (word 0x3F800000) (word 0x80000000)) =
    some 0xFF800000 := by decide

theorem test_lw : published (access (.lw 1 2 0) .absent 0x10) = some 0x12345678 := by decide
theorem test_lw_misaligned_first : recorded (access (.lw 1 2 0) .absent 0x42) =
    some { code := .misalignedAccess, pc := 0x100, info := some 0x42 } := by decide
theorem test_lws : published (access (.lws 33 3 0) .absent 0x20) = some 0x3FC00000 := by decide
theorem test_lws_undefined_byte : recorded (access (.lws 33 3 0) .absent 0x3C) =
    some { code := .undefinedMemory, pc := 0x100, info := some 0x3C } := by decide
theorem test_sw : bytesAfter (access (.sw 2 5 0) (word 0xCAFEBABE) 0x14) 0x14 =
    [some 0xBE, some 0xBA, some 0xFE, some 0xCA] := by decide
theorem test_sw_bounds : recorded (access (.sw 2 5 0) (word 1) 0x40) =
    some { code := .memoryBounds, pc := 0x100, info := some 0x40 } := by decide
theorem test_sws : bytesAfter (access (.sws 2 32 0) (word 0x40400000) 0x18) 0x18 =
    [some 0x00, some 0x00, some 0x40, some 0x40] := by decide
theorem test_sws_data_first : recorded (access (.sws 2 32 0) (.val none) 0x15) =
    some { code := .undefinedOperand, pc := 0x100, info := none } := by decide

theorem test_beqz : published (compute1 (.beqz 1 0) (word 0) 0xFFFFFFF0) = some 0x0F0 := by decide
theorem test_beqz_not_taken : published (compute1 (.beqz 1 0) (word 0x80000000) 0xFFFFFFF0) = some 0x104 := by decide
theorem test_bnez : published (compute1 (.bnez 1 0) (word 0x80000000) 0xFFFFFFF0) = some 0x0F0 := by decide
theorem test_bnez_not_taken : published (compute1 (.bnez 1 0) (word 0) 0xFFFFFFF0) = some 0x104 := by decide
theorem test_bltz : published (compute1 (.bltz 1 0) (word 0x80000000) 0xFFFFFFF0) = some 0x0F0 := by decide
theorem test_bltz_not_taken : published (compute1 (.bltz 1 0) (word 0x7FFFFFFF) 0xFFFFFFF0) = some 0x104 := by decide
theorem test_bgtz : published (compute1 (.bgtz 1 0) (word 0x7FFFFFFF) 0xFFFFFFF0) = some 0x0F0 := by decide
theorem test_bgtz_not_taken : published (compute1 (.bgtz 1 0) (word 0) 0xFFFFFFF0) = some 0x104 := by decide
theorem test_blez : published (compute1 (.blez 1 0) (word 0) 0xFFFFFFF0) = some 0x0F0 := by decide
theorem test_blez_not_taken : published (compute1 (.blez 1 0) (word 1) 0xFFFFFFF0) = some 0x104 := by decide
theorem test_bgez : published (compute1 (.bgez 1 0) (word 0) 0xFFFFFFF0) = some 0x0F0 := by decide
theorem test_bgez_not_taken : published (compute1 (.bgez 1 0) (word 0xFFFFFFFF) 0xFFFFFFF0) = some 0x104 := by decide
theorem test_jump : published (compute1 (.jump 0) .absent 0xFFFFFF00) = some 0 := by decide

/-! ### One step from reset -/

/-- The state after one step, where the step answers one. -/
def after (s : State) : State :=
  match step s with
  | .next t => t
  | .fault _ => s
  | .refused _ => s

/-- Row ADD, placed where the very next step fetches, issues into entry 0 and the first INT station. -/
theorem test_step_runs_placed_add :
    (after (State.reset.withFetchWord 64 0x308100)).robAt 0 =
      { pc := some 0, ready := false, stage := .issue, dest := .reg 3, op := .add, value := none } := by decide
/-- Row EOP is fetched, never issued, and stops Issue (R144). -/
theorem test_step_runs_placed_eop :
    after (State.reset.withFetchWord 64 0x19) =
      { State.reset with prog := some { base := 0, records := [.eop] }, cycles := 1 } := by decide

/-! ### Witnesses: encoding, construction, load -/

theorem witness_DecodeOfEncode : (Instr.sws 31 63 0xFFFFFFFF).wellFormed = true := by decide
theorem witness_EncodeOfDecode : decode 0x0000000800090111 = .ok (.sws 1 36 8) := by decide
theorem witness_DecodeReadsTheTableRows_in : inRow .sws 0x0000000800090111 = true := by decide
theorem witness_DecodeReadsTheTableRows_reserved : ∀ op, inRow op 0x000000000000001A = false := by
  intro op; cases op <;> decide
theorem witness_DecodeReadsTheTableRows_badOperand : ∀ op, inRow op 0x0000000000000119 = false := by
  intro op; cases op <;> decide
theorem witness_ConstructionChecksTheConfiguration :
    construct Config.standard = .ok State.reset ∧
    construct { Config.standard with robDepth := 0 } = .error (.configRange .robDepth) ∧
    construct { Config.standard with issueWidth := 0 } = .error (.configRange .issueWidth) ∧
    construct { Config.standard with rsClassOf := [] } = .error (.configRange .rsClassOf) ∧
    construct { Config.standard with fuClassOf := [] } = .error (.configRange .fuClassOf) :=
  ⟨rfl, rfl, rfl, by decide, by decide⟩

/-- A program of one record and its marker, loaded at address 0 with R1 = 1 and R2 = 2. -/
def running (i : Instr) : State :=
  ((({ State.reset with prog := some { base := 0, records := [i, .eop] } }).writeReg 1 1).writeReg 2 2)

theorem witness_ResetGivesEveryTableValue :
    construct Config.standard = .ok State.reset ∧
    (running (.add 3 1 2)).prog = some { base := 0, records := [.add 3 1 2, .eop] } := ⟨rfl, rfl⟩

/-- The two words of the program `ADD R3, R1, R2; EOP`. -/
def addProgram : List PackedWord := [0x0000000000308100, 0x0000000000000019]

theorem witness_LoadRefusesWithTheFirstFailure_unknown :
    [0x0000000000308100#64, 0x1A#64][1]? = some 0x1A#64 ∧
    (∀ m v, m < 1 → [0x0000000000308100#64, 0x1A#64][m]? = some v → ∃ i, decode v = .ok i) ∧
    decode 0x1A = .error .unknownOpcode := by
  refine ⟨rfl, fun m v hm hv => ?_, by decide⟩
  obtain rfl : m = 0 := by omega
  simp only [List.getElem?_cons_zero, Option.some.injEq] at hv
  subst hv
  exact ⟨.add 3 1 2, by decide⟩
theorem witness_LoadRefusesWithTheFirstFailure_badOperand : decode 0x119 = .error .badOperand := by decide
theorem witness_LoadRefusesWithTheFirstFailure_empty :
    ([] : List PackedWord).map decode = ([] : List Instr).map Except.ok ∧ ([] : List Instr).count .eop ≠ 1 :=
  ⟨rfl, by decide⟩
theorem witness_LoadRefusesWithTheFirstFailure_position :
    [0x19#64, 0x308100#64].map decode = [Instr.eop, .add 3 1 2].map Except.ok ∧
    [Instr.eop, .add 3 1 2].count .eop = 1 ∧ [Instr.eop, .add 3 1 2].getLast? ≠ some .eop := by decide
theorem witness_LoadRefusesWithTheFirstFailure_shape :
    addProgram.map decode = [Instr.add 3 1 2, .eop].map Except.ok ∧ [Instr.add 3 1 2, .eop].count .eop = 1 ∧
    [Instr.add 3 1 2, .eop].getLast? = some .eop ∧
    2 ^ 32 < (0xFFFFFFFC#32).toNat + 4 * 2 ∧ (0xFFFFFFF8#32).toNat + 4 * 2 ≤ 2 ^ 32 := by decide
theorem witness_LoadedRecordsAreTheDecodedWords :
    loadProgram addProgram 0xFFFFFFF8 State.reset =
      .ok (hostReset { State.reset with prog := some { base := 0xFFFFFFF8, records := [.add 3 1 2, .eop] } }) ∧
    addProgram[1]? = some 0x19 ∧ decode 0x19 = .ok .eop := ⟨by rfl, rfl, by decide⟩

/-! ### Witnesses: the step -/

/-- A block whose fetch address and program base are given. -/
def fetching (base fetchPC : Word) : State :=
  { State.reset with prog := some { base := base, records := [.add 3 1 2, .eop] }, fetchPC := fetchPC }

theorem witness_StepRunsTheFetchedRecord :
    Running (running (.add 3 1 2)) ∧ (running (.add 3 1 2)).serving = .issue ∧
    (running (.add 3 1 2)).cfg.issueWidth = 1 + 1 ∧ (running (.add 3 1 2)).fetch = some (.add 3 1 2) ∧
    (fetching 0x10 0xC).fetch = none ∧
    ∃ t, exec (.add 3 1 2) { running (.add 3 1 2) with cycles := 1 } = .next t :=
  ⟨⟨rfl, rfl, rfl⟩, rfl, rfl, rfl, rfl, _, rfl⟩
theorem witness_PlacedInstructionIssuesNext : (Instr.divs 63 32 33).wellFormed = true ∧ Instr.divs 63 32 33 ≠ .eop := by
  decide

/-- A stopped block: completed, and faulted. -/
theorem witness_CycleRunsThePhasesInOrder_stopped :
    State.prog { running .eop with done := true } ≠ none ∧
    (State.fault { running .eop with fault := some { code := .fetchFault, pc := 8, info := none } }).isSome = true :=
  ⟨nofun, rfl⟩

/-- A block that dispatches `LW` with an undefined base. -/
def undefinedBase : State :=
  { running .eop with
    rs := [{ servedStation .lw (.val none) .absent 0 none with executing := false }]
    fu := [FuncUnit.free .memory 2]
    rob := [runningEntry .lw (.reg 1)] }

/-- A block whose division by zero completes. -/
def dividing : State :=
  { running .eop with
    rs := [servedStation .div (word 7) (word 0) 0 none]
    fu := [doneUnit]
    rob := [runningEntry .div (.reg 1)] }

theorem witness_CycleRunsThePhasesInOrder_issueFault :
    ∃ s a, Running s ∧ issuePhase s.cfg.issueWidth { s with cycles := s.cycles + 1 } = .next a ∧
      a.fault.isSome = true :=
  ⟨{ running .eop with fetchPC := 8 }, _, ⟨rfl, rfl, rfl⟩, rfl, rfl⟩
theorem witness_CycleRunsThePhasesInOrder_dispatchFault :
    ∃ a b, Running undefinedBase ∧
      issuePhase undefinedBase.cfg.issueWidth { undefinedBase with cycles := undefinedBase.cycles + 1 } = .next a ∧
      a.fault = none ∧ dispatchPhase a = .next b ∧ b.fault.isSome = true :=
  ⟨_, _, ⟨rfl, rfl, rfl⟩, rfl, rfl, rfl, rfl⟩
theorem witness_CycleRunsThePhasesInOrder_writeResultFault :
    ∃ a b c, Running dividing ∧
      issuePhase dividing.cfg.issueWidth { dividing with cycles := dividing.cycles + 1 } = .next a ∧
      a.fault = none ∧ dispatchPhase a = .next b ∧ b.fault = none ∧ writeResultPhase (tickPhase b) = .next c ∧
      c.fault.isSome = true :=
  ⟨_, _, _, ⟨rfl, rfl, rfl⟩, rfl, rfl, rfl, rfl, rfl, rfl⟩
theorem witness_CycleRunsThePhasesInOrder_whole :
    ∃ a b c d, Running (running (.add 3 1 2)) ∧
      issuePhase (running (.add 3 1 2)).cfg.issueWidth { running (.add 3 1 2) with cycles := 0 + 1 } = .next a ∧
      a.fault = none ∧ dispatchPhase a = .next b ∧ b.fault = none ∧ writeResultPhase (tickPhase b) = .next c ∧
      c.fault = none ∧ commitPhase c = .next d ∧ d.fault = none :=
  ⟨_, _, _, _, ⟨rfl, rfl, rfl⟩, rfl, rfl, rfl, rfl, rfl, rfl, rfl, rfl⟩
theorem witness_StepWithoutProgramIsRefused : State.reset.prog = none := rfl

theorem witness_FetchFaultEndsTheCycle :
    Running (fetching 0x10 0xC) ∧ Running (fetching 0x10 0x12) ∧ Running (fetching 0x10 0x18) ∧ 0 < (fetching 0x10 0xC).cfg.issueWidth ∧
    (0xC#32).toNat < (0x10#32).toNat ∧ ((0x12#32).toNat - (0x10#32).toNat) % 4 ≠ 0 ∧
    [Instr.add 3 1 2, .eop].length ≤ ((0x18#32).toNat - (0x10#32).toNat) / 4 :=
  ⟨⟨rfl, rfl, rfl⟩, ⟨rfl, rfl, rfl⟩, ⟨rfl, rfl, rfl⟩, by decide, by decide, by decide, by decide⟩

/-! ### Witnesses: Issue -/

theorem witness_IssueAllocatesAndRenames :
    AtIssue (running (.add 1 1 2)) .add 0 ∧ Instr.add 1 1 2 ≠ .eop ∧
    (running (.add 1 1 2)).robTail < (running (.add 1 1 2)).rob.length := ⟨⟨rfl, rfl⟩, by decide, by decide⟩

/-- The self-alias tie-break reads the architectural register although an older producer is in flight (R153). -/
theorem test_issue_self_alias :
    (∃ t, exec (.addi 1 1 5) ((running .eop).setRat 1 { tag := some 7, op := some .lw, pc := some 0 }) = .next t ∧
      t.rs.head?.map Station.j = some (.val (some 1))) := ⟨_, rfl, rfl⟩

theorem witness_IssueStallsWithoutSlot_full :
    State.serving ((running .eop).setRob 0 (runningEntry .add .noDest)) = .issue ∧
    (running .eop).cfg.rsClass .add = some .int ∧
    (((running .eop).setRob 0 (runningEntry .add .noDest)).robAt 0).busy = true := ⟨rfl, rfl, rfl⟩
theorem witness_IssueStallsWithoutSlot_stations :
    State.serving undefinedBase = .issue ∧ undefinedBase.cfg.rsClass .add = some .int ∧
    ∀ st ∈ undefinedBase.rs, st.cls = .int → st.busy = true := by decide
theorem witness_EndOfProgramNeverIssues : (running .eop).serving = .issue ∧ (running .eop).fetch = some .eop := ⟨rfl, rfl⟩

/-- A block in which entry 3 produces register 5. -/
def pending (e : RobEntry) : State :=
  ((running .eop).setRob 3 e).setRat 5 { tag := some 3, op := some .lw, pc := some 0x100 }

theorem witness_ResolveFollowsTheProducer :
    ((running .eop).ratAt 5).tag = none ∧
    ((pending (runningEntry .lw (.reg 5))).ratAt 5).tag = some 3 ∧ (3 : Nat) ≠ 4 ∧
    ((pending (runningEntry .lw (.reg 5))).robAt 3).ready = false ∧
    ((pending (finishedEntry .lw (.reg 5) 9)).robAt 3).ready = true := by decide

/-! ### Witnesses: Execute-dispatch and Unit-tick -/

/-- A block whose one station is handled by Dispatch for its one unit. -/
def dispatching (op : Opcode) (j : Slot) (imm : Word) : State :=
  { State.reset with
    rs := [{ servedStation op j .absent imm none with executing := false }]
    fu := [FuncUnit.free .memory 2]
    rob := [runningEntry op .noDest]
    serving := .dispatch 0 0 }

theorem witness_DispatchTakesTheUnit :
    AtDispatch (dispatching .jump .absent 8) 0 0 { servedStation .jump .absent .absent 8 none with executing := false }
      (FuncUnit.free .memory 2) 0x100 ∧ isMemory .jump = false ∧
    AtDispatch (dispatching .lw (word 0x10) 0xFFFFFFF0) 0 0
      { servedStation .lw (word 0x10) .absent 0xFFFFFFF0 none with executing := false } (FuncUnit.free .memory 2) 0x100 ∧
    isMemory .lw = true := ⟨⟨rfl, rfl, rfl, rfl⟩, rfl, ⟨rfl, rfl, rfl, rfl⟩, rfl⟩
/-- Base 0x10 with offset −16 gives address 0 (95_test_vectors.md section 2.3). -/
theorem test_dispatch_address :
    ∃ t, exec (.lw 1 2 0) (dispatching .lw (word 0x10) 0xFFFFFFF0) = .next t ∧ t.rs.head?.map Station.ea = some (some 0) :=
  ⟨_, rfl, rfl⟩
theorem witness_UndefinedBaseFaultsAtDispatch :
    AtDispatch (dispatching .sws (.val none) 0) 0 0
      { servedStation .sws (.val none) .absent 0 none with executing := false } (FuncUnit.free .memory 2) 0x100 ∧
    isMemory .sws = true := ⟨⟨rfl, rfl, rfl, rfl⟩, rfl⟩
/-- Two candidates, the younger at the lower position: the older is visited first. -/
theorem witness_DispatchVisitsOldestFirst :
    dispatchCandidates { undefinedBase with
      rs := [{ servedStation .add (word 1) (word 2) 0 none with executing := false },
        { servedStation .sub (word 1) (word 2) 0 none with executing := false, pc := some 0xFC }] } = [1, 0] := by decide
theorem witness_CandidateTakesTheLowestFreeUnit :
    undefinedBase.rs[0]? = some { servedStation .lw (.val none) .absent 0 none with executing := false } ∧
    undefinedBase.cfg.fuClass .lw = some .memory ∧ undefinedBase.fu[0]? = some (FuncUnit.free .memory 2) ∧
    (FuncUnit.free .memory 2).cls = .memory ∧ (FuncUnit.free .memory 2).inUse = false ∧
    (∀ y u', y < 0 → undefinedBase.fu[y]? = some u' → u'.cls = FuClass.memory → u'.inUse = true) ∧
    (∀ u ∈ [{ doneUnit with cls := .memory }], u.cls = .memory → u.inUse = true) ∧
    ∃ t, exec (Opcode.inFlight .lw) { undefinedBase with serving := .dispatch 0 0 } = .next t :=
  ⟨rfl, rfl, rfl, rfl, rfl, nofun, by decide, _, rfl⟩
theorem witness_TickCountsEveryBusyUnitDown : dividing.fu[0]? = some doneUnit := rfl
theorem witness_LatencyCountsToCompletion :
    State.fu { dividing with fu := [{ doneUnit with count := 2 }] } = [{ doneUnit with count := 2 }] ∧
    doneUnit.inUse = true ∧ doneUnit.latency = 1 ∧ 2 = 1 + 1 ∧ 1 ≤ 1 := by decide

/-! ### Witnesses: Write-result -/

/-- The common premise of the statements about results is met by every station, with any slots, in `completing`. -/
theorem at_writeResult (op : Opcode) (j k : Slot) (imm : Word) (ea : Option Word) :
    AtWriteResult (completing op j k imm ea) 0 0 (servedStation op j k imm ea) doneUnit 0x100 := ⟨rfl, rfl, rfl, rfl⟩

theorem witness_IntegerRegisterResults :
    AtWriteResult (completing .add (word 0xFFFFFFFF) (word 1) 0 none) 0 0
      (servedStation .add (word 0xFFFFFFFF) (word 1) 0 none) doneUnit 0x100 ∧
    (servedStation .add (word 0xFFFFFFFF) (word 1) 0 none).j = .val (some 0xFFFFFFFF) ∧
    (servedStation .add (word 0xFFFFFFFF) (word 1) 0 none).k = .val (some 1) := ⟨at_writeResult .., rfl, rfl⟩
theorem witness_DivideTruncatesTowardZero :
    AtWriteResult (completing .div (word 0x80000000) (word 1) 0 none) 0 0
      (servedStation .div (word 0x80000000) (word 1) 0 none) doneUnit 0x100 ∧
    (1 : Word).toInt ≠ 0 ∧ ¬ ((0x80000000 : Word).toInt = -2 ^ 31 ∧ (1 : Word).toInt = -1) :=
  ⟨at_writeResult .., by decide, by decide⟩
theorem witness_DivideFaults :
    AtWriteResult (completing .div (word 0x80000000) (word 0xFFFFFFFF) 0 none) 0 0
      (servedStation .div (word 0x80000000) (word 0xFFFFFFFF) 0 none) doneUnit 0x100 ∧
    (0x80000000 : Word).toInt = -2 ^ 31 ∧ (0xFFFFFFFF : Word).toInt = -1 ∧
    AtWriteResult (completing .div (word 7) (word 0) 0 none) 0 0 (servedStation .div (word 7) (word 0) 0 none) doneUnit
      0x100 := ⟨at_writeResult .., by decide, by decide, at_writeResult ..⟩
theorem witness_IntegerImmediateResults :
    AtWriteResult (completing .subi (word 0) .absent 0x80000000 none) 0 0
      (servedStation .subi (word 0) .absent 0x80000000 none) doneUnit 0x100 ∧
    (servedStation .subi (word 0) .absent 0x80000000 none).j = .val (some 0) := ⟨at_writeResult .., rfl⟩
theorem witness_FloatFiniteResultsAreNearestEven :
    AtWriteResult (completing .divs (word 0x7F7FFFFF) (word 1) 0 none) 0 0
      (servedStation .divs (word 0x7F7FFFFF) (word 1) 0 none) doneUnit 0x100 ∧
    isFinite 0x7F7FFFFF = true ∧ isFinite 1 = true ∧ magnitude 1 ≠ 0 ∧
    unitValue 0x7F7FFFFF + unitValue 1 ≠ 0 ∧ unitValue 1 + unitValue 0x80000001 = 0 ∧
    unitValue 0x7F7FFFFF - unitValue 1 ≠ 0 ∧ unitValue 1 - unitValue 1 = 0 :=
  ⟨at_writeResult .., by decide, by decide, by decide, by decide, by decide, by decide, by decide⟩
theorem witness_FloatSpecialResults :
    AtWriteResult (completing .adds (word 0x7F800001) (word 0x7F800000) 0 none) 0 0
      (servedStation .adds (word 0x7F800001) (word 0x7F800000) 0 none) doneUnit 0x100 ∧
    isNan 0x7F800001 = true ∧ isInfinite 0x7F800000 = true ∧ isInfinite 0xFF800000 = true ∧
    isFinite 0x80000000 = true ∧ magnitude 0x80000000 = 0 ∧ isFinite 0x7F7FFFFF = true ∧ magnitude 0x7F7FFFFF ≠ 0 ∧
    signBit 0x7F800000 ≠ signBit 0xFF800000 :=
  ⟨at_writeResult .., by decide, by decide, by decide, by decide, by decide, by decide, by decide, by decide⟩

/-- A block whose load or store completes at the last word of memory. -/
def atTop (op : Opcode) (data : Slot) (ea : Word) (mem : Memory) : State :=
  { completing op (word 0) data 0 (some ea) with mem := mem }

/-- Every such access, at any address, is at Write-result in `atTop`. -/
theorem at_top (op : Opcode) (data : Slot) (ea : Word) (mem : Memory) :
    AtWriteResult (atTop op data ea mem) 0 0 (servedStation op (word 0) data 0 (some ea)) doneUnit 0x100 :=
  ⟨rfl, rfl, rfl, rfl⟩

theorem witness_LoadsPublishTheMemoryWord :
    AtWriteResult (atTop .lw .absent 60 [(60, 1), (61, 2), (62, 3), (63, 4)]) 0 0
      (servedStation .lw (word 0) .absent 0 (some 60)) doneUnit 0x100 ∧
    (60#32).toNat % 4 = 0 ∧ (60#32).toNat + 4 ≤ Config.standard.memSize ∧
    Memory.byte? [(60, 1), (61, 2), (62, 3), (63, 4)] 60 = some 1 ∧
    Memory.byte? [(60, 1), (61, 2), (62, 3), (63, 4)] 61 = some 2 ∧
    Memory.byte? [(60, 1), (61, 2), (62, 3), (63, 4)] 62 = some 3 ∧
    Memory.byte? [(60, 1), (61, 2), (62, 3), (63, 4)] 63 = some 4 :=
  ⟨⟨rfl, rfl, rfl, rfl⟩, by decide, by decide, rfl, rfl, rfl, rfl⟩
theorem witness_LoadFaultsInOrder :
    AtWriteResult (atTop .lws .absent 60 [(60, 1), (61, 2), (62, 3)]) 0 0
      (servedStation .lws (word 0) .absent 0 (some 60)) doneUnit 0x100 ∧
    (61#32).toNat % 4 ≠ 0 ∧ (64#32).toNat % 4 = 0 ∧ Config.standard.memSize < (64#32).toNat + 4 ∧
    (60#32).toNat % 4 = 0 ∧ (60#32).toNat + 4 ≤ Config.standard.memSize ∧
    ∃ k, k < 4 ∧ Memory.byte? [(60, 1), (61, 2), (62, 3)] ((60#32).toNat + k) = none :=
  ⟨⟨rfl, rfl, rfl, rfl⟩, by decide, by decide, by decide, by decide, by decide, 3, by decide, rfl⟩
theorem witness_StoresWriteTheirWord :
    AtWriteResult (atTop .sw (word 5) 60 []) 0 0 (servedStation .sw (word 0) (word 5) 0 (some 60)) doneUnit 0x100 ∧
    (servedStation .sw (word 0) (word 5) 0 (some 60)).k = .val (some 5) ∧ (60#32).toNat % 4 = 0 ∧
    (60#32).toNat + 4 ≤ Config.standard.memSize := ⟨⟨rfl, rfl, rfl, rfl⟩, rfl, by decide, by decide⟩
theorem witness_StoreFaultsInOrder :
    AtWriteResult (atTop .sws (.val none) 61 []) 0 0 (servedStation .sws (word 0) (.val none) 0 (some 61)) doneUnit 0x100 ∧
    AtWriteResult (atTop .sws (word 5) 61 []) 0 0 (servedStation .sws (word 0) (word 5) 0 (some 61)) doneUnit 0x100 ∧
    (61#32).toNat % 4 ≠ 0 ∧ (64#32).toNat % 4 = 0 ∧ Config.standard.memSize < (64#32).toNat + 4 :=
  ⟨⟨rfl, rfl, rfl, rfl⟩, ⟨rfl, rfl, rfl, rfl⟩, by decide, by decide, by decide⟩
theorem witness_UndefinedOperandFaults :
    AtWriteResult (completing .div (.val none) (word 0) 0 none) 0 0 (servedStation .div (.val none) (word 0) 0 none)
      doneUnit 0x100 ∧ isMemory .div = false ∧ (firstSource (.div 3 1 2)).isSome = true ∧
    AtWriteResult (completing .div (word 7) (.val none) 0 none) 0 0 (servedStation .div (word 7) (.val none) 0 none)
      doneUnit 0x100 ∧ (secondSource (.div 3 1 2)).isSome = true :=
  ⟨at_writeResult .., rfl, rfl, at_writeResult .., rfl⟩
theorem witness_ControlPublishesTheNextPc :
    AtWriteResult (completing .bgez (word 0x80000000) .absent 8 none) 0 0
      (servedStation .bgez (word 0x80000000) .absent 8 none) doneUnit 0x100 ∧
    (servedStation .bgez (word 0x80000000) .absent 8 none).j = .val (some 0x80000000) := ⟨at_writeResult .., rfl⟩
theorem witness_CompletionsRunOldestFirst :
    completingUnits { dividing with fu := [doneUnit, { doneUnit with pc := some 0xFC }] } = [1, 0] := by decide
theorem witness_CompletingUnitServesItsStation :
    dividing.fu[0]? = some doneUnit ∧ dividing.rs[0]? = some (servedStation .div (word 7) (word 0) 0 none) ∧
    (servedStation .div (word 7) (word 0) 0 none).busy = true ∧
    (servedStation .div (word 7) (word 0) 0 none).pc = doneUnit.pc ∧
    (∀ q st', q ≠ 0 → dividing.rs[q]? = some st' → st'.busy = true → st'.pc ≠ doneUnit.pc) ∧
    completingUnits dividing = [0] ∧
    ∃ t, exec (Opcode.inFlight .div) { dividing with serving := .writeResult 0 0 } = .next t := by
  refine ⟨rfl, rfl, rfl, rfl, fun q st' hq h => ?_, by decide, _, rfl⟩
  cases q with
  | zero => exact absurd rfl hq
  | succ q => exact absurd h (by simp [dividing])
theorem witness_BroadcastFillsWaitingSlots :
    (Station.free .int).busy = false ∧ (servedStation .add (.wait 2) (word 1) 0 none).busy = true ∧
    (servedStation .add (.wait 2) (word 1) 0 none).j = .wait 2 ∧
    ((servedStation .add (.wait 2) (word 1) 0 none).capture 2 9).j = word 9 ∧
    ((servedStation .add (.wait 2) (word 1) 0 none).capture 2 9).k = word 1 ∧
    ¬ ((servedStation .add (.wait 2) (word 1) 0 none).j = .wait 3 ∨
      (servedStation .add (.wait 2) (word 1) 0 none).k = .wait 3) := by decide
theorem witness_BroadcastFillsWaitingSlots_oneSlot :
    (servedStation .add (.wait 2) (.wait 3) 0 none).busy = true ∧
    (servedStation .add (.wait 2) (.wait 3) 0 none).j = .wait 2 ∧
    ((servedStation .add (.wait 2) (.wait 3) 0 none).capture 2 9).k = .wait 3 := by decide
theorem witness_SweepReadiesEntriesWithValues : dividing.rob[0]? = some (runningEntry .div (.reg 1)) := rfl

/-! ### Witnesses: Commit and the end of the cycle -/

/-- A block whose entry 0 commits, and is named by the alias entry of R1. -/
def committing (op : Opcode) (dest : Dest) (v : Word) : State :=
  { (running .eop).setRat 1 { tag := some 0, op := some op, pc := some 0x100 } with
    rob := [finishedEntry op dest v]
    serving := .commit 0 }

theorem witness_CommitTakesTheOldestReadyEntry :
    (∀ e ∈ State.reset.rob, e.busy = false) ∧
    (committing .add (.reg 1) 5).rob[0]? = some (finishedEntry .add (.reg 1) 5) ∧
    (finishedEntry .add (.reg 1) 5).pc = some 0x100 ∧
    (∀ q e' pc', q ≠ 0 → (committing .add (.reg 1) 5).rob[q]? = some e' → e'.pc = some pc' →
      (0x100#32).toNat < pc'.toNat) ∧
    (finishedEntry .add (.reg 1) 5).ready = true ∧
    ∃ t, exec (Opcode.inFlight .add) { committing .add (.reg 1) 5 with serving := .commit 0 } = .next t := by
  refine ⟨by decide, rfl, rfl, fun q e' pc' hq h => ?_, rfl, _, rfl⟩
  cases q with
  | zero => exact absurd rfl hq
  | succ q => exact absurd h (by simp [committing])
theorem witness_CommitWritesTheDestination :
    AtCommit (committing .add (.reg 1) 5) 0 (finishedEntry .add (.reg 1) 5) 0x100 5 ∧ isControl .add = false ∧
    ((committing .add (.reg 1) 5).ratAt 1).tag = some 0 ∧
    AtCommit (committing .adds (.reg 63) 5) 0 (finishedEntry .adds (.reg 63) 5) 0x100 5 ∧
    ((committing .adds (.reg 63) 5).ratAt 63).tag = none := ⟨⟨rfl, rfl, rfl, rfl⟩, rfl, rfl, ⟨rfl, rfl, rfl, rfl⟩, rfl⟩
theorem witness_CommitOfStoreOnlyRetires :
    AtCommit (committing .sws .store 5) 0 (finishedEntry .sws .store 5) 0x100 5 ∧ isStore .sws = true :=
  ⟨⟨rfl, rfl, rfl, rfl⟩, rfl⟩
theorem witness_CorrectControlOnlyRetires :
    AtCommit (committing .beqz .noDest 0x104) 0 (finishedEntry .beqz .noDest 0x104) 0x100 0x104 ∧
    isControl .beqz = true ∧ (0x104 : Word) = 0x100 + 4 := ⟨⟨rfl, rfl, rfl, rfl⟩, rfl, rfl⟩
theorem witness_MispredictionFlushesEverything :
    AtCommit (committing .jump .noDest 0x100) 0 (finishedEntry .jump .noDest 0x100) 0x100 0x100 ∧
    isControl .jump = true ∧ (0x100 : Word) ≠ 0x100 + 4 := ⟨⟨rfl, rfl, rfl, rfl⟩, rfl, by decide⟩
theorem witness_EndOfCycleRecomputesReady :
    undefinedBase.rs[0]? = some { servedStation .lw (.val none) .absent 0 none with executing := false } ∧
    dividing.rs[0]? = some (servedStation .div (word 7) (word 0) 0 none) ∧
    State.reset.rs[0]? = some (Station.free .int) := ⟨rfl, rfl, rfl⟩
theorem witness_LaterStagesDependOnTheOpcodeAlone : (committing .add (.reg 1) 5).serving ≠ .issue := by decide

/-! ### Witnesses: every step -/

/-- `ADD R3, R1, R2; EOP`, loaded, with R1 = 1 and R2 = 2. -/
def loaded : State := running (.add 3 1 2)

theorem loaded_steps : ∃ t, step loaded = .next t ∧ t.fault = none ∧ t.fetchPC = 4 ∧ t.cycles = 1 := ⟨_, rfl, rfl, rfl, rfl⟩

theorem witness_StepKeepsShape : Shape loaded ∧ ∃ t, step loaded = .next t := by
  refine ⟨?_, _, rfl⟩
  constructor <;> decide

theorem loaded_ratAt (id : OperandId) : loaded.ratAt id = RatEntry.empty := by
  change (Vector.replicate 64 RatEntry.empty)[id.toNat] = RatEntry.empty
  simp

theorem witness_StepKeepsTagsSound : TagSound loaded ∧ ∃ t, step loaded = .next t ∧ t.fault = none := by
  refine ⟨?_, _, rfl, rfl⟩
  constructor
  case waits => intro st hst hb; exact absurd hb (by revert st; decide)
  case ratNames => intro id t h; rw [loaded_ratAt] at h; exact absurd h (by simp [RatEntry.empty])
  all_goals decide

theorem witness_CoherentBlockNeverStops : Coherent loaded := by
  constructor
  case program => exact ⟨_, rfl, rfl⟩
  case stationPcsBelow => intro st hst pc hpc; rw [(by decide : ∀ st ∈ loaded.rs, st.pc = none) st hst] at hpc; exact nomatch hpc
  case entryPcsBelow => intro e he pc hpc; rw [(by decide : ∀ e ∈ loaded.rob, e.pc = none) e he] at hpc; exact nomatch hpc
  all_goals decide

theorem witness_LoadedBlockIsCoherent :
    construct Config.standard = .ok State.reset ∧
    (∃ t, loadProgram addProgram 0xFFFFFFF8 State.reset = .ok t) ∧ Coherent loaded ∧
    (∃ t, hostWriteReg 63 5 loaded = .ok t) ∧ ∃ t, hostWriteMem 60 5 loaded = .ok t :=
  ⟨rfl, ⟨_, rfl⟩, witness_CoherentBlockNeverStops, ⟨_, rfl⟩, _, rfl⟩

/-- A block about to commit `ADD R1` in its next step. -/
def retiring : State := { committing .add (.reg 1) 5 with serving := .issue, robTail := 0 }

theorem witness_StepWritesAtMostOneRegister :
    ∃ t, step retiring = .next t ∧ t.retired = 1 ∧ t.readReg 1 = some 5 := ⟨_, rfl, rfl, rfl⟩
/-- A loaded block whose first station was freed after it held a store. -/
def afterStore : State := { loaded with rs := (servedStation .sw (word 0) (word 1) 0 (some 0)).release :: loaded.rs.tail }

theorem witness_OnlyStoresWriteMemory :
    (∀ st ∈ afterStore.rs, st.busy = true → isStore st.op = false) ∧ (∃ st ∈ afterStore.rs, isStore st.op = true) ∧
    ∃ t, step afterStore = .next t := ⟨by decide, by decide, _, rfl⟩
/-- A block about to commit a taken branch in its next step. -/
def redirecting : State := { committing .beqz .noDest 0 with serving := .issue, robTail := 0 }

theorem witness_FetchMovesByIssueOrRedirect :
    (∃ t, step loaded = .next t ∧ t.fetchPC = 4 ∧ t.squashLog = [] ∧ t.robTail = 1 ∧ t.busyEntries = 1) ∧
    loaded.robTail < loaded.cfg.robDepth ∧
    ∃ t, step redirecting = .next t ∧ t.squashLog = [{ branchPc := 0x100, target := 0, squashed := [] }] :=
  ⟨⟨_, rfl, rfl, rfl, rfl, rfl⟩, by decide, _, rfl, rfl⟩
theorem witness_StepCountsCyclesAndRetirements : Running loaded ∧ ∃ t, step loaded = .next t := ⟨⟨rfl, rfl, rfl⟩, _, rfl⟩
theorem witness_RegisterAccessors :
    hostReadReg 64 loaded = .error (.badAccessor 64) ∧ (63 : Nat) < 64 ∧ hostReadReg 1 loaded = .ok (some 1) :=
  ⟨rfl, by decide, rfl⟩
theorem witness_MemoryAccessors :
    ((61#32).toNat % 4 ≠ 0 ∨ loaded.cfg.memSize < (61#32).toNat + 4) ∧
    ((64#32).toNat % 4 ≠ 0 ∨ loaded.cfg.memSize < (64#32).toNat + 4) ∧
    (60#32).toNat % 4 = 0 ∧ (60#32).toNat + 4 ≤ loaded.cfg.memSize ∧ loaded.mem.byte? 63 = none := by decide
theorem witness_RunAnswersWithinItsBudget :
    State.reset.prog = none ∧ loaded.prog.isSome = true ∧ State.stopped { loaded with done := true } = true ∧
    Coherent loaded ∧ ∃ x t, RunReturns 1 loaded (.ok (x, t)) :=
  ⟨rfl, rfl, rfl, witness_CoherentBlockNeverStops, _, _, 1, _, rfl, rfl, rfl⟩
/-- Scenario of 95_test_vectors.md section 1.2, its first instruction alone: `run(2)` spends its budget, and `run(0)` answers
where the program completes, in cycle 3. -/
theorem test_run :
    (∃ t, RunReturns 2 loaded (.ok (.budget, t)) ∧ t.cycles = 2) ∧
    ∃ t, RunReturns 0 loaded (.ok (.done, t)) ∧ t.cycles = 3 ∧ t.readReg 3 = some 3 :=
  ⟨⟨_, ⟨2, _, rfl, rfl, rfl⟩, rfl⟩, _, ⟨3, _, rfl, rfl, rfl⟩, rfl, rfl⟩

end Sys2Proof.Machine.Tests
end

/-! SUPPORT. The parts of a cycle as moves between states: what Issue of one record, one dispatch visit, one completing
unit and Commit can do, each told once with the resulting state written out. The invariants of 10_state.md are proved
move by move. -/

namespace Sys2Proof.Machine

/-! ### The stage operations as one record update -/

/-- The entry that Issue of `i` allocates (R148). -/
def issuedEntry (s : State) (i : Instr) : RobEntry :=
  { pc := some s.fetchPC, ready := false, stage := .issue, dest := destOf i, op := i.opcode, value := none }

/-- What Issue of `i` makes of the station it takes (R149, R152). -/
def issuedStation (s : State) (i : Instr) (st : Station) : Station :=
  { cls := st.cls, pc := some s.fetchPC, op := i.opcode, j := issuedSlot s i (firstSource i),
    k := issuedSlot s i (secondSource i), dest := s.robTail, imm := immediateOf i, ea := none, ready := false,
    executing := false }

/-- The RAT after Issue of `i` (R151). -/
def issuedRat (s : State) (i : Instr) : Vector RatEntry 64 :=
  match destOf i with
  | .reg d => s.rat.set d.toNat { tag := some s.robTail, op := some i.opcode, pc := some s.fetchPC } d.isLt
  | .store => s.rat
  | .noDest => s.rat

theorem renameDest_rat (s : State) (i : Instr) : (renameDest i.opcode (destOf i) s.robTail s).rat = issuedRat s i := by
  unfold issuedRat
  cases destOf i <;> rfl

/-- The state after Issue of `i` into the station at `p`, for any tail; `issueAt_eq_issueInstr` ties it to the model. -/
def issueInstr (s : State) (i : Instr) (p : Nat) : State :=
  { s with
    rob := s.rob.set s.robTail (issuedEntry s i)
    robTail := (s.robTail + 1) % s.cfg.robDepth
    rat := issuedRat s i
    rs := s.rs.modify p (issuedStation s i)
    fetchPC := fallThrough s.fetchPC }

theorem issueAt_eq_issueInstr (s : State) (i : Instr) (p : Nat) :
    issueAt i.opcode (destOf i) (firstSource i) (secondSource i) (immediateOf i) p s = issueInstr s i p := by
  have hj := resolve_issuedSlot s i (firstSource i) (issuedEntry s i)
  have hk := resolve_issuedSlot s i (secondSource i) (issuedEntry s i)
  have hren : ∀ e, renameDest i.opcode (destOf i) s.robTail
      { s.setRob s.robTail e with robTail := (s.robTail + 1) % s.cfg.robDepth } =
      { s.setRob s.robTail e with
        robTail := (s.robTail + 1) % s.cfg.robDepth, rat := (renameDest i.opcode (destOf i) s.robTail s).rat } := by
    intro e
    cases destOf i <;> rfl
  have hstation : ∀ st : Station, issuedStation s i st = _ := fun st =>
    congrArg₂ (fun j k : Slot =>
      { cls := st.cls, pc := some s.fetchPC, op := i.opcode, j := j, k := k, dest := s.robTail, imm := immediateOf i,
        ea := none, ready := false, executing := false : Station }) hj.symm hk.symm
  have hpool : (issueAt i.opcode (destOf i) (firstSource i) (secondSource i) (immediateOf i) p s).rs =
      s.rs.modify p (issuedStation s i) := by
    have hrs : ∀ e, (renameDest i.opcode (destOf i) s.robTail
        { s.setRob s.robTail e with robTail := (s.robTail + 1) % s.cfg.robDepth }).rs = s.rs :=
      fun e => by rw [hren]; rfl
    simp only [issueAt, hrs]
    exact congrArg (s.rs.modify p) (funext hstation).symm
  unfold issueInstr
  rw [← hpool, ← renameDest_rat]
  simp only [issueAt]
  rw [hren]
  rfl

/-- Issue changes the RAT entry of the destination only (R151). -/
theorem ratAt_issueInstr (s : State) (i : Instr) (p : Nat) (id : OperandId) :
    (issueInstr s i p).ratAt id =
      if destOf i = .reg id then { tag := some s.robTail, op := some i.opcode, pc := some s.fetchPC }
      else s.ratAt id := by
  rw [← ratAt_renameDest i.opcode (destOf i) s.robTail s id]
  simp only [State.ratAt, issueInstr, renameDest_rat]

/-- The cursor plays no part in the write-back. -/
theorem writeBack_serving (dest : Dest) (r : Nat) (v : Word) (s : State) (w : Serving) :
    writeBack dest r v { s with serving := w } = { writeBack dest r v s with serving := w } := by
  cases dest with
  | reg d =>
    have hwrite : State.writeReg { s with serving := w } d v = { s.writeReg d v with serving := w } := by
      unfold State.writeReg; split <;> rfl
    have hrat : State.ratAt { s.writeReg d v with serving := w } d = (s.writeReg d v).ratAt d := rfl
    simp only [writeBack, hwrite, hrat]
    split <;> rfl
  | store => rfl
  | noDest => rfl

/-- The cursor plays no part in retiring. -/
theorem retireEntry_serving (r : Nat) (e : RobEntry) (pc v : Word) (s : State) (w : Serving) :
    retireEntry r e pc v { s with serving := w } = { retireEntry r e pc v s with serving := w } := by
  have hwritten : writeBack e.dest r v (State.setRob { s with serving := w } r { e with stage := .commit }) = _ :=
    writeBack_serving e.dest r v (s.setRob r { e with stage := .commit }) w
  simp only [retireEntry]
  rw [hwritten]
  rfl

/-- Retiring clears the entry, logs and counts it, and otherwise changes registers and RAT only (R173). -/
theorem retireEntry_eq {s : State} {r : Nat} {e : RobEntry} (he : s.rob[r]? = some e) (pc v : Word) :
    retireEntry r e pc v s =
      { s with
        r := (retireEntry r e pc v s).r, f := (retireEntry r e pc v s).f, rat := (retireEntry r e pc v s).rat
        rob := s.rob.set r e.clear, retLog := s.retLog ++ [(pc, e.op)], retired := s.retired + 1 } := by
  have hlt : r < s.rob.length := (List.getElem?_eq_some_iff.mp he).1
  have hread : (writeBack e.dest r v (s.setRob r { e with stage := .commit })).robAt r =
      { e with stage := .commit } := by
    rw [robAt_writeBack, robAt_setRob, if_pos ⟨rfl, hlt⟩]
  have hclear : (s.rob.set r { e with stage := .commit }).set r e.clear = s.rob.set r e.clear := List.set_set ..
  have hrob : (retireEntry r e pc v s).rob = s.rob.set r e.clear := by
    rw [← hclear]
    simp only [retireEntry]
    refine (congrArg (fun x : RobEntry => List.set _ r x.clear) hread).trans ?_
    rw [writeBack_eq]
    rfl
  rw [← hrob]
  simp only [retireEntry]
  rw [writeBack_eq]
  rfl

end Sys2Proof.Machine

/-! SUPPORT. The moves themselves, each with the state it leads to, and the cycle as a run of moves around Commit. -/

namespace Sys2Proof.Machine

/-! ### The moves of a cycle -/

/-- What Issue does with the record `i` at the fetch address (R143 to R155). -/
inductive IssueMove (i : Instr) (s : State) : State → Prop
  /-- The end marker, or a stall. -/
  | stays : IssueMove i s { s with serving := .issue }
  | issued {p : Nat} (hi : i ≠ .eop) (hslot : issueSlot i.opcode s = some p) :
      IssueMove i s { issueInstr s i p with serving := .issue }

/-- What a dispatch visit to the station at `p` does (R156 to R159). -/
inductive DispatchMove (p : Nat) (s : State) : State → Prop
  /-- No unit is free. -/
  | skipped : DispatchMove p s s
  /-- The station holds the end marker, which no run reaches. -/
  | stays : DispatchMove p s { s with serving := .issue }
  | faulted (f : FaultRecord) : DispatchMove p s { s with fault := some f, serving := .issue }
  | taken {x : Nat} {st : Station} {u : FuncUnit} {ea : Option Word} (hst : s.rs[p]? = some st) (hbusy : st.busy = true)
      (hu : s.fu[x]? = some u) (hfree : u.inUse = false) (hea : isMemory st.op = true → ea.isSome = true) :
      DispatchMove p s { s with
        rs := s.rs.set p { st with ea := ea, executing := true }
        fu := s.fu.set x { u with inUse := true, pc := st.pc, count := u.latency + 1 }
        rob := s.rob.set st.dest { s.robAt st.dest with stage := .execute }
        serving := .issue }

/-- What the completion of the unit at `x` does (R162 to R170). -/
inductive CompleteMove (x : Nat) (s : State) : State → Prop
  /-- The station holds the end marker, which no run reaches. -/
  | stays : CompleteMove x s { s with serving := .issue }
  | faulted (f : FaultRecord) : CompleteMove x s { s with fault := some f, serving := .issue }
  | published {p : Nat} {st : Station} {u : FuncUnit} {v : Word} {m : Memory} (hst : s.rs[p]? = some st)
      (hbusy : st.busy = true) (hpc : st.pc = u.pc) (hu : s.fu[x]? = some u)
      (hmem : m = s.mem ∨ ∃ a : Word, inBounds s.cfg.memSize a = true ∧ m = s.mem.setWord a.toNat v) :
      CompleteMove x s { s with
        rs := (s.rs.map (Station.capture st.dest v)).set p st.release
        fu := s.fu.set x u.release
        rob := s.rob.set st.dest { s.robAt st.dest with value := some v, stage := .writeResult }
        mem := m
        serving := .issue }

/-- What Commit does (R171 to R179). -/
inductive CommitMove (s : State) : State → Prop
  /-- Nothing is in flight, or the oldest entry is not ready. -/
  | skipped : CommitMove s s
  /-- The entry holds the end marker, which no run reaches. -/
  | stays : CommitMove s { s with serving := .issue }
  | retired {r : Nat} {e : RobEntry} {pc v : Word} {done : Bool} (he : s.rob[r]? = some e) (hpc : e.pc = some pc)
      (hv : e.value = some v) : CommitMove s { retireEntry r e pc v s with done := done, serving := .issue }
  | flushed {r : Nat} {e : RobEntry} {pc v : Word} (he : s.rob[r]? = some e) (hpc : e.pc = some pc)
      (hv : e.value = some v) : CommitMove s { recover pc v (retireEntry r e pc v s) with serving := .issue }

theorem issueMove_of_serve {i : Instr} {s t : State} (h : serve .issue i s = .next t) : IssueMove i s t := by
  obtain ⟨t', he, rfl⟩ := serve_next h
  by_cases hi : i = .eop
  · subst hi
    rw [exec_eop, Host.Outcome.next.injEq] at he
    exact he ▸ .stays
  · rw [exec_issue hi rfl] at he
    obtain ⟨-, rfl⟩ | ⟨p, hslot, rfl⟩ := issueRecord_next he
    · exact .stays
    · rw [issueAt_eq_issueInstr]
      exact IssueMove.issued (s := s) hi hslot

/-- The free unit a class has is not in use. -/
theorem inUse_of_freeUnit {s : State} {k : FuClass} {x : Nat} (h : s.freeUnit k = some x) :
    ∃ u, s.fu[x]? = some u ∧ u.inUse = false := by
  unfold State.freeUnit at h
  obtain ⟨hx, hfree, -⟩ := List.findIdx?_eq_some_iff_getElem.mp h
  simp only [Bool.and_eq_true, Bool.not_eq_true'] at hfree
  exact ⟨s.fu[x], List.getElem?_eq_getElem hx, hfree.2⟩

theorem dispatchMove_of_visit {p : Nat} {s t : State} (h : dispatchStation p s = .next t) : DispatchMove p s t := by
  obtain rfl | ⟨st, k, x, hst, -, hx, h⟩ := dispatchStation_next h
  · exact .skipped
  obtain ⟨u, hu, hfree⟩ := inUse_of_freeUnit hx
  obtain ⟨t', he, rfl⟩ := serve_next h
  by_cases hop : st.op = .eop
  · rw [hop] at he
    obtain rfl : _ = t' := by simpa [Opcode.inFlight, exec_eop] using he
    exact .stays
  rw [exec_dispatch (inFlight_ne_eop hop) rfl, inFlight_opcode] at he
  split at he
  · obtain ⟨st', u', pc, hst', hu', hpc, ⟨base, -, rfl⟩ | ⟨-, rfl⟩⟩ := takeUnitAddressed_next he
    · obtain rfl : st = st' := Option.some.inj (hst.symm.trans hst')
      obtain rfl : u = u' := Option.some.inj (hu.symm.trans hu')
      exact .taken hst (by simp [Station.busy, hpc]) hu hfree fun _ => rfl
    · exact .faulted _
  · rename_i hmem
    obtain ⟨st', u', hst', hu', hbusy, rfl⟩ := takeUnit_next he
    obtain rfl : st = st' := Option.some.inj (hst.symm.trans hst')
    obtain rfl : u = u' := Option.some.inj (hu.symm.trans hu')
    exact .taken hst hbusy hu hfree fun h => absurd h hmem

/-- The stations a unit can serve: the busy ones with its program counter. -/
theorem mem_servedStations {s : State} {pc : Option Word} {st : Station} {p : Nat} :
    (st, p) ∈ servedStations s pc ↔ s.rs[p]? = some st ∧ st.busy = true ∧ st.pc = pc := by
  simp [servedStations, List.mem_zipIdx_iff_getElem?]

theorem finishAt_eq (s : State) (p x : Nat) (st : Station) (u : FuncUnit) (v : Word) :
    finishAt p x st u v s =
      { s with
        rs := (s.rs.map (Station.capture st.dest v)).set p st.release
        fu := s.fu.set x u.release
        rob := s.rob.set st.dest { s.robAt st.dest with value := some v, stage := .writeResult } } := rfl

theorem completeMove_of_visit {x : Nat} {s t : State} (h : completeUnit x s = .next t) : CompleteMove x s t := by
  obtain ⟨u, st, p, hu, hserved, h⟩ := completeUnit_next h
  obtain ⟨hst, hbusy, hpcu⟩ : s.rs[p]? = some st ∧ st.busy = true ∧ st.pc = u.pc :=
    mem_servedStations.mp (hserved ▸ List.mem_singleton_self _)
  obtain ⟨t', he, rfl⟩ := serve_next h
  by_cases hop : st.op = .eop
  · rw [hop] at he
    obtain rfl : _ = t' := by simpa [Opcode.inFlight, exec_eop] using he
    exact .stays
  rw [exec_writeResult (inFlight_ne_eop hop) rfl, inFlight_opcode] at he
  obtain ⟨st', u', pc, hst', hu', hpc, ⟨v, m, hc, rfl⟩ | ⟨code, info, -, rfl⟩⟩ := writeResult_next he
  · obtain rfl : st = st' := Option.some.inj (hst.symm.trans hst')
    obtain rfl : u = u' := Option.some.inj (hu.symm.trans hu')
    have hmem : m = s.mem ∨ ∃ a : Word, inBounds s.cfg.memSize a = true ∧ m = s.mem.setWord a.toNat v := by
      obtain hm | ⟨-, a, -, -, hin, hm⟩ := computeOf_memory hc
      · exact .inl hm
      · exact .inr ⟨a, hin, hm⟩
    rw [finishAt_eq]
    exact CompleteMove.published (s := s) (v := v) hst hbusy hpcu hu hmem
  · exact .faulted _

theorem commitMove_of_phase {s t : State} (h : commitPhase s = .next t) : CommitMove s t := by
  obtain rfl | ⟨-, r, -, -, -, h⟩ := commitPhase_next h
  · exact .skipped
  obtain ⟨t', he, rfl⟩ := serve_next h
  by_cases hop : (s.robAt r).op = .eop
  · rw [hop] at he
    obtain rfl : _ = t' := by simpa [Opcode.inFlight, exec_eop] using he
    exact .stays
  rw [exec_commit (inFlight_ne_eop hop) rfl] at he
  obtain ⟨e, pc, v, hentry, hpc, hv, ⟨-, -, rfl⟩ | ⟨-, rfl⟩⟩ := commitEntry_next he
  · rw [retireEntry_serving]
    exact CommitMove.flushed (s := s) hentry hpc hv
  · rw [completionCheck_eq, retireEntry_serving]
    exact CommitMove.retired (s := s) hentry hpc hv

/-! ### From the moves to the step -/

/-- A property that Issue of one record and a fetch fault keep is kept by Issue. -/
theorem issuePhase_keeps_of_move {P : State → Prop} (hissue : ∀ i s t, P s → IssueMove i s t → P t)
    (hfault : ∀ s f, P s → P { s with fault := some f }) {n : Nat} {s t : State} (hs : P s) (hf : s.fault = none)
    (h : issuePhase n s = .next t) : P t :=
  issuePhase_keeps (P := P) (fun i s t hs _ _ ht => hissue i s t hs (issueMove_of_serve ht))
    (fun s _ hs _ _ ht => raise_next ht ▸ hfault s _ hs) n s t hs hf h

/-- A cycle, seen from its Commit (R140, R142): a property that holds after Issue and that the moves before Commit keep
holds of the state that Commit meets, and after Commit only the end of the cycle comes. A fault before Commit counts as a
Commit that does nothing. -/
theorem cycle_commits {P : State → Prop} {s s' : State}
    (hissue : ∀ a, issuePhase s.cfg.issueWidth { s with cycles := s.cycles + 1 } = .next a → P a)
    (hdispatch : ∀ p s t, P s → DispatchMove p s t → P t)
    (htick : ∀ s, P s → P (tickPhase s))
    (hcomplete : ∀ x s t, P s → CompleteMove x s t → P t)
    (hsweep : ∀ s, P s → P (readySweep s))
    (h : cycle s = .next s') :
    ∃ c d, P c ∧ CommitMove c d ∧ (s' = d ∨ s' = endOfCycle d) := by
  obtain ⟨a, ha, h⟩ := cycle_next h
  have hPa := hissue a ha
  obtain ⟨-, rfl⟩ | ⟨hfa, b, hb, h⟩ := h
  · exact ⟨_, _, hPa, .skipped, .inl rfl⟩
  have hPb : P b :=
    inTurn_keeps (fun p s t hs _ ht => hdispatch p s t hs (dispatchMove_of_visit ht)) _ _ _ hPa hfa hb
  obtain ⟨-, rfl⟩ | ⟨hfb, c, hc, h⟩ := h
  · exact ⟨_, _, hPb, .skipped, .inl rfl⟩
  have hPc : P c := by
    obtain ⟨c', hc', hcase⟩ := andThen_next hc
    have hPc' : P c' :=
      inTurn_keeps (fun x s t hs _ ht => hcomplete x s t hs (completeMove_of_visit ht)) _ _ _ (htick b hPb) hfb hc'
    obtain ⟨-, rfl⟩ | ⟨-, hswept⟩ := hcase
    · exact hPc'
    · exact Host.Outcome.next.inj hswept ▸ hsweep c' hPc'
  obtain ⟨-, rfl⟩ | ⟨-, d, hd, h⟩ := h
  · exact ⟨_, _, hPc, .skipped, .inl rfl⟩
  obtain ⟨-, rfl⟩ | ⟨-, rfl⟩ := h
  · exact ⟨c, _, hPc, commitMove_of_phase hd, .inl rfl⟩
  · exact ⟨c, d, hPc, commitMove_of_phase hd, .inr rfl⟩

end Sys2Proof.Machine

/-! PROOFS of O54 and O57: registers, counters and logs over a step. -/

namespace Sys2Proof.Machine

/-! ### What the moves before Commit leave unchanged -/

/-- Configuration, program, registers, counters and logs are unchanged: what holds of every move before Commit. -/
structure Steady (s t : State) : Prop where
  cfg : t.cfg = s.cfg
  prog : t.prog = s.prog
  intRegs : t.r = s.r
  floatRegs : t.f = s.f
  cycles : t.cycles = s.cycles
  retired : t.retired = s.retired
  retLog : t.retLog = s.retLog
  squashLog : t.squashLog = s.squashLog

theorem Steady.refl (s : State) : Steady s s := ⟨rfl, rfl, rfl, rfl, rfl, rfl, rfl, rfl⟩

theorem Steady.trans {a b c : State} (h : Steady a b) (h' : Steady b c) : Steady a c :=
  ⟨h'.cfg.trans h.cfg, h'.prog.trans h.prog, h'.intRegs.trans h.intRegs, h'.floatRegs.trans h.floatRegs,
    h'.cycles.trans h.cycles, h'.retired.trans h.retired, h'.retLog.trans h.retLog, h'.squashLog.trans h.squashLog⟩

theorem Steady.readReg {s t : State} (h : Steady s t) (id : OperandId) : t.readReg id = s.readReg id := by
  simp only [State.readReg, h.intRegs, h.floatRegs]

theorem IssueMove.steady {i : Instr} {s t : State} (h : IssueMove i s t) : Steady s t := by
  cases h <;> exact ⟨rfl, rfl, rfl, rfl, rfl, rfl, rfl, rfl⟩

theorem DispatchMove.steady {p : Nat} {s t : State} (h : DispatchMove p s t) : Steady s t := by
  cases h <;> exact ⟨rfl, rfl, rfl, rfl, rfl, rfl, rfl, rfl⟩

theorem CompleteMove.steady {x : Nat} {s t : State} (h : CompleteMove x s t) : Steady s t := by
  cases h <;> exact ⟨rfl, rfl, rfl, rfl, rfl, rfl, rfl, rfl⟩

theorem tickPhase_steady (s : State) : Steady s (tickPhase s) := ⟨rfl, rfl, rfl, rfl, rfl, rfl, rfl, rfl⟩

theorem readySweep_steady (s : State) : Steady s (readySweep s) := ⟨rfl, rfl, rfl, rfl, rfl, rfl, rfl, rfl⟩

theorem endOfCycle_steady (s : State) : Steady s (endOfCycle s) := ⟨rfl, rfl, rfl, rfl, rfl, rfl, rfl, rfl⟩

theorem issuePhase_steady {n : Nat} {s t : State} (hf : s.fault = none) (h : issuePhase n s = .next t) : Steady s t :=
  issuePhase_keeps_of_move (P := Steady s) (fun _ _ _ hs ht => hs.trans ht.steady)
    (fun _ _ hs => hs.trans ⟨rfl, rfl, rfl, rfl, rfl, rfl, rfl, rfl⟩) (.refl s) hf h

/-- A cycle counts itself, leaves registers and logs as they are until Commit, and makes at most one Commit move
(R140). -/
theorem cycle_steady_commits {s t : State} (hf : s.fault = none) (h : cycle s = .next t) :
    ∃ c d, Steady { s with cycles := s.cycles + 1 } c ∧ CommitMove c d ∧ Steady d t := by
  obtain ⟨c, d, hc, hd, ht⟩ := cycle_commits (P := Steady { s with cycles := s.cycles + 1 })
    (hissue := fun _ ha => issuePhase_steady (by exact hf) ha)
    (hdispatch := fun _ _ _ hs ht => hs.trans ht.steady)
    (htick := fun _ hs => hs.trans (tickPhase_steady _))
    (hcomplete := fun _ _ _ hs ht => hs.trans ht.steady)
    (hsweep := fun _ hs => hs.trans (readySweep_steady _))
    (h := h)
  refine ⟨c, d, hc, hd, ?_⟩
  obtain rfl | rfl := ht
  · exact .refl _
  · exact endOfCycle_steady d

/-! ### What Commit changes -/

/-- Commit keeps configuration, program and cycle counter. -/
theorem CommitMove.keeps {s t : State} (h : CommitMove s t) :
    t.cfg = s.cfg ∧ t.prog = s.prog ∧ t.cycles = s.cycles := by
  cases h with
  | skipped => exact ⟨rfl, rfl, rfl⟩
  | stays => exact ⟨rfl, rfl, rfl⟩
  | retired he _ _ => rw [retireEntry_eq he]; exact ⟨rfl, rfl, rfl⟩
  | flushed he _ _ => rw [retireEntry_eq he]; exact ⟨rfl, rfl, rfl⟩

/-- Commit leaves registers and log as they are, or retires one instruction, logs it, and writes at most its destination
(R171 to R176). -/
theorem CommitMove.retires {s t : State} (h : CommitMove s t) :
    (t.retired = s.retired ∧ t.retLog = s.retLog ∧ ∀ id, t.readReg id = s.readReg id) ∨
    ∃ pc v e, t.retired = s.retired + 1 ∧ t.retLog = s.retLog ++ [(pc, RobEntry.op e)] ∧
      ∀ id, t.readReg id = if e.dest = .reg id then some v else s.readReg id := by
  cases h with
  | skipped => exact .inl ⟨rfl, rfl, fun _ => rfl⟩
  | stays => exact .inl ⟨rfl, rfl, fun _ => rfl⟩
  | @retired r e pc v _ he _ _ =>
    have hret := retireEntry_retired (pc := pc) v he
    exact .inr ⟨pc, v, e, hret.counted, hret.logged, readReg_retireEntry r e pc v s⟩
  | @flushed r e pc v he _ _ =>
    have hret := retireEntry_retired (pc := pc) v he
    exact .inr ⟨pc, v, e, hret.counted, hret.logged, readReg_retireEntry r e pc v s⟩

/-- Settles O54: only Commit writes registers, and it writes the destination of the one entry it retires. -/
theorem stepWritesAtMostOneRegister : Obligations.StepWritesAtMostOneRegister := by
  unfold Obligations.StepWritesAtMostOneRegister
  intro s t h
  obtain ⟨-, ⟨-, rfl⟩ | ⟨-, hf, hc⟩⟩ := step_next h
  · exact .inl fun _ => rfl
  obtain ⟨c, d, hsc, hcd, hdt⟩ := cycle_steady_commits hf hc
  have hbefore : ∀ id, c.readReg id = s.readReg id := hsc.readReg
  obtain ⟨-, -, hsame⟩ | ⟨-, v, e, hcount, -, hwrite⟩ := hcd.retires
  · exact .inl fun id => (hdt.readReg id).trans ((hsame id).trans (hbefore id))
  have hregs : ∀ id, t.readReg id = if e.dest = .reg id then some v else s.readReg id := fun id => by
    rw [hdt.readReg, hwrite, hbefore]
  cases hdest : e.dest with
  | reg d =>
    refine .inr ⟨by rw [hdt.retired, hcount, hsc.retired], d, v, fun id => ?_⟩
    rw [hregs, hdest]
    simp only [Dest.reg.injEq, eq_comm]
  | store => exact .inl fun id => by simp [hregs, hdest]
  | noDest => exact .inl fun id => by simp [hregs, hdest]

/-- Settles O57: the counter moves at the start of the cycle only, counter and log of retirements at Commit only. -/
theorem stepCountsCyclesAndRetirements : Obligations.StepCountsCyclesAndRetirements := by
  unfold Obligations.StepCountsCyclesAndRetirements
  rintro s t ⟨-, hdone, hfault⟩ h
  obtain ⟨-, ⟨hstop, -⟩ | ⟨-, hf, hc⟩⟩ := step_next h
  · simp [hdone, hfault] at hstop
  obtain ⟨c, d, hsc, hcd, hdt⟩ := cycle_steady_commits hf hc
  obtain ⟨hcfg, hprog, hcycles⟩ := hcd.keeps
  refine ⟨hdt.cycles.trans (hcycles.trans hsc.cycles), hdt.cfg.trans (hcfg.trans hsc.cfg),
    hdt.prog.trans (hprog.trans hsc.prog), ?_⟩
  obtain ⟨hcount, hlog, -⟩ | ⟨pc, v, e, hcount, hlog, -⟩ := hcd.retires
  · exact .inl ⟨hdt.retired.trans (hcount.trans hsc.retired), hdt.retLog.trans (hlog.trans hsc.retLog)⟩
  · exact .inr ⟨pc, e.op, by rw [hdt.retired, hcount, hsc.retired], by rw [hdt.retLog, hlog, hsc.retLog]⟩

end Sys2Proof.Machine

/-! PROOF of O56: fetch address, tail and busy entries over a step. -/

namespace Sys2Proof.Machine

/-! ### Fetch address, tail and entries in use (R36, R41, R150, R178) -/

/-- Overwriting an entry without changing what `f` reads of it. -/
theorem map_set_robAt {β : Type} (f : RobEntry → β) (s : State) {r : Nat} {e : RobEntry} (h : f e = f (s.robAt r)) :
    (s.rob.set r e).map f = s.rob.map f := by
  rw [List.map_set]
  refine List.ext_getElem (by simp) fun q hq _ => ?_
  rw [List.getElem_set]
  split
  · next hr =>
    subst hr
    have hlt : r < s.rob.length := by simpa using hq
    simpa [robAt_of_lt s hlt] using h
  · rfl

theorem busyEntries_eq (s : State) : s.busyEntries = (s.rob.map RobEntry.pc).countP Option.isSome := by
  rw [List.countP_map]
  rfl

/-- From `s` to `t` exactly `k` instructions issued, and nothing else moved fetch address, tail or the entries in use. -/
structure Advanced (s : State) (k : Nat) (t : State) : Prop where
  cfg : t.cfg = s.cfg
  entries : t.rob.length = s.rob.length
  fetch : t.fetchPC = s.fetchPC + BitVec.ofNat 32 (4 * k)
  tail : s.robTail < s.cfg.robDepth → t.robTail = (s.robTail + k) % s.cfg.robDepth
  busy : s.rob.length = s.cfg.robDepth → s.robTail < s.cfg.robDepth → t.busyEntries = s.busyEntries + k

/-- Nothing issued. -/
theorem Advanced.zero {s t : State} (hcfg : t.cfg = s.cfg) (hfetch : t.fetchPC = s.fetchPC)
    (htail : t.robTail = s.robTail) (hpcs : t.rob.map RobEntry.pc = s.rob.map RobEntry.pc) : Advanced s 0 t where
  cfg := hcfg
  entries := by simpa using congrArg List.length hpcs
  fetch := by simpa using hfetch
  tail h := by rw [htail, Nat.add_zero, Nat.mod_eq_of_lt h]
  busy _ _ := by rw [busyEntries_eq, hpcs, ← busyEntries_eq, Nat.add_zero]

theorem Advanced.trans {s t u : State} {k l : Nat} (h : Advanced s k t) (h' : Advanced t l u) :
    Advanced s (k + l) u := by
  have htail : s.robTail < s.cfg.robDepth → t.robTail < t.cfg.robDepth := fun hs => by
    rw [h.tail hs, h.cfg]
    exact Nat.mod_lt _ (by omega)
  refine ⟨h'.cfg.trans h.cfg, h'.entries.trans h.entries, ?_, fun hs => ?_, fun hl hs => ?_⟩
  · rw [h'.fetch, h.fetch, BitVec.add_assoc, ← BitVec.ofNat_add, Nat.mul_add]
  · rw [h'.tail (htail hs), h.tail hs, h.cfg, Nat.mod_add_mod, Nat.add_assoc]
  · rw [h'.busy (by rw [h.entries, h.cfg, hl]) (htail hs), h.busy hl hs, Nat.add_assoc]

/-- Issue allocates one free entry (R147, R148). -/
theorem busyEntries_issueInstr {s : State} {i : Instr} {p : Nat} (hfree : (s.robAt s.robTail).busy = false)
    (ht : s.robTail < s.rob.length) : (issueInstr s i p).busyEntries = s.busyEntries + 1 := by
  have hnew : (issuedEntry s i).busy = true := rfl
  rw [robAt_of_lt s ht] at hfree
  simp [State.busyEntries, issueInstr, List.countP_set ht, hfree, hnew]

/-- Retiring frees one entry (R177). -/
theorem busyEntries_clear {s : State} {r : Nat} {e : RobEntry} (he : s.rob[r]? = some e) (hbusy : e.busy = true) :
    (s.rob.set r e.clear).countP RobEntry.busy + 1 = s.busyEntries := by
  obtain ⟨hlt, rfl⟩ := List.getElem?_eq_some_iff.mp he
  have hpos : 0 < s.rob.countP RobEntry.busy := List.countP_pos_iff.mpr ⟨_, List.getElem_mem hlt, hbusy⟩
  have hclear : s.rob[r].clear.busy = false := rfl
  simp only [State.busyEntries, List.countP_set hlt, hbusy, hclear]
  simp
  omega

theorem IssueMove.advanced {i : Instr} {s t : State} (h : IssueMove i s t) : ∃ k ≤ 1, Advanced s k t := by
  cases h with
  | stays => exact ⟨0, Nat.zero_le 1, .zero rfl rfl rfl rfl⟩
  | @issued p _ hslot =>
    exact ⟨1, Nat.le_refl 1, rfl, List.length_set, rfl, fun _ => rfl,
      fun hl ht => busyEntries_issueInstr (p := p) (issueSlot_some hslot).1 (hl ▸ ht)⟩

theorem DispatchMove.advanced {p : Nat} {s t : State} (h : DispatchMove p s t) : Advanced s 0 t := by
  cases h with
  | skipped => exact .zero rfl rfl rfl rfl
  | stays => exact .zero rfl rfl rfl rfl
  | faulted => exact .zero rfl rfl rfl rfl
  | taken => exact .zero rfl rfl rfl (map_set_robAt RobEntry.pc s rfl)

theorem CompleteMove.advanced {x : Nat} {s t : State} (h : CompleteMove x s t) : Advanced s 0 t := by
  cases h with
  | stays => exact .zero rfl rfl rfl rfl
  | faulted => exact .zero rfl rfl rfl rfl
  | published => exact .zero rfl rfl rfl (map_set_robAt RobEntry.pc s rfl)

theorem tickPhase_advanced (s : State) : Advanced s 0 (tickPhase s) := .zero rfl rfl rfl rfl

theorem readySweep_advanced (s : State) : Advanced s 0 (readySweep s) := by
  refine .zero rfl rfl rfl ?_
  simp only [readySweep, List.map_map]
  refine List.map_congr_left fun e _ => ?_
  simp only [Function.comp_apply]
  split <;> rfl

/-- Issue with `n` instructions of the width left issues `n` at most (R143). -/
theorem issuePhase_advanced {n : Nat} {s t : State} (h : issuePhase n s = .next t) : ∃ k ≤ n, Advanced s k t := by
  induction n generalizing s with
  | zero =>
    obtain rfl := Host.Outcome.next.inj h
    exact ⟨0, Nat.le_refl 0, .zero rfl rfl rfl rfl⟩
  | succ n ih =>
    unfold issuePhase at h
    split at h
    · obtain rfl := raise_next h
      exact ⟨0, Nat.zero_le _, .zero rfl rfl rfl rfl⟩
    · obtain ⟨s1, h1, ⟨-, rfl⟩ | ⟨-, h2⟩⟩ := andThen_next h
      · obtain ⟨k, hk, hadv⟩ := (issueMove_of_serve h1).advanced
        exact ⟨k, by omega, hadv⟩
      · obtain ⟨k, hk, hadv⟩ := (issueMove_of_serve h1).advanced
        split at h2
        · obtain ⟨l, hl, hadv'⟩ := ih h2
          exact ⟨k + l, by omega, hadv.trans hadv'⟩
        · obtain rfl := Host.Outcome.next.inj h2
          exact ⟨k, by omega, hadv⟩

/-- Commit leaves fetch address and tail and retires what it takes from the entries in use, or it flushes: one record is
logged, and fetch goes to its target (R173, R177, R178). -/
theorem CommitMove.redirects {s t : State} (h : CommitMove s t) :
    (t.squashLog = s.squashLog ∧ t.fetchPC = s.fetchPC ∧ t.robTail = s.robTail ∧
      t.busyEntries + t.retired = s.busyEntries + s.retired) ∨
    ∃ q, t.squashLog = s.squashLog ++ [q] ∧ t.fetchPC = q.target ∧ t.robTail = 0 ∧ t.busyEntries = 0 := by
  cases h with
  | skipped => exact .inl ⟨rfl, rfl, rfl, rfl⟩
  | stays => exact .inl ⟨rfl, rfl, rfl, rfl⟩
  | @retired r e pc v _ he hpc _ =>
    rw [retireEntry_eq he]
    refine .inl ⟨rfl, rfl, rfl, ?_⟩
    have hsum := busyEntries_clear he (by simp [RobEntry.busy, hpc])
    simp only [State.busyEntries] at hsum ⊢
    omega
  | @flushed r e pc v he _ _ =>
    refine .inr ⟨⟨pc, v, (retireEntry r e pc v s).inFlight.map Prod.fst⟩, ?_, rfl, rfl, ?_⟩
    · exact congrArg (· ++ _) (retireEntry_retired v he).squash
    · simp only [State.busyEntries, List.countP_eq_zero, Bool.not_eq_true]
      exact (recover_flushed _ _ _).1

/-- Settles O56: fetch address and tail move with each instruction issued and at a flush, and by nothing else. -/
theorem fetchMovesByIssueOrRedirect : Obligations.FetchMovesByIssueOrRedirect := by
  unfold Obligations.FetchMovesByIssueOrRedirect
  intro s t h
  obtain ⟨-, ⟨-, rfl⟩ | ⟨-, hf, hc⟩⟩ := step_next h
  · have hzero : Advanced t 0 t := .zero rfl rfl rfl rfl
    exact .inl ⟨rfl, 0, Nat.zero_le _, hzero.fetch, hzero.tail, fun _ => rfl⟩
  obtain ⟨c, d, ⟨hsc, k, hk, hadv⟩, hcd, hdt⟩ := cycle_commits
    (P := fun u => Steady { s with cycles := s.cycles + 1 } u ∧ ∃ k ≤ s.cfg.issueWidth, Advanced s k u)
    (hissue := fun _ ha => ⟨issuePhase_steady (by exact hf) ha, by
      obtain ⟨k, hk, hadv⟩ := issuePhase_advanced ha
      exact ⟨k, hk, ⟨hadv.cfg, hadv.entries, hadv.fetch, hadv.tail, hadv.busy⟩⟩⟩)
    (hdispatch := fun _ _ _ ⟨hs, k, hk, hadv⟩ ht => ⟨hs.trans ht.steady, k, hk, hadv.trans ht.advanced⟩)
    (htick := fun _ ⟨hs, k, hk, hadv⟩ => ⟨hs.trans (tickPhase_steady _), k, hk, hadv.trans (tickPhase_advanced _)⟩)
    (hcomplete := fun _ _ _ ⟨hs, k, hk, hadv⟩ ht => ⟨hs.trans ht.steady, k, hk, hadv.trans ht.advanced⟩)
    (hsweep := fun _ ⟨hs, k, hk, hadv⟩ => ⟨hs.trans (readySweep_steady _), k, hk, hadv.trans (readySweep_advanced _)⟩)
    (h := hc)
  have hend : t.squashLog = d.squashLog ∧ t.fetchPC = d.fetchPC ∧ t.robTail = d.robTail ∧
      t.busyEntries = d.busyEntries ∧ t.retired = d.retired := by
    obtain rfl | rfl := hdt <;> exact ⟨rfl, rfl, rfl, rfl, rfl⟩
  obtain ⟨hsq, hfetch, htail, hbusy, hret⟩ := hend
  rw [hsq, hfetch, htail, hbusy, hret]
  obtain ⟨hsq', hfetch', htail', hsum⟩ | ⟨q, hsq', hflush⟩ := hcd.redirects
  · refine .inl ⟨hsq'.trans hsc.squashLog, k, hk, hfetch'.trans hadv.fetch, fun hs => htail'.trans (hadv.tail hs),
      fun hshape => ?_⟩
    have hcount := hadv.busy hshape.robLength hshape.tail
    have hretired : c.retired = s.retired := hsc.retired
    omega
  · exact .inr ⟨q, hsq'.trans (congrArg (· ++ [q]) hsc.squashLog), hflush⟩

end Sys2Proof.Machine

/-! PROOF of O48: the shape of the block over a step. -/

namespace Sys2Proof.Machine

/-! ### Pools -/

/-- Overwriting a member of a list without changing what `f` reads of it. -/
theorem map_set_of_getElem? {α β : Type} (f : α → β) {l : List α} {p : Nat} {a b : α} (hp : l[p]? = some a)
    (h : f b = f a) : (l.set p b).map f = l.map f := by
  obtain ⟨hlt, rfl⟩ := List.getElem?_eq_some_iff.mp hp
  refine List.ext_getElem (by simp) fun q _ _ => ?_
  by_cases hq : p = q
  · subst hq; simpa using h
  · simp [hq]

theorem map_modify {α β : Type} (f : α → β) {g : α → α} (h : ∀ a, f (g a) = f a) (l : List α) (p : Nat) :
    (l.modify p g).map f = l.map f := by
  refine List.ext_getElem (by simp) fun q _ _ => ?_
  by_cases hq : p = q
  · subst hq; simp [h]
  · simp [hq]

theorem map_map_of_eq {α β : Type} (f : α → β) {g : α → α} (h : ∀ a, f (g a) = f a) (l : List α) :
    (l.map g).map f = l.map f := by
  simp [Function.comp_def, h]

/-! ### What a broadcast leaves of a station (R166) -/

@[simp] theorem Station.capture_cls (t : Nat) (v : Word) (st : Station) : (st.capture t v).cls = st.cls := by
  unfold Station.capture; split <;> rfl
@[simp] theorem Station.capture_pc (t : Nat) (v : Word) (st : Station) : (st.capture t v).pc = st.pc := by
  unfold Station.capture; split <;> rfl
@[simp] theorem Station.capture_op (t : Nat) (v : Word) (st : Station) : (st.capture t v).op = st.op := by
  unfold Station.capture; split <;> rfl
@[simp] theorem Station.capture_ea (t : Nat) (v : Word) (st : Station) : (st.capture t v).ea = st.ea := by
  unfold Station.capture; split <;> rfl
@[simp] theorem Station.capture_executing (t : Nat) (v : Word) (st : Station) :
    (st.capture t v).executing = st.executing := by
  unfold Station.capture; split <;> rfl
@[simp] theorem Station.capture_busy (t : Nat) (v : Word) (st : Station) : (st.capture t v).busy = st.busy := by
  simp [Station.busy]

/-! ### What Unit-tick leaves of a unit (R160) -/

@[simp] theorem FuncUnit.tick_cls (u : FuncUnit) : u.tick.cls = u.cls := by unfold FuncUnit.tick; split <;> rfl
@[simp] theorem FuncUnit.tick_latency (u : FuncUnit) : u.tick.latency = u.latency := by
  unfold FuncUnit.tick; split <;> rfl
@[simp] theorem FuncUnit.tick_pc (u : FuncUnit) : u.tick.pc = u.pc := by unfold FuncUnit.tick; split <;> rfl
@[simp] theorem FuncUnit.tick_inUse (u : FuncUnit) : u.tick.inUse = u.inUse := by unfold FuncUnit.tick; split <;> rfl

/-! ### The shape, move by move (R41, R54, R66, R67, R80, R340) -/

theorem Shape.stays {s : State} (hs : Shape s) : Shape { s with serving := .issue } := { hs with cursor := rfl }

theorem Shape.faulted {s : State} (hs : Shape s) (f : FaultRecord) : Shape { s with fault := some f } := { hs with }

theorem Shape.issueMove {i : Instr} {s t : State} (hs : Shape s) (h : IssueMove i s t) : Shape t := by
  cases h with
  | stays => exact hs.stays
  | issued =>
    exact { hs with
      robLength := List.length_set.trans hs.robLength
      tail := Nat.mod_lt _ (Nat.zero_lt_of_lt hs.tail)
      stations := (map_modify Station.cls (by intro; rfl) s.rs _).trans hs.stations
      cursor := rfl }

theorem Shape.dispatchMove {p : Nat} {s t : State} (hs : Shape s) (h : DispatchMove p s t) : Shape t := by
  cases h with
  | skipped => exact hs
  | stays => exact hs.stays
  | faulted f => exact (hs.faulted f).stays
  | taken hst hbusy hu =>
    exact { hs with
      robLength := List.length_set.trans hs.robLength
      stations := (map_set_of_getElem? Station.cls hst (by rfl)).trans hs.stations
      units := (map_set_of_getElem? (fun u => (u.cls, u.latency)) hu (by rfl)).trans hs.units
      inUse := fun u' hu' => by
        obtain hu' | rfl := List.mem_or_eq_of_mem_set hu'
        · exact hs.inUse u' hu'
        · exact hbusy.symm
      cursor := rfl }

theorem Shape.tick {s : State} (hs : Shape s) : Shape (tickPhase s) :=
  { hs with
    units := (map_map_of_eq (fun u : FuncUnit => (u.cls, u.latency)) (by simp) s.fu).trans hs.units
    inUse := fun u hu => by
      obtain ⟨u', hu', rfl⟩ := List.mem_map.mp hu
      simpa using hs.inUse u' hu' }

/-- A word store inside the memory keeps memory in canonical form and inside its size (R80, R85). -/
theorem Shape.setWord {s : State} (hs : Shape s) {a v : Word} (hin : inBounds s.cfg.memSize a = true) :
    Shape { s with mem := s.mem.setWord a.toNat v } :=
  { hs with
    memory := wf_setWord hs.memory _ _
    inside := fun c hc => by
      have hin : a.toNat + 4 ≤ s.cfg.memSize := of_decide_eq_true hin
      obtain hc | hc := mem_setWord hc
      · exact Nat.lt_of_lt_of_le hc.2 hin
      · exact hs.inside c hc }

theorem Shape.completeMove {x : Nat} {s t : State} (hs : Shape s) (h : CompleteMove x s t) : Shape t := by
  cases h with
  | stays => exact hs.stays
  | faulted f => exact (hs.faulted f).stays
  | @published p st u v m hst _ _ hu hmem =>
    have hstored : Shape { s with mem := m } := by
      obtain rfl | ⟨a, hin, rfl⟩ := hmem
      · exact hs
      · exact hs.setWord hin
    have hcaptured : (s.rs.map (Station.capture st.dest v))[p]? = some (st.capture st.dest v) := by simp [hst]
    exact { hstored with
      robLength := List.length_set.trans hs.robLength
      stations := (map_set_of_getElem? Station.cls hcaptured (by simp [Station.release])).trans
        ((map_map_of_eq Station.cls (by simp) s.rs).trans hs.stations)
      units := (map_set_of_getElem? (fun u => (u.cls, u.latency)) hu (by rfl)).trans hs.units
      inUse := fun u' hu' => by
        obtain hu' | rfl := List.mem_or_eq_of_mem_set hu'
        · exact hs.inUse u' hu'
        · rfl
      cursor := rfl }

theorem Shape.sweep {s : State} (hs : Shape s) : Shape (readySweep s) :=
  { hs with robLength := List.length_map _ |>.trans hs.robLength }

/-- Retiring keeps the shape while the cycle counter is ahead of the retirements (R66, R320). -/
theorem Shape.retireEntry {s : State} (hs : Shape s) (hahead : s.retired < s.cycles) {r : Nat} {e : RobEntry}
    (he : s.rob[r]? = some e) (pc v : Word) : Shape (retireEntry r e pc v s) := by
  rw [retireEntry_eq he]
  exact { hs with
    robLength := List.length_set.trans hs.robLength
    logged := by simp [hs.logged]
    retired := hahead
    squashes := Nat.le_succ_of_le hs.squashes }

/-- A flush keeps the shape while the squash log is behind the retirements (R68, R178). -/
theorem Shape.recover {s : State} (hs : Shape s) (hbehind : s.squashLog.length < s.retired) (pc v : Word) :
    Shape (recover pc v s) :=
  { hs with
    robLength := List.length_map _ |>.trans hs.robLength
    tail := Nat.zero_lt_of_lt hs.tail
    stations := (map_map_of_eq Station.cls (by intro; rfl) s.rs).trans hs.stations
    units := (map_map_of_eq (fun u : FuncUnit => (u.cls, u.latency)) (by intro; rfl) s.fu).trans hs.units
    inUse := fun u hu => by
      obtain ⟨u', -, rfl⟩ := List.mem_map.mp hu
      rfl
    squashes := by simpa [Machine.recover] using hbehind }

theorem Shape.commitMove {s t : State} (hs : Shape s) (hahead : s.retired < s.cycles) (h : CommitMove s t) :
    Shape t := by
  cases h with
  | skipped => exact hs
  | stays => exact hs.stays
  | @retired r e pc v _ he _ _ => exact { hs.retireEntry hahead he pc v with cursor := rfl }
  | @flushed r e pc v he _ _ =>
    have hret := retireEntry_retired (pc := pc) v he
    have hbehind : (Machine.retireEntry r e pc v s).squashLog.length < (Machine.retireEntry r e pc v s).retired := by
      rw [hret.squash, hret.counted]
      exact Nat.lt_succ_of_le hs.squashes
    exact ((hs.retireEntry hahead he pc v).recover hbehind pc v).stays

theorem Shape.endOfCycle {s : State} (hs : Shape s) : Shape (endOfCycle s) :=
  { hs with
    stations := (map_map_of_eq Station.cls (by intro st; split <;> rfl) s.rs).trans hs.stations }

/-- Settles O48: every move keeps the shape, Commit because the cycle was counted before it. -/
theorem stepKeepsShape : Obligations.StepKeepsShape := by
  unfold Obligations.StepKeepsShape
  intro s t hs h
  obtain ⟨-, ⟨-, rfl⟩ | ⟨-, hf, hcycle⟩⟩ := step_next h
  · exact hs
  obtain ⟨c, d, ⟨hsteady, hc⟩, hd, ht⟩ := cycle_commits
    (P := fun u => Steady { s with cycles := s.cycles + 1 } u ∧ Shape u)
    (hissue := fun _ ha => ⟨issuePhase_steady (by exact hf) ha,
      issuePhase_keeps_of_move (P := Shape) (s := { s with cycles := s.cycles + 1 })
        (fun _ _ _ hs ht => hs.issueMove ht) (fun _ f hs => hs.faulted f)
        { hs with retired := Nat.le_succ_of_le hs.retired } (by exact hf) ha⟩)
    (hdispatch := fun _ _ _ ⟨hu, hs⟩ ht => ⟨hu.trans ht.steady, hs.dispatchMove ht⟩)
    (htick := fun _ ⟨hu, hs⟩ => ⟨hu.trans (tickPhase_steady _), hs.tick⟩)
    (hcomplete := fun _ _ _ ⟨hu, hs⟩ ht => ⟨hu.trans ht.steady, hs.completeMove ht⟩)
    (hsweep := fun _ ⟨hu, hs⟩ => ⟨hu.trans (readySweep_steady _), hs.sweep⟩)
    (h := hcycle)
  have hahead : c.retired < c.cycles := by
    rw [hsteady.retired, hsteady.cycles]
    exact Nat.lt_succ_of_le hs.retired
  obtain rfl | rfl := ht
  · exact hc.commitMove hahead hd
  · exact (hc.commitMove hahead hd).endOfCycle

end Sys2Proof.Machine

/-! PROOF of O39, and what a broadcast leaves of a station. -/

namespace Sys2Proof.Machine

/-! ### A broadcast, slot by slot (R63, R166) -/

theorem Slot.waitsFor_iff {r : Nat} {x : Slot} : x.waitsFor r = true ↔ x = .wait r := by
  cases x <;> simp [Slot.waitsFor]

theorem Slot.capture_eq (r : Nat) (v : Word) (x : Slot) :
    x.capture r v = if x = .wait r then .val (some v) else x := by
  cases x <;> simp [Slot.capture]

theorem Slot.cleared_iff {x : Slot} : x.cleared = true ↔ ∀ t, x ≠ .wait t := by
  cases x <;> simp [Slot.cleared]

theorem Station.resolved_iff {st : Station} : st.resolved = true ↔ ∀ t, ¬(st.j = .wait t ∨ st.k = .wait t) := by
  simp [Station.resolved, Slot.cleared_iff, not_or, forall_and]

/-- A station that captures nothing stays as it is. -/
theorem Station.capture_of_not_waiting {r : Nat} (v : Word) {st : Station} (h : ¬(st.j = .wait r ∨ st.k = .wait r)) :
    st.capture r v = st := by
  simp [Station.capture, Slot.waitsFor_iff, h]

theorem Station.capture_of_not_busy (r : Nat) (v : Word) {st : Station} (h : st.busy = false) :
    st.capture r v = st := by
  simp [Station.capture, h]

/-- What a busy station that waits for the tag becomes. -/
theorem Station.capture_of_waiting {r : Nat} (v : Word) {st : Station} (hb : st.busy = true)
    (h : st.j = .wait r ∨ st.k = .wait r) :
    st.capture r v = { st with
      j := st.j.capture r v, k := st.k.capture r v
      ready := st.ready || ((st.j.capture r v).cleared && (st.k.capture r v).cleared) } := by
  simp [Station.capture, hb, Slot.waitsFor_iff, h]

theorem Station.capture_slots (r : Nat) (v : Word) {st : Station} (hb : st.busy = true) :
    (st.capture r v).j = st.j.capture r v ∧ (st.capture r v).k = st.k.capture r v := by
  by_cases h : st.j = .wait r ∨ st.k = .wait r
  · rw [Station.capture_of_waiting v hb h]
    exact ⟨rfl, rfl⟩
  · rw [Station.capture_of_not_waiting v h]
    rw [not_or] at h
    simp [Slot.capture_eq, h]

/-- Settles O39, by whether the station waits for the tag. -/
theorem broadcastFillsWaitingSlots : Obligations.BroadcastFillsWaitingSlots := by
  unfold Obligations.BroadcastFillsWaitingSlots
  intro st r v
  refine ⟨Station.capture_of_not_busy r v, fun hb => ?_⟩
  obtain ⟨hj, hk⟩ := Station.capture_slots r v hb
  refine ⟨hj.trans (Slot.capture_eq ..), hk.trans (Slot.capture_eq ..), fun hw hnj hnk => ?_, fun hw hstill => ?_,
    Station.capture_of_not_waiting v, ?_⟩
  · have hcleared : (st.j.capture r v).cleared = true ∧ (st.k.capture r v).cleared = true :=
      ⟨hj ▸ Slot.cleared_iff.mpr hnj, hk ▸ Slot.cleared_iff.mpr hnk⟩
    simp [Station.capture_of_waiting v hb hw, hcleared]
  · have hwaits : ((st.j.capture r v).cleared && (st.k.capture r v).cleared) = false := by
      rw [hj, hk] at hstill
      obtain ⟨t, h | h⟩ := hstill <;> simp [h, Slot.cleared]
    simp [Station.capture_of_waiting v hb hw, hwaits]
  · by_cases hw : st.j = .wait r ∨ st.k = .wait r
    · simp [Station.capture_of_waiting v hb hw]
    · simp [Station.capture_of_not_waiting v hw]

/-- After a broadcast a busy station waits only for what it waited for, and no longer for the tag told. -/
theorem Station.waits_of_capture {r t : Nat} {v : Word} {st : Station} (hb : st.busy = true)
    (h : (st.capture r v).j = .wait t ∨ (st.capture r v).k = .wait t) :
    (st.j = .wait t ∨ st.k = .wait t) ∧ t ≠ r := by
  have hslot : ∀ x : Slot, x.capture r v = .wait t → x = .wait t ∧ t ≠ r := fun x hx => by
    rw [Slot.capture_eq] at hx
    split at hx
    · cases hx
    · next hne => exact ⟨hx, fun htr => hne (htr ▸ hx)⟩
  obtain ⟨hj, hk⟩ := Station.capture_slots r v hb
  rw [hj, hk] at h
  obtain h | h := h
  · exact ⟨.inl (hslot _ h).1, (hslot _ h).2⟩
  · exact ⟨.inr (hslot _ h).1, (hslot _ h).2⟩

/-- Ready and executing stations stay resolved under a broadcast, and one that it makes ready is resolved (R50, R166). -/
theorem Station.resolved_capture {r : Nat} {v : Word} {st : Station} (hb : st.busy = true)
    (h : st.ready = true ∨ st.executing = true → st.resolved = true)
    (h' : (st.capture r v).ready = true ∨ (st.capture r v).executing = true) : (st.capture r v).resolved = true := by
  by_cases hw : st.j = .wait r ∨ st.k = .wait r
  · have hnot : ¬(st.ready = true ∨ st.executing = true) := fun hr => Station.resolved_iff.mp (h hr) r hw
    rw [not_or, Bool.not_eq_true, Bool.not_eq_true] at hnot
    rw [Station.capture_of_waiting v hb hw] at h' ⊢
    simpa [hnot, Station.resolved] using h'
  · rw [Station.capture_of_not_waiting v hw] at h' ⊢
    exact h h'

end Sys2Proof.Machine

/-! PROOF of O50: tag soundness over a step. -/

namespace Sys2Proof.Machine

/-! ### Membership and reads after an update -/

theorem mem_modify {α : Type} {f : α → α} {l : List α} {p : Nat} {a : α} (h : a ∈ l.modify p f) :
    a ∈ l ∨ ∃ b, l[p]? = some b ∧ a = f b := by
  obtain ⟨q, hq⟩ := List.mem_iff_getElem?.mp h
  rw [List.getElem?_modify, Option.map_eq_map, Option.map_eq_some_iff] at hq
  obtain ⟨b, hb, rfl⟩ := hq
  split
  · next hpq => exact .inr ⟨b, hpq ▸ hb, rfl⟩
  · exact .inl (List.mem_of_getElem? hb)

/-- An entry after one was overwritten: an old one, or the new one in place of an old one. -/
theorem mem_set_robAt {s : State} {r : Nat} {e e' : RobEntry} (h : e' ∈ s.rob.set r e) :
    e' ∈ s.rob ∨ e' = e ∧ s.robAt r ∈ s.rob := by
  by_cases hr : r < s.rob.length
  · obtain h | rfl := List.mem_or_eq_of_mem_set h
    · exact .inl h
    · exact .inr ⟨rfl, robAt_of_lt s hr ▸ List.getElem_mem hr⟩
  · rw [List.set_eq_of_length_le (by omega)] at h
    exact .inl h

theorem robAt_mem_of_busy {s : State} {r : Nat} (h : (s.robAt r).busy = true) : s.robAt r ∈ s.rob :=
  robAt_of_lt s (lt_of_robAt_busy h) ▸ List.getElem_mem _

/-- What `f` reads of an entry is unchanged where an entry is overwritten by one that `f` reads alike. -/
theorem robAt_setRob_congr {β : Type} (f : RobEntry → β) {s : State} {r : Nat} {e : RobEntry}
    (h : f e = f (s.robAt r)) (q : Nat) : f ((s.setRob r e).robAt q) = f (s.robAt q) := by
  rw [robAt_setRob]
  split
  · next hq => rw [h, hq.1]
  · rfl

theorem robAt_map {s : State} {g : RobEntry → RobEntry} (hg : g RobEntry.free = RobEntry.free) (q : Nat) :
    State.robAt { s with rob := s.rob.map g } q = g (s.robAt q) := by
  simp only [State.robAt, List.getD_eq_getElem?_getD, List.getElem?_map]
  cases s.rob[q]? with
  | none => exact hg.symm
  | some e => rfl

/-! ### Visits in turn, knowing what is visited -/

/-- A property kept by the visits to the items of a list is kept by the visits in turn. -/
theorem inTurn_keeps_of_mem {P : State → Prop} {visit : Nat → State → Result} {l : List Nat}
    (hv : ∀ p ∈ l, ∀ s t, P s → visit p s = .next t → P t) {s t : State} (hs : P s) (h : inTurn visit l s = .next t) :
    P t := by
  induction l generalizing s with
  | nil => exact Host.Outcome.next.inj h ▸ hs
  | cons p l ih =>
    obtain ⟨s1, h1, hcase⟩ := andThen_next h
    have hs1 : P s1 := hv p List.mem_cons_self s s1 hs h1
    obtain ⟨-, rfl⟩ | ⟨-, h2⟩ := hcase
    · exact hs1
    · exact ih (fun q hq => hv q (List.mem_cons_of_mem p hq)) hs1 h2

/-- The stations that Execute-dispatch visits (R156). -/
theorem mem_dispatchCandidates {s : State} {p : Nat} :
    p ∈ dispatchCandidates s ↔
      ∃ st, s.rs[p]? = some st ∧ st.busy = true ∧ st.ready = true ∧ st.executing = false := by
  simp only [dispatchCandidates, List.mem_map, (perm_sortByPc _).mem_iff, List.mem_filterMap, Prod.exists,
    List.mem_zipIdx_iff_getElem?, Station.busy, Option.isSome_iff_exists]
  constructor
  · rintro ⟨pc, q, ⟨st, q', hst, h⟩, rfl⟩
    split at h
    · next hc =>
      simp only [Option.map_eq_some_iff, Prod.mk.injEq] at h
      obtain ⟨pc', hpc, -, rfl⟩ := h
      simp only [Bool.and_eq_true, Bool.not_eq_true'] at hc
      exact ⟨st, hst, ⟨pc', hpc⟩, hc⟩
    · cases h
  · rintro ⟨st, hst, ⟨pc, hpc⟩, hready, hidle⟩
    exact ⟨pc, p, ⟨st, p, hst, by simp [hpc, hready, hidle]⟩, rfl⟩

/-! ### Tags inside a cycle -/

/-- The entry at `q` is busy and has not broadcast: what a tag may wait for (R44, R183). -/
def Pending (s : State) (q : Nat) : Prop := (s.robAt q).busy = true ∧ (s.robAt q).value = none

/-- Tag soundness as it holds inside a cycle: between Write-result's first broadcast and its ready sweep an entry may hold
a value and not be ready yet, so that only the half of `TagSound.entryReady` stands (R168). -/
structure TagsHeld (s : State) : Prop where
  robLength : s.rob.length = s.cfg.robDepth
  tail : s.robTail < s.cfg.robDepth
  entryReady : ∀ e ∈ s.rob, e.ready = true → e.busy = true ∧ e.value.isSome = true
  entryStage : ∀ e ∈ s.rob, e.busy = true → e.stage ≠ .commit
  waits : ∀ st ∈ s.rs, st.busy = true → ∀ t, st.j = .wait t ∨ st.k = .wait t → Pending s t
  resolved : ∀ st ∈ s.rs, st.busy = true → st.ready = true ∨ st.executing = true → st.resolved = true
  ratNames : ∀ id t, (s.ratAt id).tag = some t → (s.robAt t).busy = true ∧ (s.robAt t).dest = .reg id

theorem TagSound.held {s : State} (hs : TagSound s) : TagsHeld s :=
  { hs with entryReady := fun e he h => by simpa [hs.entryReady e he] using h }

theorem TagSound.stays {s : State} (hs : TagSound s) (w : Serving) : TagSound { s with serving := w } := { hs with }

theorem TagsHeld.stays {s : State} (hs : TagsHeld s) (w : Serving) : TagsHeld { s with serving := w } := { hs with }

theorem TagsHeld.faulted {s : State} (hs : TagsHeld s) (f : FaultRecord) (w : Serving) :
    TagsHeld { s with fault := some f, serving := w } := { hs with }

/-! ### Issue -/

/-- A slot of the issuing instruction waits only for a pending producer of another entry that is not ready (R152). -/
theorem issuedSlot_wait {s : State} {i : Instr} {src : Option OperandId} {q : Nat}
    (h : issuedSlot s i src = .wait q) :
    ∃ id, (s.ratAt id).tag = some q ∧ q ≠ s.robTail ∧ (s.robAt q).ready = false := by
  unfold issuedSlot at h
  split at h
  · cases h
  next id =>
  split at h
  · cases h
  split at h
  · cases h
  next p hp =>
  split at h
  · cases h
  next hne =>
  split at h
  · cases h
  next hready =>
  cases h
  exact ⟨id, hp, hne, by simpa using hready⟩

theorem robAt_issueInstr {s : State} {i : Instr} {p q : Nat} (hq : q ≠ s.robTail) :
    (issueInstr s i p).robAt q = s.robAt q :=
  (robAt_setRob s s.robTail q _).trans (if_neg fun h => hq h.1)

theorem robAt_issueInstr_tail {s : State} {i : Instr} {p : Nat} (ht : s.robTail < s.rob.length) :
    (issueInstr s i p).robAt s.robTail = issuedEntry s i :=
  (robAt_setRob s s.robTail s.robTail _).trans (if_pos ⟨rfl, ht⟩)

/-- Issue keeps tags sound: the entry it takes was free, so nothing waited for it and no RAT entry named it (R42, R61). -/
theorem TagSound.issueInstr {s : State} {i : Instr} {p : Nat} (hs : TagSound s)
    (hfree : (s.robAt s.robTail).busy = false) : TagSound (issueInstr s i p) := by
  have hlt : s.robTail < s.rob.length := hs.robLength ▸ hs.tail
  have hother : ∀ {q}, (s.robAt q).busy = true → q ≠ s.robTail := fun hb hq => by simp [hq, hfree] at hb
  have hwait : ∀ src q, issuedSlot s i src = .wait q → Pending (Machine.issueInstr s i p) q := fun src q h => by
    obtain ⟨id, htag, hq, hready⟩ := issuedSlot_wait h
    have hbusy := (hs.ratNames id q htag).1
    have hvalue := hs.entryReady _ (robAt_mem_of_busy hbusy)
    rw [hready, hbusy, Bool.true_and, eq_comm, Option.isSome_eq_false_iff, Option.isNone_iff_eq_none] at hvalue
    exact ⟨by rwa [robAt_issueInstr hq], by rwa [robAt_issueInstr hq]⟩
  constructor
  case robLength => exact List.length_set.trans hs.robLength
  case tail => exact Nat.mod_lt _ (Nat.zero_lt_of_lt hs.tail)
  case entryReady =>
    intro e he
    obtain he | rfl := List.mem_or_eq_of_mem_set he
    · exact hs.entryReady e he
    · rfl
  case entryStage =>
    intro e he hb
    obtain he | rfl := List.mem_or_eq_of_mem_set he
    · exact hs.entryStage e he hb
    · exact Stage.noConfusion
  case waits =>
    intro st hst hb t ht
    obtain hst | ⟨st', -, rfl⟩ := mem_modify hst
    · obtain ⟨hbusy, hvalue⟩ := hs.waits st hst hb t ht
      rw [robAt_issueInstr (hother hbusy)]
      exact ⟨hbusy, hvalue⟩
    · obtain ht | ht := ht
      · exact hwait _ t ht
      · exact hwait _ t ht
  case resolved =>
    intro st hst hb hr
    obtain hst | ⟨st', -, rfl⟩ := mem_modify hst
    · exact hs.resolved st hst hb hr
    · simp [issuedStation] at hr
  case ratNames =>
    intro id t ht
    rw [ratAt_issueInstr] at ht
    split at ht
    · next hdest =>
      obtain rfl : s.robTail = t := Option.some.inj ht
      rw [robAt_issueInstr_tail hlt]
      exact ⟨rfl, hdest⟩
    · obtain ⟨hbusy, hdest⟩ := hs.ratNames id t ht
      rw [robAt_issueInstr (hother hbusy)]
      exact ⟨hbusy, hdest⟩

theorem TagSound.issueMove {i : Instr} {s t : State} (hs : TagSound s) (h : IssueMove i s t) : TagSound t := by
  cases h with
  | stays => exact hs.stays .issue
  | issued _ hslot => exact (hs.issueInstr (issueSlot_some hslot).1).stays .issue

/-! ### Execute-dispatch -/

/-- Dispatch takes a ready station, which waits for nothing, and touches nothing of its entry but the stage (R159). -/
theorem TagsHeld.dispatchMove {p : Nat} {s t : State} (hs : TagsHeld s)
    (hready : ∀ st, s.rs[p]? = some st → st.ready = true) (h : DispatchMove p s t) : TagsHeld t := by
  cases h with
  | skipped => exact hs
  | stays => exact hs.stays _
  | faulted f => exact hs.faulted f _
  | @taken x st u ea hst hbusy =>
    have hmem : st ∈ s.rs := List.mem_of_getElem? hst
    have hsame : ∀ {β : Type} (f : RobEntry → β),
        f { s.robAt st.dest with stage := .execute } = f (s.robAt st.dest) → ∀ q,
        f ((s.setRob st.dest { s.robAt st.dest with stage := .execute }).robAt q) = f (s.robAt q) :=
      fun f hf => robAt_setRob_congr f hf
    constructor
    case robLength => exact List.length_set.trans hs.robLength
    case tail => exact hs.tail
    case entryReady =>
      intro e he hr
      obtain he | ⟨rfl, hin⟩ := mem_set_robAt he
      · exact hs.entryReady e he hr
      · exact hs.entryReady (s.robAt st.dest) hin hr
    case entryStage =>
      intro e he hb
      obtain he | ⟨rfl, -⟩ := mem_set_robAt he
      · exact hs.entryStage e he hb
      · exact Stage.noConfusion
    case waits =>
      intro st' hst' hb t ht
      have hpending : Pending s t := by
        obtain hst' | rfl := List.mem_or_eq_of_mem_set hst'
        · exact hs.waits st' hst' hb t ht
        · exact hs.waits st hmem hbusy t ht
      exact ⟨(hsame RobEntry.busy rfl t).trans hpending.1, (hsame RobEntry.value rfl t).trans hpending.2⟩
    case resolved =>
      intro st' hst' hb hr
      obtain hst' | rfl := List.mem_or_eq_of_mem_set hst'
      · exact hs.resolved st' hst' hb hr
      · exact hs.resolved st hmem hbusy (.inl (hready st hst))
    case ratNames =>
      intro id t ht
      obtain ⟨hb, hd⟩ := hs.ratNames id t ht
      exact ⟨(hsame RobEntry.busy rfl t).trans hb, (hsame RobEntry.dest rfl t).trans hd⟩

/-- A dispatch visit leaves every station's ready bit. -/
theorem DispatchMove.map_ready {p : Nat} {s t : State} (h : DispatchMove p s t) :
    t.rs.map Station.ready = s.rs.map Station.ready := by
  cases h with
  | skipped => rfl
  | stays => rfl
  | faulted => rfl
  | taken hst => exact map_set_of_getElem? Station.ready hst rfl

theorem TagsHeld.dispatchPhase {s t : State} (hs : TagsHeld s) (h : dispatchPhase s = .next t) : TagsHeld t := by
  refine (inTurn_keeps_of_mem (P := fun u => TagsHeld u ∧ u.rs.map Station.ready = s.rs.map Station.ready)
    (fun p hp u v ⟨hu, hsame⟩ hv => ?_) ⟨hs, rfl⟩ h).1
  have hmove := dispatchMove_of_visit hv
  refine ⟨hu.dispatchMove (fun st hst => ?_) hmove, hmove.map_ready.trans hsame⟩
  obtain ⟨st', hst', -, hready, -⟩ := mem_dispatchCandidates.mp hp
  have hsamep : (u.rs.map Station.ready)[p]? = (s.rs.map Station.ready)[p]? := by rw [hsame]
  simpa [hst, hst', hready] using hsamep

theorem TagsHeld.tick {s : State} (hs : TagsHeld s) : TagsHeld (tickPhase s) := { hs with }

/-! ### Write-result -/

/-- A broadcast serves every slot that waits for the entry it fills (R62, R63, R166). -/
theorem TagsHeld.completeMove {x : Nat} {s t : State} (hs : TagsHeld s) (h : CompleteMove x s t) : TagsHeld t := by
  cases h with
  | stays => exact hs.stays _
  | faulted f => exact hs.faulted f _
  | @published p st u v m =>
    have hsame : ∀ {β : Type} (f : RobEntry → β),
        f { s.robAt st.dest with value := some v, stage := .writeResult } = f (s.robAt st.dest) → ∀ q,
        f ((s.setRob st.dest { s.robAt st.dest with value := some v, stage := .writeResult }).robAt q) =
          f (s.robAt q) := fun f hf => robAt_setRob_congr f hf
    constructor
    case robLength => exact List.length_set.trans hs.robLength
    case tail => exact hs.tail
    case entryReady =>
      intro e he hr
      obtain he | ⟨rfl, hin⟩ := mem_set_robAt he
      · exact hs.entryReady e he hr
      · exact ⟨(hs.entryReady _ hin hr).1, rfl⟩
    case entryStage =>
      intro e he hb
      obtain he | ⟨rfl, -⟩ := mem_set_robAt he
      · exact hs.entryStage e he hb
      · exact Stage.noConfusion
    case waits =>
      intro st' hst' hb t ht
      obtain hst' | rfl := List.mem_or_eq_of_mem_set hst'
      · obtain ⟨st0, hst0, rfl⟩ := List.mem_map.mp hst'
        rw [Station.capture_busy] at hb
        obtain ⟨hw, hne⟩ := Station.waits_of_capture hb ht
        have hat := (robAt_setRob s st.dest t { s.robAt st.dest with value := some v, stage := .writeResult }).trans
          (if_neg fun h => hne h.1)
        obtain ⟨hbusy, hvalue⟩ := hs.waits st0 hst0 hb t hw
        exact ⟨(congrArg RobEntry.busy hat).trans hbusy, (congrArg RobEntry.value hat).trans hvalue⟩
      · cases hb
    case resolved =>
      intro st' hst' hb hr
      obtain hst' | rfl := List.mem_or_eq_of_mem_set hst'
      · obtain ⟨st0, hst0, rfl⟩ := List.mem_map.mp hst'
        rw [Station.capture_busy] at hb
        exact Station.resolved_capture hb (hs.resolved st0 hst0 hb) hr
      · cases hb
    case ratNames =>
      intro id t ht
      obtain ⟨hb, hd⟩ := hs.ratNames id t ht
      exact ⟨(hsame RobEntry.busy rfl t).trans hb, (hsame RobEntry.dest rfl t).trans hd⟩

/-- The sweep makes tags sound again (R168). -/
theorem TagsHeld.sweep {s : State} (hs : TagsHeld s) : TagSound (readySweep s) := by
  have hat := robAt_map (s := s) (g := fun e => if e.busy && e.value.isSome then { e with ready := true } else e) rfl
  have hbusy : ∀ q, ((readySweep s).robAt q).busy = (s.robAt q).busy := fun q => by
    refine (congrArg RobEntry.busy (hat q)).trans ?_; split <;> rfl
  have hvalue : ∀ q, ((readySweep s).robAt q).value = (s.robAt q).value := fun q => by
    refine (congrArg RobEntry.value (hat q)).trans ?_; split <;> rfl
  have hdest : ∀ q, ((readySweep s).robAt q).dest = (s.robAt q).dest := fun q => by
    refine (congrArg RobEntry.dest (hat q)).trans ?_; split <;> rfl
  constructor
  case robLength => exact (List.length_map _).trans hs.robLength
  case tail => exact hs.tail
  case entryReady =>
    intro e he
    obtain ⟨e', he', rfl⟩ := List.mem_map.mp he
    split
    · next h => exact h.symm
    · next h =>
      rw [Bool.not_eq_true] at h
      rw [h, Bool.eq_false_iff]
      exact fun hr => by simp [hs.entryReady e' he' hr] at h
  case entryStage =>
    intro e he hb
    obtain ⟨e', he', rfl⟩ := List.mem_map.mp he
    split at hb <;> split <;> exact hs.entryStage e' he' hb
  case waits =>
    intro st hst hb t ht
    rw [hbusy, hvalue]
    exact hs.waits st hst hb t ht
  case resolved => exact hs.resolved
  case ratNames =>
    intro id t ht
    rw [hbusy, hdest]
    exact hs.ratNames id t ht

theorem TagsHeld.writeResultPhase {s t : State} (hs : TagsHeld s) (h : writeResultPhase s = .next t)
    (hf : t.fault = none) : TagSound t := by
  obtain ⟨u, hu, hcase⟩ := andThen_next h
  have hheld : TagsHeld u := inTurn_keeps_of_mem (fun _ _ _ _ hs hv => hs.completeMove (completeMove_of_visit hv)) hs hu
  obtain ⟨hfault, rfl⟩ | ⟨-, hswept⟩ := hcase
  · simp [hf] at hfault
  · exact Host.Outcome.next.inj hswept ▸ hheld.sweep

/-! ### Commit -/

/-- Retiring keeps tags sound: nothing waits for an entry with a value, and a RAT entry that named it was its own register's
and is released (R61, R175). -/
theorem TagSound.retireEntry {s : State} (hs : TagSound s) {r : Nat} {e : RobEntry} {v : Word}
    (he : s.rob[r]? = some e) (hv : e.value = some v) (pc : Word) : TagSound (retireEntry r e pc v s) := by
  have hret := retireEntry_retired (pc := pc) v he
  have hentry : s.robAt r = e := robAt_of_getElem? he
  obtain ⟨hcfg, -, -⟩ := hret.parameters
  have hrob : (Machine.retireEntry r e pc v s).rob = s.rob.set r e.clear := by rw [retireEntry_eq he]
  constructor
  case robLength => rw [hret.entries, hcfg, hs.robLength]
  case tail => rw [hret.tail, hcfg]; exact hs.tail
  case entryReady =>
    intro e' he'
    rw [hrob] at he'
    obtain he' | rfl := List.mem_or_eq_of_mem_set he'
    · exact hs.entryReady e' he'
    · rfl
  case entryStage =>
    intro e' he' hb
    rw [hrob] at he'
    obtain he' | rfl := List.mem_or_eq_of_mem_set he'
    · exact hs.entryStage e' he' hb
    · cases hb
  case waits =>
    intro st hst hb t ht
    rw [hret.stations] at hst
    obtain ⟨hbusy, hvalue⟩ := hs.waits st hst hb t ht
    have hne : t ≠ r := fun htr => by simp [htr, hentry, hv] at hvalue
    rw [hret.others t hne]
    exact ⟨hbusy, hvalue⟩
  case resolved => rw [hret.stations]; exact hs.resolved
  case ratNames =>
    intro id t ht
    rw [ratAt_retireEntry] at ht
    split at ht
    · cases ht
    · next hkept =>
      obtain ⟨hbusy, hdest⟩ := hs.ratNames id t ht
      have hne : t ≠ r := by
        rintro rfl
        exact hkept ⟨hentry ▸ hdest, ht⟩
      rw [hret.others t hne]
      exact ⟨hbusy, hdest⟩

/-- A flush leaves no tag at all (R178, R184). -/
theorem TagSound.recover {s : State} (hs : TagSound s) (pc v : Word) : TagSound (recover pc v s) := by
  obtain ⟨-, hstations, -, hrat⟩ := recover_flushed pc v s
  constructor
  case robLength => exact (List.length_map _).trans hs.robLength
  case tail => exact Nat.zero_lt_of_lt hs.tail
  case entryReady =>
    intro e he
    obtain ⟨e', -, rfl⟩ := List.mem_map.mp he
    rfl
  case entryStage =>
    intro e he hb
    obtain ⟨e', -, rfl⟩ := List.mem_map.mp he
    cases hb
  case waits => exact fun st hst hb => by simp [hstations st hst] at hb
  case resolved => exact fun st hst hb => by simp [hstations st hst] at hb
  case ratNames => exact fun id t ht => by simp [hrat id, RatEntry.empty] at ht

theorem TagSound.commitMove {s t : State} (hs : TagSound s) (h : CommitMove s t) : TagSound t := by
  cases h with
  | skipped => exact hs
  | stays => exact hs.stays _
  | @retired r e pc v _ he _ hv => exact { hs.retireEntry he hv pc with }
  | @flushed r e pc v he _ hv => exact ((hs.retireEntry he hv pc).recover pc v).stays _

/-! ### End of cycle -/

/-- The recompute makes a station ready exactly when it waits for nothing (R180). -/
theorem TagSound.endOfCycle {s : State} (hs : TagSound s) : TagSound (endOfCycle s) :=
  { hs with
    waits := fun st hst hb t ht => by
      obtain ⟨st', hst', rfl⟩ := List.mem_map.mp hst
      split at hb <;> split at ht <;> exact hs.waits st' hst' hb t ht
    resolved := fun st hst hb hr => by
      obtain ⟨st', hst', rfl⟩ := List.mem_map.mp hst
      split
      · next hidle =>
        rw [if_pos hidle] at hr
        simp only [Bool.and_eq_true, Bool.not_eq_true'] at hidle
        simpa [hidle.2, Station.resolved] using hr
      · next hidle =>
        rw [if_neg hidle] at hb hr
        exact hs.resolved st' hst' hb hr }

/-- Settles O50: tags are sound up to Write-result's first broadcast, held until its sweep, and sound from there on. -/
theorem stepKeepsTagsSound : Obligations.StepKeepsTagsSound := by
  unfold Obligations.StepKeepsTagsSound
  intro s t hs h hf
  obtain ⟨-, ⟨-, rfl⟩ | ⟨-, hsf, hcycle⟩⟩ := step_next h
  · exact hs
  obtain ⟨a, ha, ⟨hfault, rfl⟩ | ⟨-, b, hb, ⟨hfault, rfl⟩ | ⟨-, c, hc, hcase⟩⟩⟩ := cycle_next hcycle
  · simp [hf] at hfault
  · simp [hf] at hfault
  have hissued : TagSound a := issuePhase_keeps_of_move (P := TagSound) (s := { s with cycles := s.cycles + 1 })
    (fun _ _ _ hs ht => hs.issueMove ht) (fun _ _ hs => { hs with }) { hs with } (by exact hsf) ha
  have hdispatched : TagsHeld b := hissued.held.dispatchPhase hb
  have hwritten : c.fault = none → TagSound c := hdispatched.tick.writeResultPhase hc
  obtain ⟨hfault, rfl⟩ | ⟨hcf, d, hd, hend⟩ := hcase
  · simp [hf] at hfault
  have hcommitted : TagSound d := (hwritten hcf).commitMove (commitMove_of_phase hd)
  obtain ⟨-, rfl⟩ | ⟨-, rfl⟩ := hend
  · exact hcommitted
  · exact hcommitted.endOfCycle

end Sys2Proof.Machine

/-! PROOFS of O6, O8, O49, O51, O53 and O58: construction, load and the register accessors. -/

namespace Sys2Proof.Machine

/-! ### The pools of a constructed block (R46, R53, R340) -/

theorem mem_stations {c : Config} {st : Station} (h : st ∈ Config.stations c) : ∃ k, st = Station.free k := by
  simp only [Config.stations, List.mem_append, List.mem_replicate] at h
  obtain ((⟨-, rfl⟩ | ⟨-, rfl⟩) | ⟨-, rfl⟩) | ⟨-, rfl⟩ := h <;> exact ⟨_, rfl⟩

theorem mem_units {c : Config} {u : FuncUnit} (h : u ∈ Config.units c) :
    ∃ k, u = FuncUnit.free k (c.fuLatency.get k) := by
  simp only [Config.units, List.mem_append, List.mem_replicate] at h
  obtain ((⟨-, rfl⟩ | ⟨-, rfl⟩) | ⟨-, rfl⟩) | ⟨-, rfl⟩ := h
  exacts [⟨.integer, rfl⟩, ⟨.memory, rfl⟩, ⟨.adder, rfl⟩, ⟨.multdiv, rfl⟩]

theorem stations_of_class (c : Config) (k : RsClass) :
    ((Config.stations c).filter fun st => st.cls == k).length = c.rsCount.get k := by
  cases k <;> simp [Config.stations, Station.free, RsTable.get]

theorem units_of_class (c : Config) (k : FuClass) :
    ((Config.units c).filter fun u => u.cls == k).length = c.fuCount.get k := by
  cases k <;> simp [Config.units, FuncUnit.free, FuTable.get]

/-! ### The reset values (R73) -/

section
variable (c : Config) (prog : Option Program) (pc : Word)

theorem blank_readReg (id : OperandId) : (State.blank c prog pc).readReg id = none := by
  simp [State.readReg, State.blank]

theorem blank_ratAt (id : OperandId) : (State.blank c prog pc).ratAt id = RatEntry.empty := by
  simp [State.ratAt, State.blank]

theorem blank_rob {e : RobEntry} (h : e ∈ (State.blank c prog pc).rob) : e = RobEntry.free :=
  List.eq_of_mem_replicate h

theorem blank_hasResetValues : HasResetValues (State.blank c prog pc) where
  registers := blank_readReg c prog pc
  robLength := List.length_replicate
  entries e he := by rw [blank_rob c prog pc he]; exact ⟨rfl, rfl, rfl, rfl, rfl⟩
  tail := rfl
  stationCount := stations_of_class c
  stations st hst := by
    obtain ⟨k, rfl⟩ := mem_stations hst
    exact ⟨rfl, rfl, rfl, rfl, rfl, rfl⟩
  unitCount := units_of_class c
  units u hu := by
    obtain ⟨k, rfl⟩ := mem_units hu
    exact ⟨rfl, rfl, rfl, rfl⟩
  rat id := by rw [blank_ratAt]; exact ⟨rfl, rfl, rfl⟩
  memory _ := rfl
  counters := ⟨rfl, rfl⟩
  logs := ⟨rfl, rfl⟩
  status := ⟨rfl, rfl⟩

theorem blank_shape (h : 0 < c.robDepth) : Shape (State.blank c prog pc) where
  robLength := List.length_replicate
  tail := h
  stations := rfl
  units := rfl
  inUse u hu := by
    obtain ⟨k, rfl⟩ := mem_units hu
    rfl
  memory := List.Pairwise.nil
  inside _ hc := absurd hc List.not_mem_nil
  logged := rfl
  retired := Nat.le_refl 0
  squashes := Nat.le_refl 0
  cursor := rfl

theorem blank_tagSound (h : 0 < c.robDepth) : TagSound (State.blank c prog pc) where
  robLength := List.length_replicate
  tail := h
  entryReady e he := by rw [blank_rob c prog pc he]; rfl
  entryStage e he hb := by rw [blank_rob c prog pc he] at hb; cases hb
  waits st hst hb := by
    obtain ⟨k, rfl⟩ := mem_stations hst
    cases hb
  resolved st hst hb := by
    obtain ⟨k, rfl⟩ := mem_stations hst
    cases hb
  ratNames id t ht := by rw [blank_ratAt] at ht; cases ht

end

/-- What the construction checks guarantee, and what construction gives (R301, R340). -/
theorem construct_ok {c : Config} {s : State} (h : construct c = .ok s) :
    0 < c.robDepth ∧ (∀ op ∈ issuableOpcodes, (c.rsClass op).isSome = true) ∧
      (∀ op ∈ issuableOpcodes, (c.fuClass op).isSome = true) ∧ s = State.blank c none 0 := by
  unfold construct at h
  split at h
  · cases h
  next hdepth =>
  split at h
  · cases h
  split at h
  · cases h
  next hrs =>
  split at h
  · cases h
  next hfu =>
  rw [Bool.not_eq_false, List.all_eq_true] at hrs hfu
  exact ⟨Nat.pos_of_ne_zero hdepth, hrs, hfu, (Except.ok.inj h).symm⟩

theorem construct_standard : construct Config.standard = .ok State.reset := rfl

/-- Settles O6: construction and reset both give the blank state. -/
theorem resetGivesEveryTableValue : Obligations.ResetGivesEveryTableValue := by
  unfold Obligations.ResetGivesEveryTableValue
  refine ⟨fun c s h => ?_, fun s => ⟨blank_hasResetValues .., rfl, rfl, fun p hp => ?_⟩⟩
  · obtain ⟨-, -, -, rfl⟩ := construct_ok h
    exact ⟨blank_hasResetValues c none 0, rfl, rfl⟩
  · simp [hostReset, State.blank, hp]

theorem construct_shape {c : Config} {s : State} (h : construct c = .ok s) : Shape s := by
  obtain ⟨hdepth, -, -, rfl⟩ := construct_ok h
  exact blank_shape c none 0 hdepth

theorem construct_tagSound {c : Config} {s : State} (h : construct c = .ok s) : TagSound s := by
  obtain ⟨hdepth, -, -, rfl⟩ := construct_ok h
  exact blank_tagSound c none 0 hdepth

/-- Settles O49: `State.reset` is constructed with the standard configuration. -/
theorem constructionHasShape : Obligations.ConstructionHasShape :=
  ⟨fun _ _ => construct_shape, construct_shape construct_standard⟩

/-- Settles O51: `State.reset` is constructed with the standard configuration. -/
theorem constructionIsTagSound : Obligations.ConstructionIsTagSound :=
  ⟨fun _ _ => construct_tagSound, construct_tagSound construct_standard⟩

/-! ### Loading (R302, R341) -/

theorem checkShape_ok {base : Word} {records : List Instr} (h : checkShape base records = .ok ()) :
    records.count .eop = 1 ∧ records.getLast? = some .eop ∧ base.toNat + 4 * records.length ≤ 2 ^ 32 := by
  unfold checkShape at h
  split at h
  · cases h
  next hcount =>
  split at h
  · cases h
  next hlast =>
  split at h
  · cases h
  next hrange =>
  exact ⟨not_not.mp hcount, not_not.mp hlast, not_not.mp hrange⟩

/-- The records of a program are its words' instructions, in order (R111). -/
theorem getElem?_decodeRecords {words : List PackedWord} {k : Nat} {records : List Instr}
    (h : decodeRecords k words = .ok records) {n : Nat} {w : PackedWord} {i : Instr} (hw : words[n]? = some w)
    (hi : decode w = .ok i) : records[n]? = some i := by
  induction words generalizing k records n with
  | nil => cases hw
  | cons w' ws ih =>
    unfold decodeRecords at h
    split at h
    · cases h
    · cases h
    next i' hi' =>
    split at h
    · cases h
    next rest hrest =>
    obtain rfl := Except.ok.inj h
    cases n with
    | zero =>
      obtain rfl : w' = w := Option.some.inj hw
      obtain rfl : i' = i := Except.ok.inj (hi'.symm.trans hi)
      rfl
    | succ n => exact ih hrest hw

/-- What a successful load leaves: a block of the same configuration at its reset values, with the decoded program. -/
theorem loadProgram_ok {words : List PackedWord} {base : Word} {s t : State} (h : loadProgram words base s = .ok t) :
    ∃ records, decodeRecords 0 words = .ok records ∧ checkShape base records = .ok () ∧
      t = State.blank s.cfg (some { base := base, records := records }) base := by
  unfold loadProgram at h
  split at h
  · cases h
  next records hrecords =>
  split at h
  · cases h
  next hshape => exact ⟨records, hrecords, hshape, (Except.ok.inj h).symm⟩

/-- The record at `BASE_PC + 4·n`, while the program does not wrap around (R35, R111). -/
theorem record?_of_index {p : Program} {n : Nat} (hn : n < p.records.length)
    (hrange : p.base.toNat + 4 * p.records.length ≤ 2 ^ 32) :
    p.record? (p.base + BitVec.ofNat 32 (4 * n)) = p.records[n]? := by
  have haddr : (p.base + BitVec.ofNat 32 (4 * n)).toNat = p.base.toNat + 4 * n := by
    rw [BitVec.toNat_add, BitVec.toNat_ofNat]
    omega
  simp [Program.record?, haddr, instrWidth]

/-- Settles O8. -/
theorem loadedRecordsAreTheDecodedWords : Obligations.LoadedRecordsAreTheDecodedWords := by
  unfold Obligations.LoadedRecordsAreTheDecodedWords
  intro words base s t n w i h hw hi
  obtain ⟨records, hrecords, hshape, rfl⟩ := loadProgram_ok h
  have hrecord : records[n]? = some i := getElem?_decodeRecords hrecords hw hi
  obtain ⟨-, -, hrange⟩ := checkShape_ok hshape
  exact ⟨_, rfl, (record?_of_index (List.getElem?_eq_some_iff.mp hrecord).1 hrange).trans hrecord⟩

/-! ### The register accessors (R34) -/

/-- A register write changes the two register files only. -/
theorem writeReg_eq (s : State) (id : OperandId) (v : Word) :
    s.writeReg id v = { s with r := (s.writeReg id v).r, f := (s.writeReg id v).f } := by
  unfold State.writeReg
  split <;> rfl

theorem operandId_ofNat_inj {k n : Nat} (hk : k < 64) (hn : n < 64) (h : BitVec.ofNat 6 k = BitVec.ofNat 6 n) :
    k = n := by
  have hnat := congrArg BitVec.toNat h
  simp only [BitVec.toNat_ofNat] at hnat
  omega

/-- Settles O58, from the rules for reading after writing. -/
theorem registerAccessors : Obligations.RegisterAccessors := by
  unfold Obligations.RegisterAccessors
  refine fun s n v => ⟨fun hn => ?_, fun hn => ?_⟩
  · have hbad : ¬n < 64 := by omega
    exact ⟨if_neg hbad, if_neg hbad, if_neg hbad⟩
  refine ⟨if_pos hn, if_pos hn, s.writeReg (BitVec.ofNat 6 n) v, if_pos hn, ?_, fun k hk hkn => ?_,
    fun id => State.writeReg_ratAt s _ v id, writeReg_eq s _ v⟩
  · simp [hostReadReg, hn, readReg_writeReg]
  · have hne : BitVec.ofNat 6 k ≠ BitVec.ofNat 6 n := fun h => hkn (operandId_ofNat_inj hk hn h)
    simp [hostReadReg, hk, readReg_writeReg, hne]

/-! ### Coherence of a loaded block (R343) -/

/-- Coherence reads configuration, program, fetch address, buffer and pools only. -/
theorem Coherent.congr {s t : State} (hs : Coherent s) (hcfg : t.cfg = s.cfg) (hprog : t.prog = s.prog)
    (hfetch : t.fetchPC = s.fetchPC) (hrob : t.rob = s.rob) (hrs : t.rs = s.rs) (hfu : t.fu = s.fu) : Coherent t := by
  constructor <;> simp only [hcfg, hprog, hfetch, hrob, hrs, hfu]
  exacts [hs.program, hs.rsClasses, hs.fuClasses, hs.stationPcs, hs.stationPcsBelow, hs.entryPcs, hs.entryPcsBelow,
    hs.stationOps, hs.resolved, hs.addressed, hs.unitPcs, hs.unitServes, hs.entryReady]

theorem blank_coherent {c : Config} {p : Program} {pc : Word} (hp : checkShape p.base p.records = .ok ())
    (hrs : ∀ op ∈ issuableOpcodes, (c.rsClass op).isSome = true)
    (hfu : ∀ op ∈ issuableOpcodes, (c.fuClass op).isSome = true) : Coherent (State.blank c (some p) pc) := by
  have hstation : ∀ st ∈ (State.blank c (some p) pc).rs, st.pc = none := fun st hst => by
    obtain ⟨k, rfl⟩ := mem_stations hst
    rfl
  have hunit : ∀ u ∈ (State.blank c (some p) pc).fu, u.inUse = false := fun u hu => by
    obtain ⟨k, rfl⟩ := mem_units hu
    rfl
  have hentry : ∀ e ∈ (State.blank c (some p) pc).rob, e = RobEntry.free := fun e he => blank_rob c _ pc he
  have hidle : ∀ st ∈ (State.blank c (some p) pc).rs, st.busy = false := fun st hst => by
    simp [Station.busy, hstation st hst]
  constructor
  case program => exact ⟨p, rfl, hp⟩
  case rsClasses => exact hrs
  case fuClasses => exact hfu
  case stationPcs => rw [List.filterMap_eq_nil_iff.mpr hstation]; exact List.nodup_nil
  case stationPcsBelow => exact fun st hst a ha => by simp [hstation st hst] at ha
  case entryPcs =>
    rw [List.filterMap_eq_nil_iff.mpr fun e he => by rw [hentry e he]; rfl]
    exact List.nodup_nil
  case entryPcsBelow => exact fun e he a ha => by rw [hentry e he] at ha; cases ha
  case stationOps => exact fun st hst hb => by simp [hidle st hst] at hb
  case resolved => exact fun st hst hb => by simp [hidle st hst] at hb
  case addressed => exact fun st hst hb => by simp [hidle st hst] at hb
  case unitPcs =>
    rw [List.filter_eq_nil_iff.mpr fun u hu => by simp [hunit u hu]]
    exact List.nodup_nil
  case unitServes => exact fun u hu h => by simp [hunit u hu] at h
  case entryReady => exact fun e he h => by rw [hentry e he] at h; cases h

/-- Settles O53: a load leaves nothing in flight, and the host's writes reach registers and memory only. -/
theorem loadedBlockIsCoherent : Obligations.LoadedBlockIsCoherent := by
  unfold Obligations.LoadedBlockIsCoherent
  refine ⟨fun c s words base t hs ht => ?_, fun id v s t hs ht => ?_, fun a v s t hs ht => ?_⟩
  · obtain ⟨-, hrs, hfu, rfl⟩ := construct_ok hs
    obtain ⟨records, -, hshape, rfl⟩ := loadProgram_ok ht
    exact blank_coherent hshape hrs hfu
  · unfold hostWriteReg at ht
    split at ht
    · obtain rfl := Except.ok.inj ht
      apply hs.congr <;> simp
    · cases ht
  · unfold hostWriteMem at ht
    split at ht
    · obtain rfl := Except.ok.inj ht
      exact hs.congr rfl rfl rfl rfl rfl rfl
    · cases ht

end Sys2Proof.Machine

/-! SUPPORT. Coherence, move by move. -/

namespace Sys2Proof.Machine

/-! ### Distinct keys -/

/-- The keys of a list are distinct when equal keys stand at equal positions. -/
theorem nodup_filterMap_iff {α β : Type} {f : α → Option β} {l : List α} :
    (l.filterMap f).Nodup ↔ ∀ (i j : Nat) (a b : α) (x : β), l[i]? = some a → l[j]? = some b → f a = some x →
      f b = some x → i = j := by
  rw [List.Nodup, List.pairwise_filterMap, List.pairwise_iff_getElem]
  constructor
  · intro h i j a b x hi hj ha hb
    obtain ⟨hil, rfl⟩ := List.getElem?_eq_some_iff.mp hi
    obtain ⟨hjl, rfl⟩ := List.getElem?_eq_some_iff.mp hj
    by_contra hij
    obtain hlt | hgt := Nat.lt_or_gt_of_ne hij
    · exact h i j hil hjl hlt x ha x hb rfl
    · exact h j i hjl hil hgt x hb x ha rfl
  · rintro h i j hi hj hij x hx y hy rfl
    have heq := h i j _ _ x (List.getElem?_eq_getElem hi) (List.getElem?_eq_getElem hj) hx hy
    omega

/-- Two members with the same key are one. -/
theorem eq_of_nodup_filterMap {α β : Type} {f : α → Option β} {l : List α} (h : (l.filterMap f).Nodup) {a b : α} {x : β}
    (ha : a ∈ l) (hb : b ∈ l) (hfa : f a = some x) (hfb : f b = some x) : a = b := by
  obtain ⟨i, hi⟩ := List.mem_iff_getElem?.mp ha
  obtain ⟨j, hj⟩ := List.mem_iff_getElem?.mp hb
  obtain rfl := nodup_filterMap_iff.mp h i j a b x hi hj hfa hfb
  exact Option.some.inj (hi.symm.trans hj)

/-- The keys are those of any list that `f` reads alike. -/
theorem filterMap_eq_of_map_eq {α β : Type} {f : α → Option β} {l l' : List α} (h : l'.map f = l.map f) :
    l'.filterMap f = l.filterMap f := by
  have hid : ∀ m : List α, m.filterMap f = (m.map f).filterMap id := fun m => by
    rw [List.filterMap_map, Function.id_comp]
  rw [hid, hid, h]

/-- Overwriting a member by one whose key is new, or that has none, keeps the keys distinct. -/
theorem nodup_filterMap_set {α β : Type} {f : α → Option β} {l : List α} (h : (l.filterMap f).Nodup) (p : Nat) {a : α}
    (hnew : ∀ x, f a = some x → ∀ b ∈ l, f b ≠ some x) : ((l.set p a).filterMap f).Nodup := by
  rw [nodup_filterMap_iff] at h ⊢
  have hread : ∀ (i : Nat) (b : α), (l.set p a)[i]? = some b → i = p ∧ b = a ∨ l[i]? = some b := fun i b hi => by
    rw [List.getElem?_set] at hi
    split at hi
    · next hpi =>
      split at hi
      · exact .inl ⟨hpi.symm, (Option.some.inj hi).symm⟩
      · cases hi
    · exact .inr hi
  intro i j b c x hi hj hb hc
  obtain ⟨rfl, rfl⟩ | hi' := hread i b hi
  · obtain ⟨rfl, rfl⟩ | hj' := hread j c hj
    · rfl
    · exact absurd hc (hnew x hb c (List.mem_of_getElem? hj'))
  · obtain ⟨rfl, rfl⟩ | hj' := hread j c hj
    · exact absurd hb (hnew x hc b (List.mem_of_getElem? hi'))
    · exact h i j b c x hi' hj' hb hc

theorem modify_of_getElem? {α : Type} {g : α → α} {l : List α} {p : Nat} {a : α} (h : l[p]? = some a) :
    l.modify p g = l.set p (g a) := by
  obtain ⟨hlt, rfl⟩ := List.getElem?_eq_some_iff.mp h
  refine List.ext_getElem (by simp) fun q _ _ => ?_
  by_cases hq : p = q
  · subst hq; simp
  · simp [hq]

/-- Overwriting one member leaves every other one in the list. -/
theorem mem_set_of_ne {α : Type} {l : List α} {p : Nat} {a b c : α} (ha : a ∈ l) (hb : l[p]? = some b) (hne : a ≠ b) :
    a ∈ l.set p c := by
  obtain ⟨q, hq⟩ := List.mem_iff_getElem?.mp ha
  have hpq : p ≠ q := by
    rintro rfl
    exact hne (Option.some.inj (hq.symm.trans hb))
  exact List.mem_of_getElem? ((List.getElem?_set_ne hpq).trans hq)

theorem mem_set_self {α : Type} {l : List α} {p : Nat} {b : α} (hb : l[p]? = some b) (c : α) : c ∈ l.set p c :=
  List.mem_set (List.getElem?_eq_some_iff.mp hb).1 c

/-! ### Coherence, station by station and entry by entry -/

/-- What coherence asks of one station, in a block that fetches at `fetchPC`. -/
structure StationCoherent (fetchPC : Word) (st : Station) : Prop where
  below : ∀ pc, st.pc = some pc → pc.toNat < fetchPC.toNat
  op : st.busy = true → st.op ≠ .eop ∧ slotsFit st.op st.j st.k = true
  resolved : st.busy = true → st.ready = true ∨ st.executing = true → st.resolved = true
  addressed : st.busy = true → st.executing = true → isMemory st.op = true → st.ea.isSome = true

/-- What coherence asks of one reorder-buffer entry. -/
structure EntryCoherent (fetchPC : Word) (e : RobEntry) : Prop where
  below : ∀ pc, e.pc = some pc → pc.toNat < fetchPC.toNat
  ready : e.ready = true → e.busy = true ∧ e.value.isSome = true

/-- The program counter a unit services, if it is in use (R54). -/
def FuncUnit.served (u : FuncUnit) : Option Word := if u.inUse then u.pc else none

theorem served_of_inUse {u : FuncUnit} (h : u.inUse = true) : u.served = u.pc := if_pos h

theorem inUse_of_served {u : FuncUnit} {pc : Word} (h : u.served = some pc) : u.inUse = true ∧ u.pc = some pc := by
  unfold FuncUnit.served at h
  split at h
  · next hu => exact ⟨hu, h⟩
  · cases h

theorem Coherent.station {s : State} (hs : Coherent s) {st : Station} (h : st ∈ s.rs) : StationCoherent s.fetchPC st :=
  ⟨hs.stationPcsBelow st h, hs.stationOps st h, hs.resolved st h, hs.addressed st h⟩

theorem Coherent.entry {s : State} (hs : Coherent s) {e : RobEntry} (h : e ∈ s.rob) : EntryCoherent s.fetchPC e :=
  ⟨hs.entryPcsBelow e h, hs.entryReady e h⟩

theorem Coherent.servedPcs {s : State} (hs : Coherent s) : (s.fu.filterMap FuncUnit.served).Nodup := by
  have h := hs.unitPcs
  rwa [List.filterMap_filter] at h

/-- Every unit in use services a busy, executing station of its own (R57, R163). -/
def UnitsServe (s : State) : Prop :=
  ∀ u ∈ s.fu, u.inUse = true → ∃ st ∈ s.rs, st.busy = true ∧ st.executing = true ∧ st.pc = u.pc

/-- Coherence from its parts, for a state with the configuration and the program of a coherent one. -/
theorem Coherent.of_parts {s t : State} (hs : Coherent s) (hcfg : t.cfg = s.cfg) (hprog : t.prog = s.prog)
    (hstation : ∀ st ∈ t.rs, StationCoherent t.fetchPC st) (hstationPcs : (t.rs.filterMap Station.pc).Nodup)
    (hentry : ∀ e ∈ t.rob, EntryCoherent t.fetchPC e) (hentryPcs : (t.rob.filterMap RobEntry.pc).Nodup)
    (hunitPcs : (t.fu.filterMap FuncUnit.served).Nodup) (hserve : UnitsServe t) : Coherent t where
  program := hprog ▸ hs.program
  rsClasses := hcfg ▸ hs.rsClasses
  fuClasses := hcfg ▸ hs.fuClasses
  stationPcs := hstationPcs
  stationPcsBelow st h := (hstation st h).below
  entryPcs := hentryPcs
  entryPcsBelow e h := (hentry e h).below
  stationOps st h := (hstation st h).op
  resolved st h := (hstation st h).resolved
  addressed st h := (hstation st h).addressed
  unitPcs := by rw [List.filterMap_filter]; exact hunitPcs
  unitServes := hserve
  entryReady e h := (hentry e h).ready

theorem StationCoherent.of_pc_none {fetchPC : Word} {st : Station} (h : st.pc = none) : StationCoherent fetchPC st := by
  have hb : ¬st.busy = true := by simp [Station.busy, h]
  exact ⟨fun pc hpc => by simp [h] at hpc, fun hb' => absurd hb' hb, fun hb' => absurd hb' hb,
    fun hb' => absurd hb' hb⟩

/-- Capture fills slots and leaves none absent that was not. -/
theorem slotsFit_capture {op : Opcode} {j k : Slot} (r : Nat) (v : Word) (h : slotsFit op j k = true) :
    slotsFit op (j.capture r v) (k.capture r v) = true := by
  have hslot : ∀ x : Slot, (x.capture r v != .absent) = (x != .absent) := fun x => by
    rw [Slot.capture_eq]
    split
    · next hx => rw [hx]; rfl
    · rfl
  unfold slotsFit at h ⊢
  rwa [hslot, hslot]

theorem StationCoherent.capture {fetchPC : Word} {st : Station} (hst : StationCoherent fetchPC st) (r : Nat)
    (v : Word) : StationCoherent fetchPC (st.capture r v) where
  below pc h := hst.below pc (by simpa using h)
  op hb := by
    rw [Station.capture_busy] at hb
    obtain ⟨hj, hk⟩ := Station.capture_slots r v hb
    rw [Station.capture_op, hj, hk]
    exact ⟨(hst.op hb).1, slotsFit_capture r v (hst.op hb).2⟩
  resolved hb := by
    rw [Station.capture_busy] at hb
    exact Station.resolved_capture hb (hst.resolved hb)
  addressed hb := by
    rw [Station.capture_busy] at hb
    simpa using hst.addressed hb

/-! ### Issue keeps coherence -/

/-- An address that names a record lies a whole number of records past the base (R35, R111). -/
theorem record?_some {p : Program} {a : Word} {i : Instr} (h : p.record? a = some i) :
    p.base.toNat ≤ a.toNat ∧ (a.toNat - p.base.toNat) % 4 = 0 ∧ p.records[(a.toNat - p.base.toNat) / 4]? = some i := by
  unfold Program.record? at h
  split at h
  · next haddr => exact ⟨haddr.1, haddr.2, h⟩
  · cases h

/-- Before the end-of-program marker the fetch address does not wrap around (R302). -/
theorem Coherent.fallThrough_toNat {s : State} (hs : Coherent s) {i : Instr} (hi : i ≠ .eop) (hf : s.fetch = some i) :
    (fallThrough s.fetchPC).toNat = s.fetchPC.toNat + 4 := by
  obtain ⟨p, hp, hshape⟩ := hs.program
  obtain ⟨-, hlast, hrange⟩ := checkShape_ok hshape
  simp only [State.fetch, hp] at hf
  obtain ⟨hbase, hstride, hrecord⟩ := record?_some hf
  obtain ⟨hlt, -⟩ := List.getElem?_eq_some_iff.mp hrecord
  have hne : (s.fetchPC.toNat - p.base.toNat) / 4 ≠ p.records.length - 1 := fun h => by
    rw [h, ← List.getLast?_eq_getElem?, hlast] at hrecord
    exact hi (Option.some.inj hrecord).symm
  have hfour : (4 : Word).toNat = 4 := rfl
  rw [fallThrough_eq, BitVec.toNat_add, hfour]
  omega

theorem issuedSlot_ne_absent {s : State} {i : Instr} {id : OperandId} : issuedSlot s i (some id) ≠ .absent := by
  simp only [issuedSlot]
  repeat' split
  all_goals exact Slot.noConfusion

theorem sources_inFlight (i : Instr) :
    (firstSource i.opcode.inFlight).isNone = (firstSource i).isNone ∧
      (secondSource i.opcode.inFlight).isNone = (secondSource i).isNone := by
  cases i <;> exact ⟨rfl, rfl⟩

/-- The issuing instruction's station has the slots of its form (R119). -/
theorem slotsFit_issued (s : State) (i : Instr) :
    slotsFit i.opcode (issuedSlot s i (firstSource i)) (issuedSlot s i (secondSource i)) = true := by
  have hslot : ∀ src : Option OperandId, (src.isNone || issuedSlot s i src != .absent) = true := fun src => by
    cases src with
    | none => rfl
    | some id => simpa using issuedSlot_ne_absent
  simp only [slotsFit, sources_inFlight, hslot, Bool.and_self]

theorem opcode_ne_eop {i : Instr} (hi : i ≠ .eop) : i.opcode ≠ .eop := by
  cases i <;> simp [Instr.opcode] at hi ⊢

theorem Coherent.issueInstr {s : State} {i : Instr} {p : Nat} (hs : Coherent s) (hi : i ≠ .eop) (hf : s.fetch = some i)
    (hslot : issueSlot i.opcode s = some p) : Coherent (issueInstr s i p) := by
  obtain ⟨-, -, st, -, hst, -, hfree⟩ := issueSlot_some hslot
  have hnext := hs.fallThrough_toNat hi hf
  have hpc : st.pc = none := by simpa [Station.busy] using hfree
  have hrs : (Machine.issueInstr s i p).rs = s.rs.set p (issuedStation s i st) := modify_of_getElem? hst
  have hbelow : ∀ {pc : Word}, pc.toNat < s.fetchPC.toNat → pc.toNat < (fallThrough s.fetchPC).toNat := fun h => by
    omega
  refine hs.of_parts rfl rfl ?_ ?_ ?_ ?_ hs.servedPcs ?_
  · intro st' hst'
    rw [hrs] at hst'
    obtain hst' | rfl := List.mem_or_eq_of_mem_set hst'
    · have hold := hs.station hst'
      exact { hold with below := fun pc h => hbelow (hold.below pc h) }
    · refine ⟨fun pc h => ?_, fun _ => ⟨opcode_ne_eop hi, slotsFit_issued s i⟩, fun _ h => ?_, fun _ h => ?_⟩
      · obtain rfl := Option.some.inj h
        show s.fetchPC.toNat < (fallThrough s.fetchPC).toNat
        omega
      · simp [issuedStation] at h
      · cases h
  · rw [hrs]
    refine nodup_filterMap_set hs.stationPcs p fun pc h st' hst' hpc' => ?_
    obtain rfl := Option.some.inj h
    exact Nat.lt_irrefl _ ((hs.station hst').below _ hpc')
  · intro e he
    obtain he | rfl := List.mem_or_eq_of_mem_set he
    · have hold := hs.entry he
      exact { hold with below := fun pc h => hbelow (hold.below pc h) }
    · refine ⟨fun pc h => ?_, fun h => by cases h⟩
      obtain rfl := Option.some.inj h
      show s.fetchPC.toNat < (fallThrough s.fetchPC).toNat
      omega
  · refine nodup_filterMap_set hs.entryPcs _ fun pc h e he hpc' => ?_
    obtain rfl := Option.some.inj h
    exact Nat.lt_irrefl _ ((hs.entry he).below _ hpc')
  · intro u hu huse
    obtain ⟨st', hst', hb, hx, hserves⟩ := hs.unitServes u hu huse
    refine ⟨st', ?_, hb, hx, hserves⟩
    rw [hrs]
    refine mem_set_of_ne hst' hst ?_
    rintro rfl
    simp [hfree] at hb

theorem Coherent.stays {s : State} (hs : Coherent s) (w : Serving) : Coherent { s with serving := w } :=
  hs.congr rfl rfl rfl rfl rfl rfl

theorem Coherent.issueMove {i : Instr} {s t : State} (hs : Coherent s) (hf : s.fetch = some i) (h : IssueMove i s t) :
    Coherent t := by
  cases h with
  | stays => exact hs.stays _
  | issued hi hslot => exact (hs.issueInstr hi hf hslot).stays _

/-! ### Dispatch keeps coherence -/

/-- The station is one that Execute-dispatch visits (R156). -/
def Dispatchable (s : State) (p : Nat) : Prop :=
  ∃ st, s.rs[p]? = some st ∧ st.busy = true ∧ st.ready = true ∧ st.executing = false

/-- Linking a unit keeps coherence: no unit services the station yet, since it is not executing (R57, R159). -/
theorem Coherent.dispatchMove {p : Nat} {s t : State} (hs : Coherent s) (hp : Dispatchable s p)
    (h : DispatchMove p s t) : t.fault = none → Coherent t := by
  cases h with
  | skipped => exact fun _ => hs
  | stays => exact fun _ => hs.stays _
  | faulted f => exact fun hf => by cases hf
  | @taken x st u ea hst hbusy hu hfree hea =>
    intro _
    obtain ⟨st', hst', -, hready, hidle⟩ := hp
    obtain rfl : st = st' := Option.some.inj (hst.symm.trans hst')
    have hmem : st ∈ s.rs := List.mem_of_getElem? hst
    have hold := hs.station hmem
    refine hs.of_parts rfl rfl ?_ ?_ ?_ ?_ ?_ ?_
    · intro st' hst'
      obtain hst' | rfl := List.mem_or_eq_of_mem_set hst'
      · exact hs.station hst'
      · exact ⟨hold.below, hold.op, fun _ _ => hold.resolved hbusy (.inl hready), fun _ _ => hea⟩
    · rw [filterMap_eq_of_map_eq (map_set_of_getElem? Station.pc hst (by rfl))]
      exact hs.stationPcs
    · intro e he
      obtain he | ⟨rfl, hin⟩ := mem_set_robAt he
      · exact hs.entry he
      · exact ⟨(hs.entry hin).below, (hs.entry hin).ready⟩
    · rw [filterMap_eq_of_map_eq (map_set_robAt RobEntry.pc s (by rfl))]
      exact hs.entryPcs
    · refine nodup_filterMap_set hs.servedPcs x fun pc hpc u' hu' hserved => ?_
      obtain ⟨huse, hpc'⟩ := inUse_of_served hserved
      obtain ⟨st', hst', -, hexec, hserves⟩ := hs.unitServes u' hu' huse
      obtain rfl := eq_of_nodup_filterMap hs.stationPcs hst' hmem (hserves.trans hpc') hpc
      simp [hidle] at hexec
    · intro u' hu' huse
      obtain hu' | rfl := List.mem_or_eq_of_mem_set hu'
      · obtain ⟨st', hst', hb, hexec, hserves⟩ := hs.unitServes u' hu' huse
        refine ⟨st', mem_set_of_ne hst' hst ?_, hb, hexec, hserves⟩
        rintro rfl
        simp [hidle] at hexec
      · exact ⟨_, mem_set_self hst _, hbusy, rfl, rfl⟩

/-- A dispatch visit leaves every other station. -/
theorem DispatchMove.other {p q : Nat} {s t : State} (h : DispatchMove p s t) (hq : q ≠ p) : t.rs[q]? = s.rs[q]? := by
  cases h with
  | skipped => rfl
  | stays => rfl
  | faulted => rfl
  | taken => exact List.getElem?_set_ne hq.symm

/-! ### Unit-tick, Write-result, Commit and the end of the cycle keep coherence -/

theorem Coherent.tick {s : State} (hs : Coherent s) : Coherent (tickPhase s) := by
  refine hs.of_parts rfl rfl (fun _ => hs.station) hs.stationPcs (fun _ => hs.entry) hs.entryPcs ?_ ?_
  · have hserved : ∀ u : FuncUnit, u.tick.served = u.served := fun u => by simp [FuncUnit.served]
    rw [tickPhase, filterMap_eq_of_map_eq (map_map_of_eq FuncUnit.served hserved s.fu)]
    exact hs.servedPcs
  · intro u hu huse
    obtain ⟨u', hu', rfl⟩ := List.mem_map.mp hu
    rw [FuncUnit.tick_inUse] at huse
    rw [FuncUnit.tick_pc]
    exact hs.unitServes u' hu' huse

/-- A completing unit and its station leave together, and no other unit services that station (R57, R169). -/
theorem Coherent.completeMove {x : Nat} {s t : State} (hs : Coherent s)
    (hx : ∃ u, s.fu[x]? = some u ∧ u.inUse = true) (h : CompleteMove x s t) : t.fault = none → Coherent t := by
  cases h with
  | stays => exact fun _ => hs.stays _
  | faulted f => exact fun hf => by cases hf
  | @published p st u v m hst hbusy hpc hu hmem =>
    intro _
    obtain ⟨u', hu', huse⟩ := hx
    obtain rfl : u = u' := Option.some.inj (hu.symm.trans hu')
    have hcaptured : (s.rs.map (Station.capture st.dest v))[p]? = some (st.capture st.dest v) := by simp [hst]
    refine hs.of_parts rfl rfl ?_ ?_ ?_ ?_ ?_ ?_
    · intro st' hst'
      obtain hst' | rfl := List.mem_or_eq_of_mem_set hst'
      · obtain ⟨st0, hst0, rfl⟩ := List.mem_map.mp hst'
        exact (hs.station hst0).capture _ _
      · exact .of_pc_none rfl
    · refine nodup_filterMap_set ?_ p fun pc h => by cases h
      rw [filterMap_eq_of_map_eq (map_map_of_eq Station.pc (by simp) s.rs)]
      exact hs.stationPcs
    · intro e he
      obtain he | ⟨rfl, hin⟩ := mem_set_robAt he
      · exact hs.entry he
      · exact ⟨(hs.entry hin).below, fun h => ⟨((hs.entry hin).ready h).1, rfl⟩⟩
    · rw [filterMap_eq_of_map_eq (map_set_robAt RobEntry.pc s (by rfl))]
      exact hs.entryPcs
    · exact nodup_filterMap_set hs.servedPcs x fun pc h => by simp [FuncUnit.served, FuncUnit.release] at h
    · intro u' hu' huse'
      obtain ⟨y, hy⟩ := List.mem_iff_getElem?.mp hu'
      have hyx : x ≠ y := by
        rintro rfl
        obtain rfl : u.release = u' := by simpa [(List.getElem?_eq_some_iff.mp hu).1] using hy
        cases huse'
      rw [List.getElem?_set_ne hyx] at hy
      obtain ⟨st', hst', hb, hexec, hserves⟩ := hs.unitServes u' (List.mem_of_getElem? hy) huse'
      obtain ⟨pc, hpc'⟩ := Option.isSome_iff_exists.mp hb
      have hne : st'.pc ≠ st.pc := fun heq => hyx <|
        nodup_filterMap_iff.mp hs.servedPcs x y u u' pc hu hy
          ((served_of_inUse huse).trans (hpc.symm.trans (heq.symm.trans hpc')))
          ((served_of_inUse huse').trans (hserves.symm.trans hpc'))
      refine ⟨st'.capture st.dest v, mem_set_of_ne (List.mem_map_of_mem hst') hcaptured fun heq => hne ?_,
        by simpa using hb, by simpa using hexec, by simpa using hserves⟩
      simpa using congrArg Station.pc heq

/-- The completion of a unit leaves every other unit. -/
theorem CompleteMove.other {x y : Nat} {s t : State} (h : CompleteMove x s t) (hy : y ≠ x) : t.fu[y]? = s.fu[y]? := by
  cases h with
  | stays => rfl
  | faulted => rfl
  | published => exact List.getElem?_set_ne hy.symm

theorem Coherent.sweep {s : State} (hs : Coherent s) : Coherent (readySweep s) := by
  refine hs.of_parts rfl rfl (fun _ => hs.station) hs.stationPcs ?_ ?_ hs.servedPcs hs.unitServes
  · intro e he
    obtain ⟨e', he', rfl⟩ := List.mem_map.mp he
    have hold := hs.entry he'
    split
    · next h => exact ⟨hold.below, fun _ => Bool.and_eq_true_iff.mp h⟩
    · exact hold
  · rw [readySweep, filterMap_eq_of_map_eq (map_map_of_eq RobEntry.pc (by intro e; split <;> rfl) s.rob)]
    exact hs.entryPcs

theorem Coherent.retireEntry {s : State} (hs : Coherent s) {r : Nat} {e : RobEntry} (he : s.rob[r]? = some e)
    (pc v : Word) : Coherent (retireEntry r e pc v s) := by
  rw [retireEntry_eq he]
  refine hs.of_parts rfl rfl (fun _ => hs.station) hs.stationPcs ?_ ?_ hs.servedPcs hs.unitServes
  · intro e' he'
    obtain he' | rfl := List.mem_or_eq_of_mem_set he'
    · exact hs.entry he'
    · exact ⟨fun pc h => (by cases h), fun h => (by cases h)⟩
  · exact nodup_filterMap_set hs.entryPcs r fun pc h => by cases h

/-- After a flush nothing is in flight that the new fetch address could lie below (R178, R184). -/
theorem Coherent.recover {s : State} (hs : Coherent s) (pc v : Word) : Coherent (recover pc v s) := by
  obtain ⟨-, hstations, hunits, -⟩ := recover_flushed pc v s
  have hstation : ∀ st ∈ (Machine.recover pc v s).rs, st.pc = none := fun st hst => by
    simpa [Station.busy] using hstations st hst
  have hentry : ∀ e ∈ (Machine.recover pc v s).rob, e.pc = none ∧ e.ready = false := fun e he => by
    obtain ⟨e', -, rfl⟩ := List.mem_map.mp he
    exact ⟨rfl, rfl⟩
  refine hs.of_parts rfl rfl (fun st hst => .of_pc_none (hstation st hst)) ?_ (fun e he => ?_) ?_ ?_ ?_
  · rw [List.filterMap_eq_nil_iff.mpr hstation]
    exact List.nodup_nil
  · obtain ⟨hpc, hready⟩ := hentry e he
    exact ⟨fun pc h => by simp [hpc] at h, fun h => by simp [hready] at h⟩
  · rw [List.filterMap_eq_nil_iff.mpr fun e he => (hentry e he).1]
    exact List.nodup_nil
  · rw [List.filterMap_eq_nil_iff.mpr fun u hu => by simp [FuncUnit.served, hunits u hu]]
    exact List.nodup_nil
  · exact fun u hu huse => by simp [hunits u hu] at huse

theorem Coherent.commitMove {s t : State} (hs : Coherent s) (h : CommitMove s t) : Coherent t := by
  cases h with
  | skipped => exact hs
  | stays => exact hs.stays _
  | @retired r e pc v _ he => exact (hs.retireEntry he pc v).congr rfl rfl rfl rfl rfl rfl
  | @flushed r e pc v he => exact ((hs.retireEntry he pc v).recover pc v).stays _

/-- The recompute makes a station ready only when it is resolved, and leaves the executing ones (R180). -/
theorem Coherent.endOfCycle {s : State} (hs : Coherent s) : Coherent (endOfCycle s) := by
  refine hs.of_parts rfl rfl ?_ ?_ (fun _ => hs.entry) hs.entryPcs hs.servedPcs ?_
  · intro st hst
    obtain ⟨st', hst', rfl⟩ := List.mem_map.mp hst
    have hold := hs.station hst'
    split
    · next hidle =>
      simp only [Bool.and_eq_true, Bool.not_eq_true'] at hidle
      exact ⟨hold.below, hold.op, fun _ h => by simpa [hidle.2, Station.resolved] using h, hold.addressed⟩
    · exact hold
  · rw [Machine.endOfCycle, filterMap_eq_of_map_eq (map_map_of_eq Station.pc (by intro st; split <;> rfl) s.rs)]
    exact hs.stationPcs
  · intro u hu huse
    obtain ⟨st, hst, hb, hexec, hserves⟩ := hs.unitServes u hu huse
    exact ⟨st, List.mem_map.mpr ⟨st, hst, if_neg (by simp [hexec])⟩, hb, hexec, hserves⟩

end Sys2Proof.Machine

/-! PROOF of O52: every phase of a coherent block's cycle answers a next state. -/

namespace Sys2Proof.Machine

/-! ### Answering a next state -/

/-- The part of a cycle answers a next state, and one with `P` unless it raised a fault. -/
def Answers (o : Result) (P : State → Prop) : Prop := ∃ t, o = .next t ∧ (t.fault = none → P t)

theorem answers_next {P : State → Prop} {s : State} (h : P s) : Answers (.next s) P := ⟨s, rfl, fun _ => h⟩

theorem answers_raise {P : State → Prop} (code : FaultCode) (pc : Word) (info : Option Word) (s : State) :
    Answers (raise code pc info s) P := ⟨_, rfl, fun h => by cases h⟩

/-- Parts that answer compose: a raised fault ends the cycle, and otherwise the second part runs (R142). -/
theorem answers_andThen {P Q : State → Prop} {o : Result} {k : State → Result} (ho : Answers o P)
    (hk : ∀ s, P s → Answers (k s) Q) : Answers (andThen o k) Q := by
  obtain ⟨s, rfl, hs⟩ := ho
  by_cases hf : s.fault = none
  · rw [andThen_of_running hf]
    exact hk s (hs hf)
  · rw [andThen_of_fault (Option.isSome_iff_ne_none.mpr hf)]
    exact ⟨s, rfl, fun h => absurd h hf⟩

/-- Visits in turn answer when each visit does and leaves what the rest of the list needs. -/
theorem answers_inTurn {P : List Nat → State → Prop} {visit : Nat → State → Result}
    (hv : ∀ p l s, P (p :: l) s → Answers (visit p s) (P l)) :
    ∀ (l : List Nat) (s : State), P l s → Answers (inTurn visit l s) (P []) := by
  intro l
  induction l with
  | nil => exact fun s hs => answers_next hs
  | cons p l ih => exact fun s hs => answers_andThen (hv p l s hs) ih

/-- Serving answers when the instruction does. -/
theorem serve_answers {w : Serving} {i : Instr} {s : State} (h : ∃ t, exec i { s with serving := w } = .next t) :
    ∃ t, serve w i s = .next t := by
  obtain ⟨t, ht⟩ := h
  exact ⟨_, serve_of_next ht⟩

/-! ### Issue -/

theorem mem_issuableOpcodes {op : Opcode} (h : op ≠ .eop) : op ∈ issuableOpcodes := by
  cases op <;> simp [issuableOpcodes] at h ⊢

theorem Coherent.serve_issue {s : State} (hs : Coherent s) (i : Instr) : ∃ t, serve .issue i s = .next t := by
  refine serve_answers ?_
  by_cases hi : i = .eop
  · exact ⟨_, by rw [hi, exec_eop]⟩
  rw [exec_issue hi rfl]
  obtain ⟨c, hc⟩ := Option.isSome_iff_exists.mp (hs.rsClasses i.opcode (mem_issuableOpcodes (opcode_ne_eop hi)))
  cases hslot : issueSlot i.opcode { s with serving := .issue } with
  | none => exact ⟨_, issueRecord_of_stall (s := { s with serving := .issue }) hc hslot ..⟩
  | some p => exact ⟨_, issueRecord_of_slot hslot ..⟩

theorem Coherent.issuePhase_answers (n : Nat) : ∀ {s : State}, Coherent s → Answers (issuePhase n s) Coherent := by
  induction n with
  | zero => exact fun hs => answers_next hs
  | succ n ih =>
    intro s hs
    unfold issuePhase
    split
    · exact answers_raise ..
    · next i hi =>
      obtain ⟨t, ht⟩ := hs.serve_issue i
      refine answers_andThen (P := Coherent) ⟨t, ht, fun _ => hs.issueMove hi (issueMove_of_serve ht)⟩ fun u hu => ?_
      split
      · exact ih hu
      · exact answers_next hu

/-! ### Execute-dispatch -/

theorem Slot.exists_val {x : Slot} (hc : x.cleared = true) (ha : x ≠ .absent) : ∃ y, x = .val y := by
  cases x with
  | absent => exact absurd rfl ha
  | wait t => cases hc
  | val y => exact ⟨y, rfl⟩

theorem slotsFit_iff {op : Opcode} {j k : Slot} :
    slotsFit op j k = true ↔ ((firstSource op.inFlight).isSome = true → j ≠ .absent) ∧
      ((secondSource op.inFlight).isSome = true → k ≠ .absent) := by
  unfold slotsFit
  cases firstSource op.inFlight <;> cases secondSource op.inFlight <;> simp

/-- A resolved station holds a value in each slot its opcode's form uses (R164). -/
theorem resolved_slots {st : Station} (hfit : slotsFit st.op st.j st.k = true) (hres : st.resolved = true) :
    ((firstSource st.op.inFlight).isSome = true → ∃ x, st.j = .val x) ∧
      ((secondSource st.op.inFlight).isSome = true → ∃ y, st.k = .val y) := by
  obtain ⟨hj, hk⟩ := slotsFit_iff.mp hfit
  simp only [Station.resolved, Bool.and_eq_true] at hres
  exact ⟨fun h => Slot.exists_val hres.1 (hj h), fun h => Slot.exists_val hres.2 (hk h)⟩

theorem firstSource_of_isMemory {op : Opcode} (h : isMemory op = true) : (firstSource op.inFlight).isSome = true := by
  cases op <;> simp [isMemory, Opcode.inFlight, firstSource] at h ⊢

theorem takeUnit_answers {p x : Nat} {s : State} {st : Station} {u : FuncUnit} (hst : s.rs[p]? = some st)
    (hu : s.fu[x]? = some u) (hb : st.busy = true) : ∃ t, takeUnit p x s = .next t := by
  simp [takeUnit, hst, hu, hb]

theorem takeUnitAddressed_answers {p x : Nat} {s : State} {st : Station} {u : FuncUnit} {base : Option Word}
    (hst : s.rs[p]? = some st) (hu : s.fu[x]? = some u) (hb : st.busy = true) (hj : st.j = .val base) :
    ∃ t, takeUnitAddressed p x s = .next t := by
  obtain ⟨pc, hpc⟩ := Option.isSome_iff_exists.mp hb
  cases base with
  | none => exact ⟨_, by simp only [takeUnitAddressed, hst, hu, hpc, hj]; rfl⟩
  | some b => exact ⟨_, by simp only [takeUnitAddressed, hst, hu, hpc, hj]; rfl⟩

/-- A visit to a station that can be dispatched answers: its opcode has a class, and a memory access has its base. -/
theorem Coherent.dispatchStation_next {p : Nat} {s : State} (hs : Coherent s) (hp : Dispatchable s p) :
    ∃ t, dispatchStation p s = .next t := by
  obtain ⟨st, hst, hb, hready, -⟩ := hp
  have hold := hs.station (List.mem_of_getElem? hst)
  obtain ⟨hop, hfit⟩ := hold.op hb
  obtain ⟨k, hk⟩ := Option.isSome_iff_exists.mp (hs.fuClasses st.op (mem_issuableOpcodes hop))
  simp only [dispatchStation, hst, hk]
  cases hx : s.freeUnit k with
  | none => exact ⟨s, rfl⟩
  | some x =>
    obtain ⟨u, hu, -⟩ := inUse_of_freeUnit hx
    refine serve_answers ?_
    rw [exec_dispatch (inFlight_ne_eop hop) rfl, inFlight_opcode]
    split
    · next hmem =>
      obtain ⟨base, hj⟩ := (resolved_slots hfit (hold.resolved hb (.inl hready))).1 (firstSource_of_isMemory hmem)
      exact takeUnitAddressed_answers hst hu hb hj
    · exact takeUnit_answers hst hu hb

/-- What the rest of the dispatch visits needs: a coherent block, and stations still to be dispatched. -/
def DispatchesLeft (l : List Nat) (s : State) : Prop := Coherent s ∧ l.Nodup ∧ ∀ p ∈ l, Dispatchable s p

theorem DispatchesLeft.visit {p : Nat} {l : List Nat} {s : State} (h : DispatchesLeft (p :: l) s) :
    Answers (dispatchStation p s) (DispatchesLeft l) := by
  obtain ⟨hs, hnodup, hall⟩ := h
  obtain ⟨hp, hnodup⟩ := List.nodup_cons.mp hnodup
  have hdisp := hall p List.mem_cons_self
  obtain ⟨t, ht⟩ := hs.dispatchStation_next hdisp
  have hmove := dispatchMove_of_visit ht
  refine ⟨t, ht, fun hf => ⟨hs.dispatchMove hdisp hmove hf, hnodup, fun q hq => ?_⟩⟩
  obtain ⟨st, hst, hrest⟩ := hall q (List.mem_cons_of_mem p hq)
  have hqp : q ≠ p := fun h => hp (h ▸ hq)
  exact ⟨st, (hmove.other hqp).trans hst, hrest⟩

/-- The positions found by a filter over a pool are distinct, in whatever order they are visited. -/
theorem nodup_sortByPc_positions {α : Type} (l : List α) {f : α × Nat → Option (Word × Nat)}
    (hf : ∀ x y, f x = some y → y.2 = x.2) : ((sortByPc (l.zipIdx.filterMap f)).map Prod.snd).Nodup := by
  refine ((perm_sortByPc _).map _).nodup_iff.mpr ?_
  rw [List.map_filterMap, nodup_filterMap_iff]
  have hposition : ∀ (i : Nat) (a : α × Nat) (q : Nat), l.zipIdx[i]? = some a → (f a).map Prod.snd = some q →
      i = q := by
    intro i a q hi ha
    obtain ⟨y, hy, rfl⟩ := Option.map_eq_some_iff.mp ha
    rw [List.getElem?_zipIdx, Option.map_eq_some_iff] at hi
    obtain ⟨b, -, rfl⟩ := hi
    rw [hf _ y hy, Nat.zero_add]
  intro i j a b q hi hj ha hb
  rw [hposition i a q hi ha, hposition j b q hj hb]

theorem dispatchCandidates_nodup (s : State) : (dispatchCandidates s).Nodup := by
  refine nodup_sortByPc_positions s.rs fun x y h => ?_
  split at h
  · obtain ⟨pc, -, rfl⟩ := Option.map_eq_some_iff.mp h
    rfl
  · cases h

theorem Coherent.dispatchPhase_answers {s : State} (hs : Coherent s) : Answers (dispatchPhase s) Coherent := by
  obtain ⟨t, ht, hleft⟩ := answers_inTurn (P := DispatchesLeft) (fun _ _ _ => DispatchesLeft.visit)
    (dispatchCandidates s) s ⟨hs, dispatchCandidates_nodup s, fun _ hp => mem_dispatchCandidates.mp hp⟩
  exact ⟨t, ht, fun hf => (hleft hf).1⟩

/-! ### Write-result -/

theorem withOperand_ne_unresolved {slot : Slot} {k : Word → Computed} (hs : ∃ x, slot = .val x)
    (hk : ∀ a, k a ≠ .unresolved) : withOperand slot k ≠ .unresolved := by
  obtain ⟨_ | a, rfl⟩ := hs
  · exact Computed.noConfusion
  · exact hk a

theorem memRead_ne_unresolved (s : State) (a : Word) : memRead s a ≠ .unresolved := by
  unfold memRead
  repeat' split
  all_goals exact Computed.noConfusion

theorem memWrite_ne_unresolved (s : State) (a v : Word) : memWrite s a v ≠ .unresolved := by
  unfold memWrite
  repeat' split
  all_goals exact Computed.noConfusion

section
variable {s : State} {pc : Word} {st : Station}

theorem binary_ne_unresolved (f : Word → Word → Word) (hj : ∃ x, st.j = .val x) (hk : ∃ y, st.k = .val y) :
    binary f s pc st ≠ .unresolved :=
  withOperand_ne_unresolved hj fun _ => withOperand_ne_unresolved hk fun _ => Computed.noConfusion

theorem divide_ne_unresolved (hj : ∃ x, st.j = .val x) (hk : ∃ y, st.k = .val y) : divide s pc st ≠ .unresolved := by
  refine withOperand_ne_unresolved hj fun a => withOperand_ne_unresolved hk fun b => ?_
  split
  · exact Computed.noConfusion
  · split <;> exact Computed.noConfusion

theorem immediate_ne_unresolved (f : Word → Word → Word) (hj : ∃ x, st.j = .val x) :
    immediate f s pc st ≠ .unresolved :=
  withOperand_ne_unresolved hj fun _ => Computed.noConfusion

theorem branchOn_ne_unresolved (f : Word → Bool) (hj : ∃ x, st.j = .val x) : branchOn f s pc st ≠ .unresolved :=
  withOperand_ne_unresolved hj fun _ => Computed.noConfusion

theorem load_ne_unresolved (he : st.ea.isSome = true) : load s pc st ≠ .unresolved := by
  obtain ⟨a, ha⟩ := Option.isSome_iff_exists.mp he
  simpa only [load, ha] using memRead_ne_unresolved s a

theorem store_ne_unresolved (hk : ∃ y, st.k = .val y) (he : st.ea.isSome = true) : store s pc st ≠ .unresolved := by
  obtain ⟨a, ha⟩ := Option.isSome_iff_exists.mp he
  refine withOperand_ne_unresolved hk fun d => ?_
  simpa only [ha] using memWrite_ne_unresolved s a d

end

/-- `Compute` of a resolved station, addressed if it is a memory access, meets no unresolved operand (R164, R183). -/
theorem computeOf_ne_unresolved {s : State} {pc : Word} {st : Station} (hop : st.op ≠ .eop)
    (hfit : slotsFit st.op st.j st.k = true) (hres : st.resolved = true)
    (hea : isMemory st.op = true → st.ea.isSome = true) : computeOf st.op s pc st ≠ .unresolved := by
  obtain ⟨hj, hk⟩ := resolved_slots hfit hres
  cases h : st.op <;> rw [h] at hj hk hea <;> simp only [computeOf]
  case eop => exact absurd h hop
  case add | sub | xor | and | mult | adds | subs | mults | divs => exact binary_ne_unresolved _ (hj rfl) (hk rfl)
  case div => exact divide_ne_unresolved (hj rfl) (hk rfl)
  case addi | subi | xori | andi => exact immediate_ne_unresolved _ (hj rfl)
  case lw | lws => exact load_ne_unresolved (hea rfl)
  case sw | sws => exact store_ne_unresolved (hk rfl) (hea rfl)
  case beqz | bnez | bltz | bgtz | blez | bgez => exact branchOn_ne_unresolved _ (hj rfl)
  case jump => exact Computed.noConfusion

theorem writeResult_answers {compute : Compute} {p x : Nat} {s : State} {st : Station} {u : FuncUnit} {pc : Word}
    (hst : s.rs[p]? = some st) (hu : s.fu[x]? = some u) (hpc : st.pc = some pc)
    (hc : compute s pc st ≠ .unresolved) : ∃ t, writeResult compute p x s = .next t := by
  cases h : compute s pc st with
  | value v m => exact ⟨_, writeResult_of_value hst hu hpc h⟩
  | raised code info => exact ⟨_, writeResult_of_raised hst hu hpc h⟩
  | unresolved => exact absurd h hc

/-- A unit in use serves exactly one busy station, which is executing (R57, R163). -/
theorem Coherent.servedStations_eq {s : State} (hs : Coherent s) {u : FuncUnit} (hu : u ∈ s.fu)
    (huse : u.inUse = true) : ∃ st p, servedStations s u.pc = [(st, p)] ∧ st.executing = true := by
  obtain ⟨st, hst, hb, hexec, hpc⟩ := hs.unitServes u hu huse
  obtain ⟨p, hp⟩ := List.mem_iff_getElem?.mp hst
  obtain ⟨pc, hpcs⟩ := Option.isSome_iff_exists.mp hb
  refine ⟨st, p, ?_, hexec⟩
  have hmem : (st, p) ∈ servedStations s u.pc := mem_servedStations.mpr ⟨hp, hb, hpc⟩
  have hall : ∀ y ∈ servedStations s u.pc, y = (st, p) := fun ⟨st', q⟩ hy => by
    obtain ⟨hq, -, hpc'⟩ := mem_servedStations.mp hy
    obtain rfl := nodup_filterMap_iff.mp hs.stationPcs q p st' st pc hq hp (hpc'.trans (hpc.symm.trans hpcs)) hpcs
    rw [Option.some.inj (hq.symm.trans hp)]
  have hnodup : (servedStations s u.pc).Nodup := by
    have hpositions : s.rs.zipIdx.Nodup := List.Nodup.of_map Prod.snd (by simp [List.nodup_range'])
    exact hpositions.filter _
  exact List.perm_singleton.mp (List.perm_of_nodup_nodup_toFinset_eq hnodup (List.nodup_singleton _) <| by
    ext y
    simpa using ⟨hall y, fun h => h ▸ hmem⟩)

theorem Coherent.completeUnit_next {x : Nat} {s : State} (hs : Coherent s)
    (hx : ∃ u, s.fu[x]? = some u ∧ u.inUse = true) : ∃ t, completeUnit x s = .next t := by
  obtain ⟨u, hu, huse⟩ := hx
  obtain ⟨st, p, hserved, hexec⟩ := hs.servedStations_eq (List.mem_of_getElem? hu) huse
  obtain ⟨hst, hb, hpc⟩ : s.rs[p]? = some st ∧ st.busy = true ∧ st.pc = u.pc :=
    mem_servedStations.mp (hserved ▸ List.mem_singleton_self _)
  have hold := hs.station (List.mem_of_getElem? hst)
  obtain ⟨hop, hfit⟩ := hold.op hb
  obtain ⟨pc, hpcs⟩ := Option.isSome_iff_exists.mp hb
  simp only [completeUnit, hu, hserved]
  refine serve_answers ?_
  rw [exec_writeResult (inFlight_ne_eop hop) rfl, inFlight_opcode]
  exact writeResult_answers hst hu hpcs
    (computeOf_ne_unresolved hop hfit (hold.resolved hb (.inr hexec)) (hold.addressed hb hexec))

/-- What the rest of the completions needs: a coherent block, and units still in use. -/
def CompletionsLeft (l : List Nat) (s : State) : Prop :=
  Coherent s ∧ l.Nodup ∧ ∀ x ∈ l, ∃ u, s.fu[x]? = some u ∧ u.inUse = true

theorem CompletionsLeft.visit {x : Nat} {l : List Nat} {s : State} (h : CompletionsLeft (x :: l) s) :
    Answers (completeUnit x s) (CompletionsLeft l) := by
  obtain ⟨hs, hnodup, hall⟩ := h
  obtain ⟨hx, hnodup⟩ := List.nodup_cons.mp hnodup
  have hunit := hall x List.mem_cons_self
  obtain ⟨t, ht⟩ := hs.completeUnit_next hunit
  have hmove := completeMove_of_visit ht
  refine ⟨t, ht, fun hf => ⟨hs.completeMove hunit hmove hf, hnodup, fun y hy => ?_⟩⟩
  obtain ⟨u, hu, huse⟩ := hall y (List.mem_cons_of_mem x hy)
  have hyx : y ≠ x := fun h => hx (h ▸ hy)
  exact ⟨u, (hmove.other hyx).trans hu, huse⟩

theorem completingUnits_nodup (s : State) : (completingUnits s).Nodup := by
  refine nodup_sortByPc_positions s.fu fun x y h => ?_
  split at h
  · obtain rfl := Option.some.inj h
    rfl
  · cases h

theorem inUse_of_mem_completingUnits {s : State} {x : Nat} (h : x ∈ completingUnits s) :
    ∃ u, s.fu[x]? = some u ∧ u.inUse = true := by
  simp only [completingUnits, List.mem_map, (perm_sortByPc _).mem_iff, List.mem_filterMap, Prod.exists,
    List.mem_zipIdx_iff_getElem?] at h
  obtain ⟨pc, x', ⟨u, y, hu, hkey⟩, rfl⟩ := h
  split at hkey
  · next hc =>
    simp only [Option.some.injEq, Prod.mk.injEq] at hkey
    simp only [Bool.and_eq_true] at hc
    exact ⟨u, hkey.2 ▸ hu, hc.1⟩
  · cases hkey

theorem Coherent.writeResultPhase_answers {s : State} (hs : Coherent s) : Answers (writeResultPhase s) Coherent :=
  answers_andThen (answers_inTurn (P := CompletionsLeft) (fun _ _ _ => CompletionsLeft.visit) (completingUnits s) s
    ⟨hs, completingUnits_nodup s, fun _ => inUse_of_mem_completingUnits⟩) fun _ ht => answers_next ht.1.sweep

/-! ### Commit -/

/-- What is in flight are the busy entries (R43). -/
theorem mem_inFlight {s : State} {pc : Word} {r : Nat} :
    (pc, r) ∈ s.inFlight ↔ ∃ e, s.rob[r]? = some e ∧ e.pc = some pc := by
  simp only [State.inFlight, (perm_sortByPc _).mem_iff, List.mem_filterMap, Prod.exists,
    List.mem_zipIdx_iff_getElem?, Option.map_eq_some_iff, Prod.mk.injEq]
  constructor
  · rintro ⟨e, q, he, _, hpc, rfl, rfl⟩
    exact ⟨e, he, hpc⟩
  · rintro ⟨e, he, hpc⟩
    exact ⟨e, r, he, pc, hpc, rfl, rfl⟩

theorem Coherent.commitPhase_next {s : State} (hs : Coherent s) : ∃ t, commitPhase s = .next t := by
  unfold commitPhase
  split
  · exact ⟨s, rfl⟩
  next pc r l hflight =>
  split
  · next hready =>
    obtain ⟨e, he, hpc⟩ := mem_inFlight.mp (hflight ▸ List.mem_cons_self)
    rw [robAt_of_getElem? he] at hready ⊢
    obtain ⟨v, hv⟩ := Option.isSome_iff_exists.mp (hs.entryReady e (List.mem_of_getElem? he) hready).2
    refine serve_answers ?_
    by_cases hop : e.op = .eop
    · exact ⟨_, by rw [hop]; exact exec_eop _⟩
    · rw [exec_commit (inFlight_ne_eop hop) rfl]
      exact ⟨_, commitEntry_of_value he hpc hv⟩
  · exact ⟨s, rfl⟩

theorem Coherent.commitPhase_answers {s : State} (hs : Coherent s) : Answers (commitPhase s) Coherent := by
  obtain ⟨t, ht⟩ := hs.commitPhase_next
  exact ⟨t, ht, fun _ => hs.commitMove (commitMove_of_phase ht)⟩

/-! ### The step -/

theorem Coherent.cycle_answers {s : State} (hs : Coherent s) : Answers (cycle s) Coherent :=
  answers_andThen (Coherent.issuePhase_answers s.cfg.issueWidth (hs.congr rfl rfl rfl rfl rfl rfl)) fun _ h1 =>
    answers_andThen h1.dispatchPhase_answers fun _ h2 =>
      answers_andThen h2.tick.writeResultPhase_answers fun _ h3 =>
        answers_andThen h3.commitPhase_answers fun _ h4 => answers_next h4.endOfCycle

/-- Settles O52: every phase of a coherent block's cycle answers, and leaves it coherent unless it raises a fault. -/
theorem coherentBlockNeverStops : Obligations.CoherentBlockNeverStops := by
  unfold Obligations.CoherentBlockNeverStops
  intro s hs
  obtain ⟨p, hp, -⟩ := hs.program
  by_cases hstop : s.stopped = true
  · exact ⟨s, step_of_stopped (by simp [hp]) hstop, fun _ => hs⟩
  · have hstep : step s = cycle s := by simp [step, advance, hp, hstop]
    rw [hstep]
    exact hs.cycle_answers

end Sys2Proof.Machine

/-! SUPPORT. Memory accesses: the checks of an address, what an access answers and stores, and how a fault raised at
Write-result shows. -/

namespace Sys2Proof.Machine

/-! ### The checks of an address (R84, R85) -/

theorem aligned_iff {a : Word} : aligned a = true ↔ a.toNat % 4 = 0 := beq_iff_eq

theorem inBounds_iff {n : Nat} {a : Word} : inBounds n a = true ↔ a.toNat + 4 ≤ n := decide_eq_true_iff

theorem accessible_iff {s : State} {a : Word} :
    accessible s a = true ↔ a.toNat % 4 = 0 ∧ a.toNat + 4 ≤ s.cfg.memSize := by
  rw [accessible, Bool.and_eq_true, aligned_iff, inBounds_iff]

theorem aligned_eq_false {a : Word} (h : a.toNat % 4 ≠ 0) : aligned a = false :=
  Bool.eq_false_iff.mpr fun ha => h (aligned_iff.mp ha)

theorem inBounds_eq_false {n : Nat} {a : Word} (h : n < a.toNat + 4) : inBounds n a = false :=
  Bool.eq_false_iff.mpr fun ha => Nat.not_le_of_lt h (inBounds_iff.mp ha)

/-! ### Words in memory (R86 to R88) -/

/-- A word is undefined where one of its bytes is (R86). -/
theorem word?_eq_none {m : Memory} {a k : Nat} (hk : k < 4) (h : m.byte? (a + k) = none) : m.word? a = none := by
  refine Option.eq_none_iff_forall_ne_some.mpr fun v hv => ?_
  obtain ⟨b0, b1, b2, b3, h0, h1, h2, h3, -⟩ := word?_eq_some.mp hv
  obtain rfl | rfl | rfl | rfl : k = 0 ∨ k = 1 ∨ k = 2 ∨ k = 3 := by omega
  · simp [h0] at h
  · simp [h1] at h
  · simp [h2] at h
  · simp [h3] at h

/-- The four bytes of a word, the most significant first, are the word (R88). -/
theorem append_bytes (v : Word) :
    v.extractLsb' 24 8 ++ (v.extractLsb' 16 8 ++ (v.extractLsb' 8 8 ++ v.extractLsb' 0 8)) = v := by
  rw [BitVec.extractLsb'_append_extractLsb'_eq_extractLsb' (show 8 = 0 + 8 from rfl),
    BitVec.extractLsb'_append_extractLsb'_eq_extractLsb' (show 16 = 0 + (8 + 8) from rfl),
    BitVec.extractLsb'_append_extractLsb'_eq_extractLsb' (show 24 = 0 + (8 + (8 + 8)) from rfl)]
  exact BitVec.extractLsb'_eq_self

/-- Storing a word writes its four bytes and no other (R87). -/
theorem storesWord_setWord {s t : State} {a v : Word} (h : t.mem = s.mem.setWord a.toNat v) : StoresWord s t a v := by
  unfold StoresWord
  simp only [h, byte?_setWord]
  refine ⟨by simp, by simp, by simp, by simp, fun b hb => ?_⟩
  rw [if_neg (by omega), if_neg (by omega), if_neg (by omega), if_neg (by omega)]

/-- A word stored is read back. -/
theorem StoresWord.word? {s t : State} {a v : Word} (h : StoresWord s t a v) : t.mem.word? a.toNat = some v := by
  obtain ⟨h0, h1, h2, h3, -⟩ := h
  exact word?_eq_some.mpr ⟨_, _, _, _, h0, h1, h2, h3, (append_bytes v).symm⟩

/-! ### The checked accesses (R84 to R87) -/

section
variable {s : State} {a : Word}

theorem memRead_of_misaligned (h : a.toNat % 4 ≠ 0) : memRead s a = .raised .misalignedAccess (some a) :=
  if_pos (aligned_eq_false h)

theorem memRead_of_outOfBounds (hal : a.toNat % 4 = 0) (h : s.cfg.memSize < a.toNat + 4) :
    memRead s a = .raised .memoryBounds (some a) := by
  simp [memRead, aligned_iff.mpr hal, inBounds_eq_false h]

theorem memRead_of_undefined (hal : a.toNat % 4 = 0) (hin : a.toNat + 4 ≤ s.cfg.memSize)
    (h : s.mem.word? a.toNat = none) : memRead s a = .raised .undefinedMemory (some a) := by
  simp [memRead, aligned_iff.mpr hal, inBounds_iff.mpr hin, h]

theorem memWrite_of_misaligned (v : Word) (h : a.toNat % 4 ≠ 0) :
    memWrite s a v = .raised .misalignedAccess (some a) :=
  if_pos (aligned_eq_false h)

theorem memWrite_of_outOfBounds (v : Word) (hal : a.toNat % 4 = 0) (h : s.cfg.memSize < a.toNat + 4) :
    memWrite s a v = .raised .memoryBounds (some a) := by
  simp [memWrite, aligned_iff.mpr hal, inBounds_eq_false h]

end

/-! ### Loads and stores at Write-result (R92, R93, R312) -/

section
variable {s : State} {pc a : Word} {st : Station}

theorem load_of_address (h : st.ea = some a) : load s pc st = memRead s a := by simp [load, h]

theorem store_of_operand {v : Word} (h : st.ea = some a) (hk : st.k = .val (some v)) :
    store s pc st = memWrite s a v := by
  simp [store, withOperand, h, hk]

/-- The data operand is consumed before the address is checked (R312). -/
theorem store_of_undefined (hk : st.k = .val none) : store s pc st = .raised .undefinedOperand none := by
  simp [store, withOperand, hk]

end

/-- What `Compute` raises at Write-result is recorded, and nothing else changes (R142, R164, R303). -/
theorem exec_raises {i : Instr} (hi : i ≠ .eop) {s : State} {p x : Nat} {st : Station} {u : FuncUnit} {pc : Word}
    {code : FaultCode} {info : Option Word} (hat : AtWriteResult s p x st u pc)
    (hc : computeOf i.opcode s pc st = .raised code info) :
    ∃ t, exec i s = .next t ∧ RaisedOnly s t code pc info := by
  obtain ⟨hserving, hst, hu, hpc⟩ := hat
  exact ⟨_, (exec_writeResult hi hserving).trans (writeResult_of_raised hst hu hpc hc), rfl⟩

end Sys2Proof.Machine

/-! PROOFS of O32, O34 and O59: the faults of loads and stores in order, and the memory accessors. -/

namespace Sys2Proof.Machine

/-- Settles O32: LW and LWS raise at Write-result what the checked read raises. -/
theorem loadFaultsInOrder : Obligations.LoadFaultsInOrder := by
  unfold Obligations.LoadFaultsInOrder
  intro s p x st u pc a i d m hat hea ins hins
  have raises : ∀ {code info}, memRead s a = .raised code info →
      ∃ t, exec ins s = .next t ∧ RaisedOnly s t code pc info := fun h => by
    have hload : load s pc st = .raised _ _ := (load_of_address hea).trans h
    obtain rfl | rfl : ins = .lw d m i ∨ ins = .lws d m i := by simpa using hins
    · exact exec_raises Instr.noConfusion hat hload
    · exact exec_raises Instr.noConfusion hat hload
  exact ⟨fun hmis => raises (memRead_of_misaligned hmis), fun hal hout => raises (memRead_of_outOfBounds hal hout),
    fun hal hin ⟨_, hk, hundef⟩ => raises (memRead_of_undefined hal hin (word?_eq_none hk hundef))⟩

/-- Settles O34: SW and SWS consume their data operand first, and then raise what the checked write raises. -/
theorem storeFaultsInOrder : Obligations.StoreFaultsInOrder := by
  unfold Obligations.StoreFaultsInOrder
  intro s p x st u pc a i m n hat hea ins hins
  have raises : ∀ {code info}, store s pc st = .raised code info →
      ∃ t, exec ins s = .next t ∧ RaisedOnly s t code pc info := fun hstore => by
    obtain rfl | rfl : ins = .sw m n i ∨ ins = .sws m n i := by simpa using hins
    · exact exec_raises Instr.noConfusion hat hstore
    · exact exec_raises Instr.noConfusion hat hstore
  refine ⟨fun hk => raises (store_of_undefined hk), fun v hk => ⟨fun hmis => ?_, fun hal hout => ?_⟩⟩
  · exact raises ((store_of_operand hea hk).trans (memWrite_of_misaligned v hmis))
  · exact raises ((store_of_operand hea hk).trans (memWrite_of_outOfBounds v hal hout))

/-- Settles O59: both accessors make the two checks of R84 and R85, then read or store one word. -/
theorem memoryAccessors : Obligations.MemoryAccessors := by
  unfold Obligations.MemoryAccessors
  refine fun s a v => ⟨fun hbad => ?_, fun hal hin => ?_⟩
  · have hrefused : ¬accessible s a = true := by rw [accessible_iff]; omega
    exact ⟨if_neg hrefused, if_neg hrefused⟩
  have hok : accessible s a = true := accessible_iff.mpr ⟨hal, hin⟩
  have hread : ∀ t : State, t.cfg = s.cfg → hostReadMem a t = .ok (t.mem.word? a.toNat) := fun t hcfg =>
    if_pos (accessible_iff.mpr ⟨hal, hcfg ▸ hin⟩)
  refine ⟨fun ⟨k, hk, hundef⟩ => ?_, fun b0 b1 b2 b3 h0 h1 h2 h3 => ?_, ?_⟩
  · rw [hread s rfl, word?_eq_none hk hundef]
  · rw [hread s rfl, word?_eq_some.mpr ⟨b0, b1, b2, b3, h0, h1, h2, h3, rfl⟩]
  · have hstores : StoresWord s { s with mem := s.mem.setWord a.toNat v } a v := storesWord_setWord rfl
    exact ⟨_, if_pos hok, (hread { s with mem := s.mem.setWord a.toNat v } rfl).trans (congrArg _ hstores.word?),
      hstores, rfl⟩

end Sys2Proof.Machine

/-! PROOF of O55: memory over a step that begins with no store in a busy station. -/

namespace Sys2Proof.Machine

/-! ### What leaves memory as it is (R82) -/

theorem IssueMove.mem {i : Instr} {s t : State} (h : IssueMove i s t) : t.mem = s.mem := by
  cases h <;> rfl

theorem DispatchMove.mem {p : Nat} {s t : State} (h : DispatchMove p s t) : t.mem = s.mem := by
  cases h <;> rfl

theorem CommitMove.mem {s t : State} (h : CommitMove s t) : t.mem = s.mem := by
  cases h with
  | skipped => rfl
  | stays => rfl
  | retired he _ _ => rw [retireEntry_eq he]
  | flushed he _ _ => rw [retireEntry_eq he]; rfl

/-- A completion leaves memory as it is, unless a busy store with an effective address completes (R82, R93). -/
theorem completeUnit_mem {x : Nat} {s t : State} (h : completeUnit x s = .next t) :
    t.mem = s.mem ∨ ∃ st ∈ s.rs, st.busy = true ∧ isStore st.op = true ∧ st.ea.isSome = true := by
  obtain ⟨u, st, p, -, hserved, h⟩ := completeUnit_next h
  obtain ⟨hst, hbusy, -⟩ : s.rs[p]? = some st ∧ st.busy = true ∧ st.pc = u.pc :=
    mem_servedStations.mp (hserved ▸ List.mem_singleton_self _)
  obtain ⟨t', he, rfl⟩ := serve_next h
  by_cases hop : st.op = .eop
  · rw [hop] at he
    obtain rfl : _ = t' := by simpa [Opcode.inFlight, exec_eop] using he
    exact .inl rfl
  rw [exec_writeResult (inFlight_ne_eop hop) rfl, inFlight_opcode] at he
  obtain ⟨st', u', pc, hst', -, -, ⟨v, m, hc, rfl⟩ | ⟨code, info, -, rfl⟩⟩ := writeResult_next he
  · obtain rfl : st = st' := Option.some.inj (hst.symm.trans hst')
    obtain hm | ⟨hstore, a, hea, -⟩ := computeOf_memory hc
    · exact .inl hm
    · exact .inr ⟨st, List.mem_of_getElem? hst, hbusy, hstore, by rw [hea]; rfl⟩
  · exact .inl rfl

/-! ### Stores that cannot write yet (R93, R147, R158) -/

/-- No busy store has an effective address. -/
def StoresUnaddressed (s : State) : Prop :=
  ∀ st ∈ s.rs, st.busy = true → isStore st.op = true → st.ea = none

/-- Every busy store has only issued: it is not ready, and has no effective address. -/
def StoresOnlyIssued (s : State) : Prop :=
  ∀ st ∈ s.rs, st.busy = true → isStore st.op = true → st.ready = false ∧ st.ea = none

theorem StoresOnlyIssued.unaddressed {s : State} (hs : StoresOnlyIssued s) : StoresUnaddressed s :=
  fun st hst hbusy hstore => (hs st hst hbusy hstore).2

theorem StoresOnlyIssued.issueMove {i : Instr} {s t : State} (hs : StoresOnlyIssued s) (h : IssueMove i s t) :
    StoresOnlyIssued t := by
  cases h with
  | stays => exact hs
  | issued =>
    intro st hst
    obtain hst | ⟨st', -, rfl⟩ := mem_modify hst
    · exact hs st hst
    · exact fun _ _ => ⟨rfl, rfl⟩

/-- Dispatch takes a ready station, which is not a store that has only issued. -/
theorem StoresOnlyIssued.dispatchMove {p : Nat} {s t : State} (hs : StoresOnlyIssued s)
    (hready : ∀ st, s.rs[p]? = some st → st.ready = true) (h : DispatchMove p s t) : StoresOnlyIssued t := by
  cases h with
  | skipped => exact hs
  | stays => exact hs
  | faulted => exact hs
  | @taken x st u ea hst =>
    intro st' hst' hbusy hstore
    obtain hst' | rfl := List.mem_or_eq_of_mem_set hst'
    · exact hs st' hst' hbusy hstore
    · have hidle := (hs st (List.mem_of_getElem? hst) hbusy hstore).1
      simp [hready st hst] at hidle

/-- A completion frees its station and addresses no other (R166, R169). -/
theorem StoresUnaddressed.completeMove {x : Nat} {s t : State} (hs : StoresUnaddressed s) (h : CompleteMove x s t) :
    StoresUnaddressed t := by
  cases h with
  | stays => exact hs
  | faulted => exact hs
  | published =>
    intro st hst hbusy hstore
    obtain hst | rfl := List.mem_or_eq_of_mem_set hst
    · obtain ⟨st', hst', rfl⟩ := List.mem_map.mp hst
      rw [Station.capture_busy] at hbusy
      rw [Station.capture_op] at hstore
      rw [Station.capture_ea]
      exact hs st' hst' hbusy hstore
    · rfl

/-! ### The phases -/

theorem issuePhase_storesOnlyIssued {n : Nat} {s t : State} (hs : StoresOnlyIssued s) (hf : s.fault = none)
    (h : issuePhase n s = .next t) : StoresOnlyIssued t ∧ t.mem = s.mem :=
  issuePhase_keeps_of_move (P := fun u => StoresOnlyIssued u ∧ u.mem = s.mem)
    (fun _ _ _ ⟨hu, hmem⟩ hv => ⟨hu.issueMove hv, hv.mem.trans hmem⟩) (fun _ _ hu => hu) ⟨hs, rfl⟩ hf h

/-- A property that dispatch of a ready station keeps is kept by Execute-dispatch: the stations it visits were ready when
it began, and no visit changes a ready bit (R156). -/
theorem dispatchPhase_keeps {P : State → Prop}
    (hmove : ∀ p u v, P u → (∀ st, u.rs[p]? = some st → st.ready = true) → DispatchMove p u v → P v)
    {s t : State} (hs : P s) (h : dispatchPhase s = .next t) : P t := by
  refine (inTurn_keeps_of_mem (P := fun u => P u ∧ u.rs.map Station.ready = s.rs.map Station.ready)
    (fun p hp u v ⟨hu, hsame⟩ hvisit => ?_) ⟨hs, rfl⟩ h).1
  have hv := dispatchMove_of_visit hvisit
  refine ⟨hmove p u v hu (fun st hst => ?_) hv, hv.map_ready.trans hsame⟩
  obtain ⟨st', hst', -, hready, -⟩ := mem_dispatchCandidates.mp hp
  have hbit : some st.ready = some st'.ready := by
    simpa only [List.getElem?_map, hst, hst', Option.map_some] using congrArg (fun l : List Bool => l[p]?) hsame
  exact (Option.some.inj hbit).trans hready

theorem dispatchPhase_storesOnlyIssued {s t : State} (hs : StoresOnlyIssued s) (h : dispatchPhase s = .next t) :
    StoresOnlyIssued t ∧ t.mem = s.mem :=
  dispatchPhase_keeps (P := fun u => StoresOnlyIssued u ∧ u.mem = s.mem)
    (fun _ _ _ ⟨hu, hmem⟩ hready hv => ⟨hu.dispatchMove hready hv, hv.mem.trans hmem⟩) ⟨hs, rfl⟩ h

theorem writeResultPhase_mem {s t : State} (hs : StoresUnaddressed s) (h : writeResultPhase s = .next t) :
    t.mem = s.mem := by
  obtain ⟨u, hu, hcase⟩ := andThen_next h
  obtain ⟨-, hmem⟩ : StoresUnaddressed u ∧ u.mem = s.mem :=
    inTurn_keeps_of_mem (P := fun v => StoresUnaddressed v ∧ v.mem = s.mem) (fun x _ v w ⟨hv, hmem⟩ hw => by
      refine ⟨hv.completeMove (completeMove_of_visit hw), ?_⟩
      obtain hsame | ⟨st, hst, hbusy, hstore, hea⟩ := completeUnit_mem hw
      · exact hsame.trans hmem
      · simp [hv st hst hbusy hstore] at hea) ⟨hs, rfl⟩ hu
  obtain ⟨-, rfl⟩ | ⟨-, hswept⟩ := hcase
  · exact hmem
  · exact Host.Outcome.next.inj hswept ▸ hmem

/-- Settles O55: a store that issues in this cycle is not ready at Execute-dispatch, so that it has no effective address
at Write-result, the one phase that writes memory. -/
theorem onlyStoresWriteMemory : Obligations.OnlyStoresWriteMemory := by
  unfold Obligations.OnlyStoresWriteMemory
  intro s t hidle h
  suffices hmem : t.mem = s.mem from fun a => congrArg (Memory.byte? · a) hmem
  obtain ⟨-, ⟨-, rfl⟩ | ⟨-, hf, hcycle⟩⟩ := step_next h
  · rfl
  have hnone : StoresOnlyIssued { s with cycles := s.cycles + 1 } := fun st hst hbusy hstore => by
    simp [hidle st hst hbusy] at hstore
  obtain ⟨a, ha, hcase⟩ := cycle_next hcycle
  obtain ⟨hsa, hma⟩ := issuePhase_storesOnlyIssued hnone (by exact hf) ha
  obtain ⟨-, rfl⟩ | ⟨-, b, hb, hcase⟩ := hcase
  · exact hma
  obtain ⟨hsb, hmb⟩ := dispatchPhase_storesOnlyIssued hsa hb
  obtain ⟨-, rfl⟩ | ⟨-, c, hc, hcase⟩ := hcase
  · exact hmb.trans hma
  have hmc : c.mem = b.mem := writeResultPhase_mem (s := tickPhase b) hsb.unaddressed hc
  obtain ⟨-, rfl⟩ | ⟨-, d, hd, hcase⟩ := hcase
  · exact hmc.trans (hmb.trans hma)
  have hmd : d.mem = s.mem := (commitMove_of_phase hd).mem.trans (hmc.trans (hmb.trans hma))
  obtain ⟨-, rfl⟩ | ⟨-, rfl⟩ := hcase
  · exact hmd
  · exact hmd

end Sys2Proof.Machine

/-! SUPPORT. The packed word field by field: two words are equal when their seven fields are, the fields of a packed
record are its parts, and a word lies in a row of the opcode table exactly when the decoder's checks pass for that row's
opcode. -/

namespace Sys2Proof

/-! ### A word is its fields (R112) -/

/-- The seven fields of R112, side by side, are the word. -/
theorem append_fields (w : PackedWord) :
    immField w ++ (highReserved w ++ (dstField w ++ (src2Field w ++ (src1Field w ++
      (lowReserved w ++ opField w))))) = w := by
  have join {start len len' : Nat} :
      w.extractLsb' (start + len) len' ++ w.extractLsb' start len = w.extractLsb' start (len' + len) :=
    BitVec.extractLsb'_append_extractLsb'_eq_extractLsb' rfl
  simp only [opField, lowReserved, src1Field, src2Field, dstField, highReserved, immField]
  rw [join (start := 0) (len := 5), join (start := 0) (len := 8), join (start := 0) (len := 14),
    join (start := 0) (len := 20), join (start := 0) (len := 26), join (start := 0) (len := 32)]
  exact BitVec.extractLsb'_eq_self

theorem packedWord_ext_iff {w v : PackedWord} :
    w = v ↔ opField w = opField v ∧ lowReserved w = lowReserved v ∧ src1Field w = src1Field v ∧
      src2Field w = src2Field v ∧ dstField w = dstField v ∧ highReserved w = highReserved v ∧
      immField w = immField v := by
  refine ⟨fun h => by simp only [h, and_self], fun ⟨hop, hlow, hsrc1, hsrc2, hdst, hhigh, himm⟩ => ?_⟩
  rw [← append_fields w, ← append_fields v, hop, hlow, hsrc1, hsrc2, hdst, hhigh, himm]

theorem fields_and (w m : PackedWord) :
    opField (w &&& m) = opField w &&& opField m ∧ lowReserved (w &&& m) = lowReserved w &&& lowReserved m ∧
      src1Field (w &&& m) = src1Field w &&& src1Field m ∧ src2Field (w &&& m) = src2Field w &&& src2Field m ∧
      dstField (w &&& m) = dstField w &&& dstField m ∧ highReserved (w &&& m) = highReserved w &&& highReserved m ∧
      immField (w &&& m) = immField w &&& immField m := by
  refine ⟨?_, ?_, ?_, ?_, ?_, ?_, ?_⟩ <;> exact BitVec.extractLsb'_and

/-- The fields of a packed record are its parts, the reserved ones 0 (R112, R115). -/
@[simp] theorem fields_packRecord (op : Opcode) (d a b : OperandId) (i : Word) :
    opField (packRecord op d a b i) = op.code ∧ lowReserved (packRecord op d a b i) = 0 ∧
      src1Field (packRecord op d a b i) = a ∧ src2Field (packRecord op d a b i) = b ∧
      dstField (packRecord op d a b i) = d ∧ highReserved (packRecord op d a b i) = 0 ∧
      immField (packRecord op d a b i) = i := by
  simp only [opField, lowReserved, src1Field, src2Field, dstField, highReserved, immField, packRecord,
    BitVec.extractLsb'_append_eq_ite]
  simp

theorem reservedClear_iff {w : PackedWord} : reservedClear w = true ↔ lowReserved w = 0 ∧ highReserved w = 0 := by
  simp [reservedClear]

/-- A word whose reserved bits are 0 is the packed record of its other fields (R115). -/
theorem packRecord_fields {op : Opcode} {w : PackedWord} (hop : opField w = op.code) (hres : reservedClear w = true) :
    packRecord op (dstField w) (src1Field w) (src2Field w) (immField w) = w := by
  obtain ⟨hlow, hhigh⟩ := reservedClear_iff.mp hres
  simp [packedWord_ext_iff, hop, hlow, hhigh]

/-! ### Opcodes and their codes (R116, R123) -/

theorem ofCode_eq_some_iff {code : BitVec 5} {op : Opcode} : Opcode.ofCode code = some op ↔ code = op.code := by
  revert code
  cases op <;> decide

@[simp] theorem ofCode_code (op : Opcode) : Opcode.ofCode op.code = some op := ofCode_eq_some_iff.mpr rfl

theorem ofCode_eq_none_iff {code : BitVec 5} : Opcode.ofCode code = none ↔ 26 ≤ code.toNat := by
  revert code
  decide

theorem code_inj {op op' : Opcode} : op.code = op'.code ↔ op = op' := by
  rw [← ofCode_eq_some_iff, ofCode_code, Option.some_inj]

/-! ### The operand forms (R117) -/

/-- How an operand form uses an operand field: not at all, or for a register of one of the two files (R113, R117). -/
inductive FieldUse where
  | unused | integer | floating

/-- The bits of the field that a row of the opcode table fixes: all of an unused field, the file bit of a used one. -/
def FieldUse.mask : FieldUse → OperandId
  | .unused => 0x3F
  | .integer | .floating => 0x20

/-- The value a row gives these bits. -/
def FieldUse.value : FieldUse → OperandId
  | .unused | .integer => 0
  | .floating => 0x20

/-- The identifiers the use admits. -/
def FieldUse.admits : FieldUse → OperandId → Bool
  | .unused, id => id == 0
  | .integer, id => id.isInteger
  | .floating, id => id.isFloating

theorem FieldUse.and_mask_eq_value_iff {u : FieldUse} {id : OperandId} :
    id &&& u.mask = u.value ↔ u.admits id = true := by
  revert id
  cases u <;> decide

/-- An operand form: the use of its three operand fields, and whether it has an immediate (R117). -/
structure Form where
  dst : FieldUse
  src1 : FieldUse
  src2 : FieldUse
  hasImm : Bool

/-- The form of an opcode (R117), tied to the opcode table by `fields_rowMask` and `fields_rowMatch` and to the decoder
by `form_fits_iff`. -/
def Opcode.form : Opcode → Form
  | .add | .sub | .xor | .and | .mult | .div => ⟨.integer, .integer, .integer, false⟩
  | .addi | .subi | .xori | .andi => ⟨.integer, .integer, .unused, true⟩
  | .adds | .subs | .mults | .divs => ⟨.floating, .floating, .floating, false⟩
  | .lw => ⟨.integer, .integer, .unused, true⟩
  | .lws => ⟨.floating, .integer, .unused, true⟩
  | .sw => ⟨.unused, .integer, .integer, true⟩
  | .sws => ⟨.unused, .integer, .floating, true⟩
  | .beqz | .bnez | .bltz | .bgtz | .blez | .bgez => ⟨.unused, .integer, .unused, true⟩
  | .jump => ⟨.unused, .unused, .unused, true⟩
  | .eop => ⟨.unused, .unused, .unused, false⟩

/-- A row fixes the opcode, the reserved bits, and of the other fields what the opcode's form says (R127). -/
theorem fields_rowMask (op : Opcode) :
    opField (rowMask op) = .allOnes 5 ∧ lowReserved (rowMask op) = .allOnes 3 ∧
      src1Field (rowMask op) = op.form.src1.mask ∧ src2Field (rowMask op) = op.form.src2.mask ∧
      dstField (rowMask op) = op.form.dst.mask ∧ highReserved (rowMask op) = .allOnes 6 ∧
      immField (rowMask op) = if op.form.hasImm then 0 else .allOnes 32 := by
  cases op <;> decide

theorem fields_rowMatch (op : Opcode) :
    opField (rowMatch op) = op.code ∧ lowReserved (rowMatch op) = 0 ∧
      src1Field (rowMatch op) = op.form.src1.value ∧ src2Field (rowMatch op) = op.form.src2.value ∧
      dstField (rowMatch op) = op.form.dst.value ∧ highReserved (rowMatch op) = 0 ∧ immField (rowMatch op) = 0 := by
  cases op <;> decide

/-- The fields of the word are those of the form (R115, R117). -/
def Form.fits (f : Form) (w : PackedWord) : Prop :=
  f.src1.admits (src1Field w) = true ∧ f.src2.admits (src2Field w) = true ∧ f.dst.admits (dstField w) = true ∧
    (f.hasImm = false → immField w = 0)

/-- The decoder's two checks on the operand fields together are the form's. -/
theorem form_fits_iff (op : Opcode) (w : PackedWord) :
    op.form.fits w ↔ unusedClear op w = true ∧ (recordOf op w).wellFormed = true := by
  cases op <;>
    simp [Form.fits, Opcode.form, FieldUse.admits, unusedClear, recordOf, Instr.wellFormed, and_assoc, and_comm,
      and_left_comm]

/-- The table's rows are the decoder's checks (R115, R117, R127). -/
theorem inRow_iff {op : Opcode} {w : PackedWord} :
    inRow op w = true ↔ opField w = op.code ∧ reservedClear w = true ∧ unusedClear op w = true ∧
      (recordOf op w).wellFormed = true := by
  have himm : (immField w &&& if op.form.hasImm then 0 else .allOnes 32) = 0 ↔
      (op.form.hasImm = false → immField w = 0) := by
    cases op.form.hasImm <;> simp [-BitVec.reduceAllOnes]
  rw [inRow, beq_iff_eq, packedWord_ext_iff, reservedClear_iff, ← form_fits_iff]
  simp only [fields_and, fields_rowMask, fields_rowMatch, BitVec.and_allOnes, FieldUse.and_mask_eq_value_iff, himm,
    Form.fits]
  tauto

end Sys2Proof

/-! PROOFS of O1 to O4: the decoder, the encoder and the opcode table. -/

namespace Sys2Proof

/-! ### The decoder (R123, R124, R127) -/

@[simp] theorem recordOf_opcode (op : Opcode) (w : PackedWord) : (recordOf op w).opcode = op := by cases op <;> rfl

theorem decode_of_reservedCode {w : PackedWord} (h : 26 ≤ (opField w).toNat) : decode w = .error .unknownOpcode := by
  simp [decode, ofCode_eq_none_iff.mpr h]

/-- A word with an opcode's code is accepted exactly in that opcode's row. -/
theorem decode_of_code {op : Opcode} {w : PackedWord} (h : opField w = op.code) :
    decode w = if inRow op w then .ok (recordOf op w) else .error .badOperand := by
  simp [decode, inRow_iff, h, and_assoc]

/-- A word of a row has its opcode's code, and the decoder accepts it. -/
theorem decode_of_inRow {op : Opcode} {w : PackedWord} (h : inRow op w = true) : decode w = .ok (recordOf op w) := by
  rw [decode_of_code (inRow_iff.mp h).1, if_pos h]

/-- The decoder accepts only words of a row. -/
theorem decode_eq_ok {w : PackedWord} {i : Instr} (h : decode w = .ok i) :
    ∃ op, inRow op w = true ∧ i = recordOf op w := by
  cases hcode : Opcode.ofCode (opField w) with
  | none => simp [decode_of_reservedCode (ofCode_eq_none_iff.mp hcode)] at h
  | some op =>
    rw [decode_of_code (ofCode_eq_some_iff.mp hcode)] at h
    split at h
    next hrow => exact ⟨op, hrow, (Except.ok.inj h).symm⟩
    next => cases h

/-! ### The encoder (R112, R115) -/

/-- The fields of an instruction's word are those of the instruction. -/
theorem recordOf_encode (i : Instr) : recordOf i.opcode (encode i) = i := by
  cases i <;> simp [Instr.opcode, encode, recordOf]

/-- The word of a well-formed instruction lies in its opcode's row, instruction by instruction. -/
theorem inRow_encode : ∀ i : Instr, Laws.EncodesItsRow.Statement i
  | .add d a b => Laws.EncodesItsRow.add d a b
  | .sub d a b => Laws.EncodesItsRow.sub d a b
  | .xor d a b => Laws.EncodesItsRow.xor d a b
  | .and d a b => Laws.EncodesItsRow.and d a b
  | .mult d a b => Laws.EncodesItsRow.mult d a b
  | .div d a b => Laws.EncodesItsRow.div d a b
  | .addi d a v => Laws.EncodesItsRow.addi d a v
  | .subi d a v => Laws.EncodesItsRow.subi d a v
  | .xori d a v => Laws.EncodesItsRow.xori d a v
  | .andi d a v => Laws.EncodesItsRow.andi d a v
  | .adds d a b => Laws.EncodesItsRow.adds d a b
  | .subs d a b => Laws.EncodesItsRow.subs d a b
  | .mults d a b => Laws.EncodesItsRow.mults d a b
  | .divs d a b => Laws.EncodesItsRow.divs d a b
  | .lw d a v => Laws.EncodesItsRow.lw d a v
  | .lws d a v => Laws.EncodesItsRow.lws d a v
  | .sw a b v => Laws.EncodesItsRow.sw a b v
  | .sws a b v => Laws.EncodesItsRow.sws a b v
  | .beqz a v => Laws.EncodesItsRow.beqz a v
  | .bnez a v => Laws.EncodesItsRow.bnez a v
  | .bltz a v => Laws.EncodesItsRow.bltz a v
  | .bgtz a v => Laws.EncodesItsRow.bgtz a v
  | .blez a v => Laws.EncodesItsRow.blez a v
  | .bgez a v => Laws.EncodesItsRow.bgez a v
  | .jump v => Laws.EncodesItsRow.jump v
  | .eop => Laws.EncodesItsRow.eop

/-- Encoding the record read from a word packs the word's own fields: the unused ones, which `encode` writes as 0, are 0
already (R115). -/
theorem encode_recordOf {op : Opcode} {w : PackedWord} (h : unusedClear op w = true) :
    encode (recordOf op w) = packRecord op (dstField w) (src1Field w) (src2Field w) (immField w) := by
  cases op <;> simp_all [unusedClear, recordOf, encode]

/-! ### The obligations -/

/-- Settles O1: the word of a well-formed instruction lies in its opcode's row, and its fields are the instruction's. -/
theorem decodeOfEncode : Obligations.DecodeOfEncode := by
  unfold Obligations.DecodeOfEncode
  intro i hwf
  rw [decode_of_inRow (inRow_encode i hwf), recordOf_encode]

/-- Settles O2: an accepted word lies in a row, and the row's checks leave no bit but those of the used fields. -/
theorem encodeOfDecode : Obligations.EncodeOfDecode := by
  unfold Obligations.EncodeOfDecode
  intro w i h
  obtain ⟨op, hrow, rfl⟩ := decode_eq_ok h
  obtain ⟨hop, hres, hunused, hwf⟩ := inRow_iff.mp hrow
  exact ⟨hwf, (encode_recordOf hunused).trans (packRecord_fields hop hres)⟩

/-- Settles O3: a row is told by its code, and codes are distinct; a word in no row has a reserved code, or a known code
with operands outside that code's row. -/
theorem decodeReadsTheTableRows : Obligations.DecodeReadsTheTableRows := by
  unfold Obligations.DecodeReadsTheTableRows
  intro w
  refine ⟨fun op hrow => ⟨fun op' hrow' => ?_, recordOf op w, decode_of_inRow hrow, recordOf_opcode op w⟩,
    fun hnone => ?_⟩
  · exact code_inj.mp ((inRow_iff.mp hrow').1.symm.trans (inRow_iff.mp hrow).1)
  · change decode w = .error (if 26 ≤ (opField w).toNat then .unknownOpcode else .badOperand)
    split
    next hcode => exact decode_of_reservedCode hcode
    next hcode =>
      obtain ⟨op, hop⟩ := Option.ne_none_iff_exists'.mp (mt ofCode_eq_none_iff.mp hcode)
      simp [decode_of_code (ofCode_eq_some_iff.mp hop), hnone op]

/-- Settles O4: the nine words evaluate. -/
theorem printedWordsDecode : Obligations.PrintedWordsDecode := by
  unfold Obligations.PrintedWordsDecode
  decide

end Sys2Proof

/-! PROOF of O47: after Issue, `exec` by its stage. -/

namespace Sys2Proof.Machine

/-- Settles O47, stage by stage: what `exec` does after Issue is told by the opcode (R118, R164), which the instruction
in flight keeps. -/
theorem laterStagesDependOnTheOpcodeAlone : Obligations.LaterStagesDependOnTheOpcodeAlone := by
  unfold Obligations.LaterStagesDependOnTheOpcodeAlone
  intro i s hlater
  by_cases hi : i = .eop
  · rw [hi]
    rfl
  have hf : i.opcode.inFlight ≠ .eop := inFlight_ne_eop (opcode_ne_eop hi)
  cases hs : s.serving with
  | issue => exact absurd hs hlater
  | dispatch p x => rw [exec_dispatch hi hs, exec_dispatch hf hs, inFlight_opcode]
  | writeResult p x => rw [exec_writeResult hi hs, exec_writeResult hf hs, inFlight_opcode]
  | commit r => rw [exec_commit hi hs, exec_commit hf hs, inFlight_opcode]

end Sys2Proof.Machine

/-! SUPPORT. The order of the phases and of the visits inside a phase: a running block's step is its cycle, visits in
turn are the relation of `Safety.lean`, and the positions a phase finds stand in program-counter order. -/

namespace Sys2Proof.Machine

/-! ### Going on after a part of a cycle (R142) -/

theorem andThen_next_iff {o : Result} {k : State → Result} {t : State} :
    andThen o k = .next t ↔
      ∃ u, o = .next u ∧ (u.fault.isSome = true ∧ t = u ∨ u.fault = none ∧ k u = .next t) := by
  constructor
  · exact andThen_next
  · rintro ⟨u, rfl, ⟨hf, rfl⟩ | ⟨hf, hk⟩⟩
    · exact andThen_of_fault hf
    · exact (andThen_of_running hf).trans hk

theorem andThen_next_self (s : State) : andThen (.next s) .next = .next s := by
  by_cases hf : s.fault = none
  · exact andThen_of_running hf
  · exact andThen_of_fault (Option.isSome_iff_ne_none.mpr hf)

/-- Visiting in turn, as a function and as the relation of the statements. -/
theorem inTurn_next_iff {visit : Nat → State → Result} {l : List Nat} {s t : State} :
    inTurn visit l s = .next t ↔ VisitedInTurn visit l s t := by
  induction l generalizing s with
  | nil => simp only [inTurn, VisitedInTurn, Host.Outcome.next.injEq, eq_comm]
  | cons p l ih => simp only [inTurn, VisitedInTurn, andThen_next_iff, ih]

/-- The step of a running block is one cycle (R140). -/
theorem step_of_running {s : State} (h : Running s) : step s = cycle s := by
  obtain ⟨hprog, hdone, hfault⟩ := h
  obtain ⟨p, hp⟩ := Option.isSome_iff_exists.mp hprog
  simp [step, advance, hp, State.stopped, hdone, hfault]

theorem rest_of_serving {s : State} (h : s.serving = .issue) : { s with serving := .issue } = s := by
  rw [← h]

/-- What the end marker does not have tells an instruction from it. -/
theorem ne_eop_of {i : Instr} (f : Instr → Bool) (h : f i = true) (heop : f .eop = false) : i ≠ .eop := by
  rintro rfl
  simp [heop] at h

theorem Station.busy_of_pc {st : Station} {pc : Word} (h : st.pc = some pc) : st.busy = true := by
  simp [Station.busy, h]

/-! ### Positions in ascending program-counter order (R15, R156, R162) -/

/-- Positions sorted by a key stand in ascending order of what the key reads at each position. -/
theorem pairwise_sortByPc_positions {l : List (Word × Nat)} {key : Nat → Word → Prop}
    (hkey : ∀ pc p, (pc, p) ∈ l → ∀ pc', key p pc' → pc' = pc) :
    ((sortByPc l).map Prod.snd).Pairwise fun p q => ∀ pc pc', key p pc → key q pc' → pc.toNat ≤ pc'.toNat := by
  have hmem : ∀ {x : Word × Nat}, x ∈ sortByPc l → x ∈ l := (perm_sortByPc l).mem_iff.mp
  refine List.pairwise_map.mpr ((sorted_sortByPc l).imp_of_mem fun {x y} hx hy hle pc pc' hp hq => ?_)
  rw [hkey x.1 x.2 (hmem hx) pc hp, hkey y.1 y.2 (hmem hy) pc' hq]
  exact hle

theorem dispatchCandidates_ascending (s : State) :
    (dispatchCandidates s).Pairwise fun p q => ∀ st st' pc pc', s.rs[p]? = some st → s.rs[q]? = some st' →
      st.pc = some pc → st'.pc = some pc' → pc.toNat ≤ pc'.toNat := by
  refine (pairwise_sortByPc_positions (key := fun p pc => ∃ st, s.rs[p]? = some st ∧ st.pc = some pc)
    fun pc p h pc' ⟨st', hst', hpc'⟩ => ?_).imp fun h st st' pc pc' hst hst' hpc hpc' =>
      h pc pc' ⟨st, hst, hpc⟩ ⟨st', hst', hpc'⟩
  simp only [List.mem_filterMap, Prod.exists, List.mem_zipIdx_iff_getElem?] at h
  obtain ⟨st, q, hst, h⟩ := h
  split at h
  · simp only [Option.map_eq_some_iff, Prod.mk.injEq] at h
    obtain ⟨pc0, hpc, rfl, rfl⟩ := h
    rw [hst, Option.some.injEq] at hst'
    rw [← hst', hpc, Option.some.injEq] at hpc'
    exact hpc'.symm
  · cases h

/-- The units that Write-result completes (R162). -/
theorem mem_completingUnits {s : State} {x : Nat} :
    x ∈ completingUnits s ↔ ∃ u, s.fu[x]? = some u ∧ u.inUse = true ∧ u.count = 0 := by
  simp only [completingUnits, List.mem_map, (perm_sortByPc _).mem_iff, List.mem_filterMap, Prod.exists,
    List.mem_zipIdx_iff_getElem?]
  constructor
  · rintro ⟨pc, x', ⟨u, y, hu, hkey⟩, rfl⟩
    split at hkey
    · next hc =>
      simp only [Option.some.injEq, Prod.mk.injEq] at hkey
      simp only [Bool.and_eq_true, beq_iff_eq] at hc
      exact ⟨u, hkey.2 ▸ hu, hc⟩
    · cases hkey
  · rintro ⟨u, hu, huse, hcount⟩
    exact ⟨u.pc.getD 0, x, ⟨u, x, hu, by simp [huse, hcount]⟩, rfl⟩

theorem completingUnits_ascending (s : State) :
    (completingUnits s).Pairwise fun x y => ∀ u u' pc pc', s.fu[x]? = some u → s.fu[y]? = some u' →
      u.pc = some pc → u'.pc = some pc' → pc.toNat ≤ pc'.toNat := by
  refine (pairwise_sortByPc_positions (key := fun x pc => ∃ u, s.fu[x]? = some u ∧ u.pc = some pc)
    fun pc x h pc' ⟨u', hu', hpc'⟩ => ?_).imp fun h u u' pc pc' hu hu' hpc hpc' =>
      h pc pc' ⟨u, hu, hpc⟩ ⟨u', hu', hpc'⟩
  simp only [List.mem_filterMap, Prod.exists, List.mem_zipIdx_iff_getElem?] at h
  obtain ⟨u, y, hu, h⟩ := h
  split at h
  · simp only [Option.some.injEq, Prod.mk.injEq] at h
    obtain ⟨rfl, rfl⟩ := h
    rw [hu, Option.some.injEq] at hu'
    rw [hu', hpc']
    rfl
  · cases h

/-- The only busy station with a program counter is the one served (R163). -/
theorem servedStations_of_unique {s : State} {p : Nat} {st : Station} {pc : Option Word} (hst : s.rs[p]? = some st)
    (hbusy : st.busy = true) (hpc : st.pc = pc)
    (hother : ∀ q st', q ≠ p → s.rs[q]? = some st' → st'.busy = true → st'.pc ≠ pc) :
    servedStations s pc = [(st, p)] := by
  have hnodup : (servedStations s pc).Nodup := by
    have hpositions : s.rs.zipIdx.Nodup := List.Nodup.of_map Prod.snd (by simp [List.nodup_range'])
    exact hpositions.filter _
  refine List.perm_singleton.mp ((List.perm_ext_iff_of_nodup hnodup (List.nodup_singleton _)).mpr fun ⟨st', q⟩ => ?_)
  rw [mem_servedStations, List.mem_singleton, Prod.mk.injEq]
  constructor
  · rintro ⟨hst', hbusy', hpc'⟩
    by_cases hq : q = p
    · subst hq
      exact ⟨Option.some.inj (hst'.symm.trans hst), rfl⟩
    · exact absurd hpc' (hother q st' hq hst' hbusy')
  · rintro ⟨rfl, rfl⟩
    exact ⟨hst, hbusy, hpc⟩

/-- The least program counter in flight stands first (R43, R171). -/
theorem inFlight_head {s : State} {r : Nat} {e : RobEntry} {pc : Word} (he : s.rob[r]? = some e) (hpc : e.pc = some pc)
    (hleast : ∀ q e' pc', q ≠ r → s.rob[q]? = some e' → e'.pc = some pc' → pc.toNat < pc'.toNat) :
    ∃ l, s.inFlight = (pc, r) :: l := by
  have hmem : (pc, r) ∈ s.inFlight := mem_inFlight.mpr ⟨e, he, hpc⟩
  cases hflight : s.inFlight with
  | nil => simp [hflight] at hmem
  | cons x l =>
    obtain ⟨pc', q⟩ := x
    obtain ⟨e', he', hpc'⟩ := mem_inFlight.mp (hflight ▸ List.mem_cons_self : (pc', q) ∈ s.inFlight)
    have hsorted : s.inFlight.Pairwise fun a b => a.1.toNat ≤ b.1.toNat := sorted_sortByPc _
    rw [hflight] at hmem hsorted
    obtain heq | htail := List.mem_cons.mp hmem
    · exact ⟨l, by rw [heq]⟩
    · have hle : pc'.toNat ≤ pc.toNat := (List.pairwise_cons.mp hsorted).1 _ htail
      obtain rfl : q = r := by
        by_contra hq
        have := hleast q e' pc' hq he' hpc'
        omega
      obtain rfl : e' = e := Option.some.inj (he'.symm.trans he)
      obtain rfl : pc' = pc := Option.some.inj (hpc'.symm.trans hpc)
      exact ⟨l, rfl⟩

theorem inFlight_eq_nil {s : State} (h : ∀ e ∈ s.rob, e.busy = false) : s.inFlight = [] := by
  refine List.eq_nil_iff_forall_not_mem.mpr fun ⟨pc, r⟩ hmem => ?_
  obtain ⟨e, he, hpc⟩ := mem_inFlight.mp hmem
  have hidle := h e (List.mem_of_getElem? he)
  simp [RobEntry.busy, hpc] at hidle

/-- What is in flight is counted by the busy entries (R186). -/
theorem length_inFlight (s : State) : s.inFlight.length = s.busyEntries := by
  have hcount : ∀ (l : List RobEntry) (n : Nat),
      ((l.zipIdx n).filterMap fun x => x.1.pc.map fun pc => (pc, x.2)).length = l.countP RobEntry.busy := by
    intro l
    induction l with
    | nil => exact fun _ => rfl
    | cons e l ih =>
      intro n
      cases h : e.pc <;> simp [h, RobEntry.busy, ih]
  exact (perm_sortByPc _).length_eq.trans (hcount s.rob 0)

end Sys2Proof.Machine

/-! PROOFS of O9, O11, O13 and O16: the step, its phases in order, and Issue record by record. -/

namespace Sys2Proof.Machine

/-! ### Issue, one record at a time (R143, R144, R146) -/

theorem issues_iff {i : Instr} {s : State} : issues i s = true ↔ i ≠ .eop ∧ (issueSlot i.opcode s).isSome = true := by
  simp [issues]

/-- Issue executes the record at the fetch address, and goes on if it issued. -/
theorem issuePhase_of_exec {s t : State} {i : Instr} (n : Nat) (hserving : s.serving = .issue)
    (hfetch : s.fetch = some i) (h : exec i s = .next t) :
    issuePhase (n + 1) s = andThen (.next { t with serving := .issue })
      (if i ≠ .eop ∧ (issueSlot i.opcode s).isSome = true then issuePhase n else .next) := by
  have hserve : serve .issue i s = .next { t with serving := .issue } :=
    serve_of_next (by rw [rest_of_serving hserving]; exact h)
  simp only [issuePhase, hfetch, hserve, issues_iff]

theorem issuePhase_of_noRecord {s : State} (n : Nat) (hfetch : s.fetch = none) :
    issuePhase (n + 1) s = raise .fetchFault s.fetchPC none s := by
  simp only [issuePhase, hfetch]

/-- Issue stops at the end marker, whatever width is left (R144). -/
theorem issuePhase_of_eop {s : State} (n : Nat) (hserving : s.serving = .issue) (hfetch : s.fetch = some .eop) :
    issuePhase n s = .next s := by
  cases n with
  | zero => rfl
  | succ n =>
    rw [issuePhase_of_exec n hserving hfetch (exec_eop s), if_neg (by simp), rest_of_serving hserving]
    exact andThen_next_self s

/-- A record with a place to issue to issues, and Issue goes on in the state it leaves. -/
theorem issuePhase_of_slot {s : State} {i : Instr} {p : Nat} (n : Nat) (hserving : s.serving = .issue)
    (hf : s.fault = none) (hi : i ≠ .eop) (hfetch : s.fetch = some i) (hslot : issueSlot i.opcode s = some p) :
    issuePhase (n + 1) s = issuePhase n (issueInstr s i p) := by
  have hexec : exec i s = .next (issueInstr s i p) := by
    rw [exec_issue hi hserving, issueRecord_of_slot hslot, issueAt_eq_issueInstr]
  have hrest : { issueInstr s i p with serving := .issue } = issueInstr s i p := rest_of_serving hserving
  rw [issuePhase_of_exec n hserving hfetch hexec, if_pos ⟨hi, by simp [hslot]⟩, hrest]
  exact andThen_of_running hf

/-- The three ways an address names no record (R35, R37, R146). -/
theorem record?_eq_none {p : Program} {a : Word}
    (h : a.toNat < p.base.toNat ∨ (a.toNat - p.base.toNat) % 4 ≠ 0 ∨
      p.records.length ≤ (a.toNat - p.base.toNat) / 4) : p.record? a = none := by
  refine Option.eq_none_iff_forall_ne_some.mpr fun i hi => ?_
  obtain ⟨hbase, hstride, hrecord⟩ := record?_some hi
  obtain ⟨hlt, -⟩ := List.getElem?_eq_some_iff.mp hrecord
  omega

/-! ### The obligations -/

/-- Settles O9: Issue executes the fetched record in the state whose cycle has been counted. -/
theorem stepRunsTheFetchedRecord : Obligations.StepRunsTheFetchedRecord := by
  unfold Obligations.StepRunsTheFetchedRecord
  refine ⟨fun s t i n hrun hserving hwidth hfetch hexec => ?_, fun s => rfl,
    fun s t i n hserving hfetch hexec => issuePhase_of_exec n hserving hfetch hexec,
    fun s n hfetch => issuePhase_of_noRecord n hfetch⟩
  have hissue := issuePhase_of_exec (s := { s with cycles := s.cycles + 1 }) n hserving hfetch hexec
  rw [step_of_running hrun, cycle, hwidth, hissue]
  rfl

/-- Settles O11: a running block's step composes the phases by `andThen`. -/
theorem cycleRunsThePhasesInOrder : Obligations.CycleRunsThePhasesInOrder := by
  unfold Obligations.CycleRunsThePhasesInOrder
  refine fun s => ⟨fun hprog hstop => step_of_stopped hprog (by simpa [State.stopped] using hstop), fun hrun a ha => ?_⟩
  have hissue : step s = andThen (.next a) afterIssue := by rw [step_of_running hrun, cycle, ha]
  refine ⟨fun hf => hissue.trans (andThen_of_fault hf), fun hfa b hb => ?_⟩
  have hdispatch : step s = andThen (.next b) fun s1 => andThen (writeResultPhase (tickPhase s1)) fun s2 =>
      andThen (commitPhase s2) fun s3 => .next (endOfCycle s3) := by
    rw [hissue, andThen_of_running hfa, afterIssue, hb]
  refine ⟨fun hf => hdispatch.trans (andThen_of_fault hf), fun hfb c hc => ?_⟩
  have hwrite : step s = andThen (.next c) fun s2 => andThen (commitPhase s2) fun s3 => .next (endOfCycle s3) := by
    rw [hdispatch, andThen_of_running hfb, hc]
  refine ⟨fun hf => hwrite.trans (andThen_of_fault hf), fun hfc d hd hfd => ?_⟩
  rw [hwrite, andThen_of_running hfc, hd, andThen_of_running hfd]

/-- Settles O13: Issue meets the fault before it has done anything. -/
theorem fetchFaultEndsTheCycle : Obligations.FetchFaultEndsTheCycle := by
  unfold Obligations.FetchFaultEndsTheCycle
  intro s p hrun hwidth hprog hnowhere
  have hfetch : s.fetch = none := by
    simp only [State.fetch, hprog]
    exact record?_eq_none hnowhere
  obtain ⟨n, hn⟩ := Nat.exists_eq_succ_of_ne_zero (Nat.ne_of_gt hwidth)
  have hissue := issuePhase_of_noRecord (s := { s with cycles := s.cycles + 1 }) n hfetch
  rw [step_of_running hrun, cycle, hn, hissue]
  rfl

/-- Settles O16: the marker is no instruction that issues, so Issue does not go on after it. -/
theorem endOfProgramNeverIssues : Obligations.EndOfProgramNeverIssues := by
  unfold Obligations.EndOfProgramNeverIssues
  exact fun s n => ⟨exec_eop s, issuePhase_of_eop n⟩

end Sys2Proof.Machine

/-! PROOFS of O14, O15 and O17: what Issue does with one instruction. -/

namespace Sys2Proof.Machine

/-- A place to issue to is missing when the entry at the tail is busy, or every station of the class is (R145). -/
theorem issueSlot_eq_none {op : Opcode} {s : State} {c : RsClass} (hc : s.cfg.rsClass op = some c)
    (h : (s.robAt s.robTail).busy = true ∨ ∀ st ∈ s.rs, st.cls = c → st.busy = true) : issueSlot op s = none := by
  refine Option.eq_none_iff_forall_ne_some.mpr fun p hslot => ?_
  obtain ⟨hentry, c', st, hc', hst, hcls, hfree⟩ := issueSlot_some hslot
  obtain rfl : c = c' := Option.some.inj (hc.symm.trans hc')
  obtain hbusy | hbusy := h
  · simp [hentry] at hbusy
  · simp [hbusy st (List.mem_of_getElem? hst) hcls] at hfree

/-- Settles O14: `exec` at Issue is `IssueOne`, whose effect `issueAt_issued` tells. -/
theorem issueAllocatesAndRenames : Obligations.IssueAllocatesAndRenames := by
  unfold Obligations.IssueAllocatesAndRenames
  rintro i s p hi ⟨hserving, hslot⟩ htail
  exact ⟨_, (exec_issue hi hserving).trans (issueRecord_of_slot hslot ..), issueAt_issued hslot htail⟩

/-- Settles O15: either condition leaves no place to issue to. -/
theorem issueStallsWithoutSlot : Obligations.IssueStallsWithoutSlot := by
  unfold Obligations.IssueStallsWithoutSlot
  intro i s c hi hserving hc hfull
  exact (exec_issue hi hserving).trans (issueRecord_of_stall hc (issueSlot_eq_none hc hfull) ..)

/-- Settles O17, by the tag of the identifier's RAT entry. -/
theorem resolveFollowsTheProducer : Obligations.ResolveFollowsTheProducer := by
  unfold Obligations.ResolveFollowsTheProducer
  refine fun s id r => ⟨rfl, fun hnone => ?_, fun hself => ?_, fun p hp hne => ⟨fun hready => ?_, fun hready => ?_⟩⟩
  · simp [resolve, resolveRegister, hnone]
  · simp [resolve, resolveRegister, hself]
  · simp [resolve, resolveRegister, hp, hne, hready]
  · simp [resolve, resolveRegister, hp, hne, hready]

end Sys2Proof.Machine

/-! PROOFS of O18 to O23: Execute-dispatch and Unit-tick. -/

namespace Sys2Proof.Machine

/-! ### One dispatch (R156 to R159) -/

theorem takeUnit_of_busy {p x : Nat} {s : State} {st : Station} {u : FuncUnit} (hst : s.rs[p]? = some st)
    (hu : s.fu[x]? = some u) (hbusy : st.busy = true) :
    takeUnit p x s = .next (takeUnitWith p x st u st.ea s) := by
  simp [takeUnit, hst, hu, hbusy]

theorem takeUnitAddressed_of_base {p x : Nat} {s : State} {st : Station} {u : FuncUnit} {pc base : Word}
    (hst : s.rs[p]? = some st) (hu : s.fu[x]? = some u) (hpc : st.pc = some pc) (hj : st.j = .val (some base)) :
    takeUnitAddressed p x s = .next (takeUnitWith p x st u (some (base + st.imm)) s) := by
  simp only [takeUnitAddressed, hst, hu, hpc, hj]

theorem takeUnitAddressed_of_undefined {p x : Nat} {s : State} {st : Station} {u : FuncUnit} {pc : Word}
    (hst : s.rs[p]? = some st) (hu : s.fu[x]? = some u) (hpc : st.pc = some pc) (hj : st.j = .val none) :
    takeUnitAddressed p x s = raise .undefinedOperand pc none s := by
  simp only [takeUnitAddressed, hst, hu, hpc, hj]

/-- Settles O18: the unit is taken with the address the station holds, or with the one that the base gives. -/
theorem dispatchTakesTheUnit : Obligations.DispatchTakesTheUnit := by
  unfold Obligations.DispatchTakesTheUnit
  rintro i s p x st u pc hi ⟨hserving, hst, hu, hpc⟩
  refine ⟨fun hmem => ⟨_, ?_, takeUnitWith_dispatched st.ea hst hu⟩,
    fun hmem base hj => ⟨_, ?_, takeUnitWith_dispatched _ hst hu⟩⟩
  · rw [exec_dispatch hi hserving, hmem]
    exact takeUnit_of_busy hst hu (Station.busy_of_pc hpc)
  · have hea : BitVec.ofNat 32 (base.toNat + st.imm.toNat) = base + st.imm := by simp [BitVec.ofNat_add]
    rw [exec_dispatch hi hserving, if_pos hmem, hea]
    exact takeUnitAddressed_of_base hst hu hpc hj

/-- Settles O19: the address is computed before the unit is taken. -/
theorem undefinedBaseFaultsAtDispatch : Obligations.UndefinedBaseFaultsAtDispatch := by
  unfold Obligations.UndefinedBaseFaultsAtDispatch
  rintro i s p x st u pc hmem ⟨hserving, hst, hu, hpc⟩ hj
  refine ⟨_, ?_, rfl⟩
  rw [exec_dispatch (ne_eop_of (isMemory ·.opcode) hmem rfl) hserving, if_pos hmem]
  exact takeUnitAddressed_of_undefined hst hu hpc hj

/-! ### The phase (R142, R156, R157) -/

/-- Settles O20: the candidates are sorted positions of the pool, visited in turn. -/
theorem dispatchVisitsOldestFirst : Obligations.DispatchVisitsOldestFirst := by
  unfold Obligations.DispatchVisitsOldestFirst
  exact fun s => ⟨fun _ => mem_dispatchCandidates, dispatchCandidates_nodup s, dispatchCandidates_ascending s,
    fun _ => inTurn_next_iff⟩

/-- The lowest-indexed unit of the class that is not in use, told by its position (R157). -/
theorem freeUnit_eq_some {s : State} {k : FuClass} {x : Nat} {u : FuncUnit} (hu : s.fu[x]? = some u) (hk : u.cls = k)
    (hfree : u.inUse = false)
    (hlow : ∀ y u', y < x → s.fu[y]? = some u' → u'.cls = k → u'.inUse = true) : s.freeUnit k = some x := by
  obtain ⟨hlt, rfl⟩ := List.getElem?_eq_some_iff.mp hu
  refine List.findIdx?_eq_some_iff_getElem.mpr ⟨hlt, by simp [hk, hfree], fun y hy => ?_⟩
  have huse := hlow y s.fu[y] hy (List.getElem?_eq_getElem _)
  simpa using huse

theorem freeUnit_eq_none {s : State} {k : FuClass} (h : ∀ u ∈ s.fu, u.cls = k → u.inUse = true) :
    s.freeUnit k = none :=
  List.findIdx?_eq_none_iff.mpr fun u hu => by simpa using h u hu

/-- Settles O21, by whether the class has a free unit. -/
theorem candidateTakesTheLowestFreeUnit : Obligations.CandidateTakesTheLowestFreeUnit := by
  unfold Obligations.CandidateTakesTheLowestFreeUnit
  intro s p st k hst hk
  refine ⟨fun hnone => ?_, fun x u hu hcls hfree hlow => ?_⟩
  · simp only [dispatchStation, hst, hk, freeUnit_eq_none hnone]
  · have hserve : dispatchStation p s = serve (.dispatch p x) st.op.inFlight s := by
      simp only [dispatchStation, hst, hk, freeUnit_eq_some hu hcls hfree hlow]
    exact ⟨hserve, fun t ht => hserve.trans (serve_of_next ht)⟩

/-! ### Unit-tick (R160, R161) -/

theorem FuncUnit.tick_eq (u : FuncUnit) :
    u.tick = if u.inUse = true ∧ 0 < u.count then { u with count := u.count - 1 } else u := by
  simp [FuncUnit.tick]

theorem tickPhase_getElem? (s : State) (x : Nat) : (tickPhase s).fu[x]? = (s.fu[x]?).map FuncUnit.tick :=
  List.getElem?_map

/-- Settles O22, unit by unit. -/
theorem tickCountsEveryBusyUnitDown : Obligations.TickCountsEveryBusyUnitDown := by
  unfold Obligations.TickCountsEveryBusyUnitDown
  refine fun s => ⟨fun x u hu => ?_, rfl⟩
  rw [tickPhase_getElem?, hu, Option.map_some, FuncUnit.tick_eq]

/-- Ticks count a unit in use down, one each, until its count is spent. -/
theorem iterate_tickPhase_getElem? {s : State} {x m : Nat} {u : FuncUnit} (hu : s.fu[x]? = some u)
    (huse : u.inUse = true) (hm : m ≤ u.count) :
    (tickPhase^[m] s).fu[x]? = some { u with count := u.count - m } := by
  induction m with
  | zero => exact hu
  | succ m ih =>
    rw [Function.iterate_succ_apply', tickPhase_getElem?, ih (by omega), Option.map_some, FuncUnit.tick_eq,
      if_pos ⟨huse, by simp only; omega⟩, Nat.sub_sub]

/-- Settles O23: a unit starts one above its latency, and each tick takes one. -/
theorem latencyCountsToCompletion : Obligations.LatencyCountsToCompletion := by
  unfold Obligations.LatencyCountsToCompletion
  intro s x n m u hu huse _ hcount hm
  rw [iterate_tickPhase_getElem? hu huse (by omega), hcount, Nat.add_sub_add_right]

end Sys2Proof.Machine

/-! PROOFS of O35, O37, O38 and O40: Write-result. -/

namespace Sys2Proof.Machine

/-! ### Undefined operands (R164, R305) -/

theorem withOperand_of_undefined {slot : Slot} (h : slot = .val none) (k : Word → Computed) :
    withOperand slot k = .raised .undefinedOperand none := by
  rw [h]; rfl

theorem withOperand_of_word {slot : Slot} {a : Word} (h : slot = .val (some a)) (k : Word → Computed) :
    withOperand slot k = k a := by
  rw [h]; rfl

/-- Every `Compute` function of an instruction with a first source that is no memory access reads that source first. -/
theorem computeOf_of_undefinedFirst {i : Instr} {s : State} {pc : Word} {st : Station}
    (hmem : isMemory i.opcode = false) (hsource : (firstSource i).isSome = true) (hj : st.j = .val none) :
    computeOf i.opcode s pc st = .raised .undefinedOperand none := by
  have hread : ∀ k, withOperand st.j k = .raised .undefinedOperand none := withOperand_of_undefined hj
  cases i
  case lw | lws | sw | sws => cases hmem
  case jump | eop => cases hsource
  all_goals exact hread _

/-- One with a second source reads that source next. -/
theorem computeOf_of_undefinedSecond {i : Instr} {s : State} {pc a : Word} {st : Station}
    (hmem : isMemory i.opcode = false) (hsource : (secondSource i).isSome = true) (hj : st.j = .val (some a))
    (hk : st.k = .val none) : computeOf i.opcode s pc st = .raised .undefinedOperand none := by
  have hread : ∀ k : Word → Word → Computed,
      withOperand st.j (fun a => withOperand st.k (k a)) = .raised .undefinedOperand none := fun k =>
    (withOperand_of_word hj _).trans (withOperand_of_undefined hk _)
  cases i
  case add | sub | xor | and | mult | div | adds | subs | mults | divs => exact hread _
  case lw | lws | sw | sws => cases hmem
  all_goals cases hsource

/-- Settles O35: what `Compute` raises is recorded, and it reads its sources in order. -/
theorem undefinedOperandFaults : Obligations.UndefinedOperandFaults := by
  unfold Obligations.UndefinedOperandFaults
  intro i s p x st u pc hat hmem
  exact ⟨fun hsource hj =>
      exec_raises (ne_eop_of (firstSource · |>.isSome) hsource rfl) hat (computeOf_of_undefinedFirst hmem hsource hj),
    fun hsource ⟨_, hj⟩ hk =>
      exec_raises (ne_eop_of (secondSource · |>.isSome) hsource rfl) hat
        (computeOf_of_undefinedSecond hmem hsource hj hk)⟩

/-! ### The phase (R142, R162, R163, R168) -/

/-- Settles O37: the completing units are sorted positions of the pool, visited in turn before the sweep. -/
theorem completionsRunOldestFirst : Obligations.CompletionsRunOldestFirst := by
  unfold Obligations.CompletionsRunOldestFirst
  refine fun s => ⟨fun _ => mem_completingUnits, completingUnits_nodup s, completingUnits_ascending s, fun t => ?_⟩
  simp only [writeResultPhase, andThen_next_iff, inTurn_next_iff, Host.Outcome.next.injEq, @eq_comm _ (readySweep _)]

/-- The phase with one completing unit, from what that unit answers. -/
theorem writeResultPhase_of_single {s t : State} {x : Nat} (hx : completingUnits s = [x])
    (h : completeUnit x s = .next t) :
    writeResultPhase s = .next (if t.fault.isSome = true then t else readySweep t) := by
  rw [writeResultPhase, hx, inTurn, h]
  split
  · next hf => rw [andThen_of_fault hf, andThen_of_fault hf]
  · next hf =>
    rw [Option.not_isSome_iff_eq_none] at hf
    rw [andThen_of_running hf, inTurn, andThen_of_running hf]

/-- Settles O38: no other busy station has the unit's program counter, so that its station is the one found. -/
theorem completingUnitServesItsStation : Obligations.CompletingUnitServesItsStation := by
  unfold Obligations.CompletingUnitServesItsStation
  intro s x p u st hu hst hbusy hpc hother
  have hserve : completeUnit x s = serve (.writeResult p x) st.op.inFlight s := by
    simp only [completeUnit, hu, servedStations_of_unique hst hbusy hpc hother]
  refine ⟨hserve, fun t ht => ?_⟩
  have hcomplete : completeUnit x s = .next { t with serving := .issue } := hserve.trans (serve_of_next ht)
  exact ⟨hcomplete, fun hx => writeResultPhase_of_single hx hcomplete⟩

/-- Settles O40, entry by entry. -/
theorem sweepReadiesEntriesWithValues : Obligations.SweepReadiesEntriesWithValues := by
  unfold Obligations.SweepReadiesEntriesWithValues
  refine fun s => ⟨fun r e he => ?_, rfl⟩
  simp only [readySweep, List.getElem?_map, he, Option.map_some, Bool.and_eq_true, RobEntry.busy]

end Sys2Proof.Machine

/-! PROOFS of O41 to O46: Commit, recovery and the end of the cycle. -/

namespace Sys2Proof.Machine

/-! ### Commit of one entry (R171 to R179) -/

/-- Settles O41: the entry with the least program counter stands first in flight. -/
theorem commitTakesTheOldestReadyEntry : Obligations.CommitTakesTheOldestReadyEntry := by
  unfold Obligations.CommitTakesTheOldestReadyEntry
  refine fun s => ⟨fun hidle => ?_, fun r e pc he hpc hleast => ?_⟩
  · simp only [commitPhase, inFlight_eq_nil hidle]
  · obtain ⟨l, hflight⟩ := inFlight_head he hpc hleast
    have hcommit : commitPhase s = if e.ready = true then serve (.commit r) e.op.inFlight s else .next s := by
      simp only [commitPhase, hflight, robAt_of_getElem? he]
    exact ⟨hcommit, fun t hready ht => by rw [hcommit, if_pos hready, serve_of_next ht]⟩

/-- The completion check leaves what retiring did as it is (R179). -/
theorem Retired.completionCheck {s t : State} {r : Nat} {e : RobEntry} {pc : Word} (h : Retired s t r e pc) :
    Retired s (completionCheck pc t) r e pc := by
  rw [completionCheck_eq]
  exact { h with }

/-- Commit of an entry that is no mispredicted control instruction: it retires, writes its destination, and completion
is checked (R173 to R179, R282). -/
theorem exec_commit_retires {i : Instr} (hi : i ≠ .eop) {s : State} {r : Nat} {e : RobEntry} {pc v : Word}
    (hat : AtCommit s r e pc v) (h : isControl i.opcode = false ∨ v = pc + 4) :
    ∃ t, exec i s = .next t ∧ Retired s t r e pc ∧
      (∀ id, t.readReg id = if e.dest = .reg id then some v else s.readReg id) ∧
      (∀ id, t.ratAt id = if e.dest = .reg id ∧ (s.ratAt id).tag = some r then RatEntry.empty else s.ratAt id) ∧
      t.fetchPC = s.fetchPC ∧ CompletesAt s t pc := by
  obtain ⟨hserving, he, hpc, hv⟩ := hat
  have hret := retireEntry_retired (pc := pc) v he
  have hpredicted : ¬(isControl i.opcode && v != fallThrough pc) = true := by
    rw [fallThrough_eq]
    obtain h | h := h <;> simp [h]
  refine ⟨completionCheck pc (retireEntry r e pc v s), ?_, hret.completionCheck, fun id => ?_, fun id => ?_, ?_, ?_⟩
  · rw [exec_commit hi hserving, commitEntry_of_value he hpc hv, if_neg hpredicted]
  · rw [completionCheck_eq]
    exact readReg_retireEntry r e pc v s id
  · rw [completionCheck_eq]
    exact ratAt_retireEntry r e pc v s id
  · rw [completionCheck_eq]
    exact retireEntry_fetchPC r e pc v s
  · obtain ⟨-, hprog, -⟩ := hret.parameters
    rw [CompletesAt, completionCheck_done, retireEntry_done, hprog]

/-- The same for an entry without a register destination: no register and no RAT entry changes (R174, R175). -/
theorem exec_commit_only_retires {i : Instr} (hi : i ≠ .eop) {s : State} {r : Nat} {e : RobEntry} {pc v : Word}
    (hat : AtCommit s r e pc v) (h : isControl i.opcode = false ∨ v = pc + 4) (hdest : ∀ id, e.dest ≠ .reg id) :
    ∃ t, exec i s = .next t ∧ Retired s t r e pc ∧ SameRegisters s t ∧ SameRat s t ∧ t.fetchPC = s.fetchPC ∧
      CompletesAt s t pc := by
  obtain ⟨t, hexec, hret, hregs, hrat, hfetch, hdone⟩ := exec_commit_retires hi hat h
  exact ⟨t, hexec, hret, fun id => (hregs id).trans (if_neg (hdest id)),
    fun id => (hrat id).trans (if_neg fun h => hdest id h.1), hfetch, hdone⟩

/-- Settles O42: the entry retires with its value written to its destination. -/
theorem commitWritesTheDestination : Obligations.CommitWritesTheDestination := by
  unfold Obligations.CommitWritesTheDestination
  intro i s r e pc v d hi hcontrol hat hdest
  have hdest_iff : ∀ id, e.dest = .reg id ↔ id = d := fun id => by rw [hdest, Dest.reg.injEq, eq_comm]
  simpa only [hdest_iff] using exec_commit_retires hi hat (.inl hcontrol)

theorem isControl_of_isStore {op : Opcode} (h : isStore op = true) : isControl op = false := by
  cases op <;> simp [isStore] at h <;> rfl

/-- Settles O43: a store's entry has no register destination, and a store is no control instruction. -/
theorem commitOfStoreOnlyRetires : Obligations.CommitOfStoreOnlyRetires := by
  unfold Obligations.CommitOfStoreOnlyRetires
  intro i s r e pc v hstore hat hdest
  exact exec_commit_only_retires (ne_eop_of (isStore ·.opcode) hstore rfl) hat
    (.inl (isControl_of_isStore hstore)) (by simp [hdest])

/-- Settles O44: a control instruction's entry has no register destination, and its prediction was right. -/
theorem correctControlOnlyRetires : Obligations.CorrectControlOnlyRetires := by
  unfold Obligations.CorrectControlOnlyRetires
  intro i s r e pc v hcontrol hat hdest hv
  exact exec_commit_only_retires (ne_eop_of (isControl ·.opcode) hcontrol rfl) hat (.inr hv) (by simp [hdest])

/-! ### Recovery (R178, R184) -/

/-- What is in flight once the entry at `r` has retired: the other busy entries (R177). -/
theorem mem_inFlight_retireEntry {s : State} {r : Nat} {e : RobEntry} (he : s.rob[r]? = some e) (pc v w : Word) :
    w ∈ (retireEntry r e pc v s).inFlight.map Prod.fst ↔
      ∃ q e', q ≠ r ∧ s.rob[q]? = some e' ∧ e'.pc = some w := by
  have hrob : (retireEntry r e pc v s).rob = s.rob.set r e.clear := by rw [retireEntry_eq he]
  have hcleared : ∀ e', (s.rob.set r e.clear)[r]? = some e' → e'.pc = none := fun e' h => by
    rw [List.getElem?_set_self (List.getElem?_eq_some_iff.mp he).1] at h
    rw [← Option.some.inj h]
    rfl
  simp only [List.mem_map, Prod.exists, exists_and_right, exists_eq_right, mem_inFlight, hrob]
  refine exists_congr fun q => ⟨fun ⟨e', he', hpc⟩ => ?_, fun ⟨e', hq, he', hpc⟩ => ?_⟩
  · have hq : q ≠ r := by
      rintro rfl
      simp [hcleared e' he'] at hpc
    exact ⟨e', hq, (List.getElem?_set_ne hq.symm).symm.trans he', hpc⟩
  · exact ⟨e', (List.getElem?_set_ne hq.symm).trans he', hpc⟩

theorem length_inFlight_retireEntry {s : State} {r : Nat} {e : RobEntry} (he : s.rob[r]? = some e)
    (hbusy : e.busy = true) (pc v : Word) :
    (retireEntry r e pc v s).inFlight.length + 1 = s.busyEntries := by
  rw [length_inFlight, retireEntry_eq he]
  exact busyEntries_clear he hbusy

/-- Settles O45: the entry retires, and then `Recover` flushes what is left in flight. -/
theorem mispredictionFlushesEverything : Obligations.MispredictionFlushesEverything := by
  unfold Obligations.MispredictionFlushesEverything
  rintro i s r e pc v hcontrol ⟨hserving, he, hpc, hv⟩ hdest hne
  have hret := retireEntry_retired (pc := pc) v he
  have hmispredicted : (isControl i.opcode && v != fallThrough pc) = true :=
    Bool.and_eq_true_iff.mpr ⟨hcontrol, bne_iff_ne.mpr hne⟩
  have hregs : SameRegisters s (retireEntry r e pc v s) := fun id =>
    (readReg_retireEntry r e pc v s id).trans (by simp [hdest])
  have hsorted : (retireEntry r e pc v s).inFlight.Pairwise fun a b => a.1.toNat ≤ b.1.toNat := sorted_sortByPc _
  refine ⟨recover pc v (retireEntry r e pc v s), (retireEntry r e pc v s).inFlight.map Prod.fst, ?_,
    recover_flushed pc v _, rfl, rfl, congrArg (· ++ _) hret.squash, List.pairwise_map.mpr hsorted, ?_,
    mem_inFlight_retireEntry he pc v, hret.logged, hret.counted, hregs, hret.memory, hret.cycles,
    retireEntry_done r e pc v s, hret.fault, ?_, ?_, ?_, hret.parameters⟩
  · rw [exec_commit (ne_eop_of (isControl ·.opcode) hcontrol rfl) hserving,
      commitEntry_of_value he hpc hv, if_pos hmispredicted]
  · rw [List.length_map]
    exact length_inFlight_retireEntry he (by simp [RobEntry.busy, hpc]) pc v
  · exact (List.length_map _).trans hret.entries
  · exact (List.length_map _).trans (congrArg List.length hret.stations)
  · exact (List.length_map _).trans (congrArg List.length hret.units)

/-! ### End of cycle (R180) -/

theorem endOfCycle_getElem? {s : State} {q : Nat} {st : Station} (hst : s.rs[q]? = some st) :
    (endOfCycle s).rs[q]? = some (if st.busy && !st.executing then { st with ready := st.resolved } else st) := by
  simp only [endOfCycle, List.getElem?_map, hst, Option.map_some]

/-- Settles O46, by whether the station is busy and idle. -/
theorem endOfCycleRecomputesReady : Obligations.EndOfCycleRecomputesReady := by
  unfold Obligations.EndOfCycleRecomputesReady
  refine fun s => ⟨fun q st hst => ?_, rfl⟩
  refine ⟨_, endOfCycle_getElem? hst, by split <;> rfl, fun hbusy hidle => ?_, fun h => if_neg ?_⟩
  · rw [if_pos (by simp [Station.busy, hbusy, hidle])]
    simp [Station.resolved, Slot.cleared_iff]
  · obtain h | h := h <;> simp [Station.busy, h]

end Sys2Proof.Machine

/-! PROOF of O10: the first step of the placed instruction. -/

namespace Sys2Proof.Machine

/-! ### A quiet block (R140): after Issue only the end of the cycle has something to do -/

/-- No station is ready, no unit is in use and no entry holds a value. -/
structure Quiet (s : State) : Prop where
  stations : ∀ st ∈ s.rs, st.ready = false
  units : ∀ u ∈ s.fu, u.inUse = false
  entries : ∀ e ∈ s.rob, e.ready = false ∧ e.value = none

theorem blank_quiet (c : Config) (prog : Option Program) (pc : Word) : Quiet (State.blank c prog pc) where
  stations st hst := by
    obtain ⟨k, rfl⟩ := mem_stations hst
    rfl
  units u hu := by
    obtain ⟨k, rfl⟩ := mem_units hu
    rfl
  entries e he := by
    rw [blank_rob c prog pc he]
    exact ⟨rfl, rfl⟩

theorem Quiet.issueInstr {s : State} (hs : Quiet s) (i : Instr) (p : Nat) : Quiet (issueInstr s i p) where
  stations st hst := by
    obtain hst | ⟨st', -, rfl⟩ := mem_modify hst
    · exact hs.stations st hst
    · rfl
  units := hs.units
  entries e he := by
    obtain he | rfl := List.mem_or_eq_of_mem_set he
    · exact hs.entries e he
    · exact ⟨rfl, rfl⟩

theorem Quiet.dispatchCandidates_eq_nil {s : State} (hs : Quiet s) : dispatchCandidates s = [] := by
  refine List.eq_nil_iff_forall_not_mem.mpr fun p hp => ?_
  obtain ⟨st, hst, -, hready, -⟩ := mem_dispatchCandidates.mp hp
  simp [hs.stations st (List.mem_of_getElem? hst)] at hready

theorem Quiet.completingUnits_eq_nil {s : State} (hs : Quiet s) : completingUnits s = [] := by
  refine List.eq_nil_iff_forall_not_mem.mpr fun x hx => ?_
  obtain ⟨u, hu, huse, -⟩ := mem_completingUnits.mp hx
  simp [hs.units u (List.mem_of_getElem? hu)] at huse

theorem Quiet.tickPhase_eq {s : State} (hs : Quiet s) : tickPhase s = s := by
  have hfu : s.fu.map FuncUnit.tick = s.fu :=
    (List.map_congr_left fun u hu => by simp [FuncUnit.tick, hs.units u hu]).trans (List.map_id _)
  simp only [tickPhase, hfu]

theorem Quiet.readySweep_eq {s : State} (hs : Quiet s) : readySweep s = s := by
  have hrob : (s.rob.map fun e => if e.busy && e.value.isSome then { e with ready := true } else e) = s.rob :=
    (List.map_congr_left fun e he => by simp [(hs.entries e he).2]).trans (List.map_id _)
  simp only [readySweep, hrob]

theorem Quiet.commitPhase_eq {s : State} (hs : Quiet s) : commitPhase s = .next s := by
  unfold commitPhase
  split
  · rfl
  next pc r l hflight =>
    obtain ⟨e, he, -⟩ := mem_inFlight.mp (hflight ▸ List.mem_cons_self)
    rw [robAt_of_getElem? he, (hs.entries e (List.mem_of_getElem? he)).1]
    rfl

theorem Quiet.afterIssue_eq {s : State} (hs : Quiet s) (hf : s.fault = none) :
    afterIssue s = .next (endOfCycle s) := by
  simp only [afterIssue, dispatchPhase, hs.dispatchCandidates_eq_nil, inTurn, andThen_of_running hf, writeResultPhase,
    hs.tickPhase_eq, hs.completingUnits_eq_nil, hs.readySweep_eq, hs.commitPhase_eq]

/-! ### The placed instruction (R341) -/

/-- A reset block whose program is the instruction `i` alone; `withFetchWord_encode` ties it to `withFetchWord`. -/
def placed (i : Instr) : State := State.blank Config.standard (some { base := 0, records := [i, .eop] }) 0

theorem decodeTableWord_encode {i : Instr} (hwf : i.wellFormed = true) :
    decodeTableWord 64 (encode i).toNat = some i := by
  have hword : BitVec.ofNat 64 ((encode i).toNat % 2 ^ 64) = encode i := by
    rw [Nat.mod_eq_of_lt (encode i).isLt, BitVec.ofNat_toNat, BitVec.setWidth_eq]
  simp only [decodeTableWord, tableWord, Nat.le_refl, if_true, hword, decodeOfEncode i hwf]

theorem withFetchWord_encode {i : Instr} (hwf : i.wellFormed = true) (hi : i ≠ .eop) :
    State.reset.withFetchWord 64 (encode i).toNat = placed i := by
  simp only [State.withFetchWord, State.withRecord, decodeTableWord_encode hwf, soleProgram, if_neg hi]
  rfl

/-- The placed block as Issue meets it, its first cycle counted. -/
def inFirstCycle (i : Instr) : State := { placed i with cycles := 1 }

/-- The standard configuration has a free station of every class at reset. -/
theorem inFirstCycle_issueSlot {i : Instr} (hi : i ≠ .eop) : ∃ p, issueSlot i.opcode (inFirstCycle i) = some p := by
  have hslot : ∀ op ∈ issuableOpcodes, (issueSlot op State.reset).isSome = true := by decide
  exact Option.isSome_iff_exists.mp (hslot _ (mem_issuableOpcodes (opcode_ne_eop hi)))

theorem inFirstCycle_quiet (i : Instr) : Quiet (inFirstCycle i) :=
  { blank_quiet Config.standard (placed i).prog 0 with }

/-- The fetch address names the instruction, and once it has issued the end marker. -/
theorem inFirstCycle_fetch (i : Instr) (p : Nat) :
    (inFirstCycle i).fetch = some i ∧ (issueInstr (inFirstCycle i) i p).fetch = some .eop :=
  ⟨record?_of_index (p := { base := 0, records := [i, .eop] }) (n := 0) (by simp) (by simp),
    record?_of_index (p := { base := 0, records := [i, .eop] }) (n := 1) (by simp) (by simp)⟩

/-- The first step issues the instruction, stops at the end marker behind it, and finds nothing else to do. -/
theorem step_placed {i : Instr} (hi : i ≠ .eop) {p : Nat} (hslot : issueSlot i.opcode (inFirstCycle i) = some p) :
    step (placed i) = .next (endOfCycle (issueInstr (inFirstCycle i) i p)) := by
  obtain ⟨hfetch, hnext⟩ := inFirstCycle_fetch i p
  have hissue : issuePhase 2 (inFirstCycle i) = .next (issueInstr (inFirstCycle i) i p) :=
    (issuePhase_of_slot 1 rfl rfl hi hfetch hslot).trans (issuePhase_of_eop 1 rfl hnext)
  have hcycle : cycle (placed i) = andThen (issuePhase 2 (inFirstCycle i)) afterIssue := rfl
  rw [step_of_running ⟨rfl, rfl, rfl⟩, hcycle, hissue, andThen_of_running rfl,
    ((inFirstCycle_quiet i).issueInstr i p).afterIssue_eq rfl]

/-- Settles O10: the placed word decodes to the instruction, whose first step `step_placed` tells. -/
theorem placedInstructionIssuesNext : Obligations.PlacedInstructionIssuesNext := by
  unfold Obligations.PlacedInstructionIssuesNext
  intro i hwf hi
  obtain ⟨p, hslot⟩ := inFirstCycle_issueSlot hi
  obtain ⟨-, -, st, -, hst, -⟩ := issueSlot_some hslot
  have hissued : (issueInstr (inFirstCycle i) i p).rs[p]? = some (issuedStation (inFirstCycle i) i st) := by
    simp only [issueInstr, List.getElem?_modify_eq, hst, Option.map_eq_map, Option.map_some]
  have htail : (inFirstCycle i).robTail < (inFirstCycle i).rob.length := (by decide : 0 < 8)
  exact ⟨_, _, (congrArg step (withFetchWord_encode hwf hi)).trans (step_placed hi hslot), rfl, rfl, rfl, rfl,
    robAt_issueInstr_tail (p := p) htail, List.mem_of_getElem? (endOfCycle_getElem? hissued), rfl, rfl, rfl, rfl⟩

end Sys2Proof.Machine

/-! SUPPORT. What Write-result publishes: the value that `Compute` answers, with the memory it leaves, and the forms of
`Compute` that read one or two defined words and leave memory alone. -/

namespace Sys2Proof.Machine

section
variable {s : State} {pc a b : Word} {st : Station}

/-! ### The forms on defined operands (R118, R164) -/

theorem binary_of_words (f : Word → Word → Word) (hj : st.j = .val (some a)) (hk : st.k = .val (some b)) :
    binary f s pc st = .value (f a b) s.mem :=
  (withOperand_of_word hj _).trans (withOperand_of_word hk _)

theorem immediate_of_word (f : Word → Word → Word) (hj : st.j = .val (some a)) :
    immediate f s pc st = .value (f a st.imm) s.mem :=
  withOperand_of_word hj _

/-! ### `exec` at Write-result (R162 to R170) -/

variable {i : Instr} {p x : Nat} {u : FuncUnit} {v : Word}

/-- The value that `Compute` answers is published, and memory is what `Compute` left. -/
theorem exec_publishes {m : Memory} (hi : i ≠ .eop) (hat : AtWriteResult s p x st u pc)
    (hc : computeOf i.opcode s pc st = .value v m) :
    ∃ t, exec i s = .next t ∧ t.mem = m ∧ Published s t p x st u v := by
  obtain ⟨hserving, hst, hu, hpc⟩ := hat
  exact ⟨_, (exec_writeResult hi hserving).trans (writeResult_of_value hst hu hpc hc), finishAt_mem ..,
    finishAt_published v m hst hu⟩

/-- A `Compute` that leaves memory alone publishes its value and changes no byte. -/
theorem exec_publishes_sameMemory (hi : i ≠ .eop) (hat : AtWriteResult s p x st u pc)
    (hc : computeOf i.opcode s pc st = .value v s.mem) :
    ∃ t, exec i s = .next t ∧ SameMemory s t ∧ Published s t p x st u v := by
  obtain ⟨t, hexec, hmem, hpub⟩ := exec_publishes hi hat hc
  exact ⟨t, hexec, fun _ => by rw [hmem], hpub⟩

/-- An instruction of two sources publishes its function of them; `hv` says that function in other words. -/
theorem exec_publishes_binary (f : Word → Word → Word) (hf : computeOf i.opcode = binary f) (hi : i ≠ .eop)
    (hat : AtWriteResult s p x st u pc) (hj : st.j = .val (some a)) (hk : st.k = .val (some b)) (hv : f a b = v) :
    ∃ t, exec i s = .next t ∧ SameMemory s t ∧ Published s t p x st u v :=
  exec_publishes_sameMemory hi hat (hf ▸ hv ▸ binary_of_words f hj hk)

/-- An instruction of one source and an immediate publishes its function of the source and the station's immediate. -/
theorem exec_publishes_immediate (f : Word → Word → Word) (hf : computeOf i.opcode = immediate f) (hi : i ≠ .eop)
    (hat : AtWriteResult s p x st u pc) (hj : st.j = .val (some a)) (hv : f a st.imm = v) :
    ∃ t, exec i s = .next t ∧ SameMemory s t ∧ Published s t p x st u v :=
  exec_publishes_sameMemory hi hat (hf ▸ hv ▸ immediate_of_word f hj)

end

end Sys2Proof.Machine

/-! PROOFS of O24 to O27: the integer family. -/

namespace Sys2Proof.Machine

/-! ### The integer functions modulo 2^32 (R200 to R211) -/

/-- The difference of the words is the signed difference modulo 2^32 (R201, R210). -/
theorem sub_eq_ofInt (a b : Word) : a - b = BitVec.ofInt 32 (a.toInt - b.toInt) := by
  rw [Int.sub_eq_add_neg, BitVec.ofInt_add, BitVec.ofInt_neg, BitVec.ofInt_toInt, BitVec.ofInt_toInt,
    BitVec.sub_eq_add_neg]

/-- The low word of the product does not depend on the signs (R211). -/
theorem lowProduct_eq_ofNat (a b : Word) : lowProduct a b = BitVec.ofNat 32 (a.toNat * b.toNat) := by
  rw [lowProduct, BitVec.ofInt_mul, BitVec.ofInt_toInt, BitVec.ofInt_toInt, BitVec.ofNat_mul, BitVec.ofNat_toNat,
    BitVec.ofNat_toNat, BitVec.setWidth_eq, BitVec.setWidth_eq]

/-! ### The quotient (R205, R212) -/

theorem signedQuotient_eq_sdiv (a b : Word) : signedQuotient a b = a.sdiv b := by
  rw [← BitVec.toInt_inj, signedQuotient, BitVec.toInt_ofInt, BitVec.toInt_sdiv]

/-- But for the one quotient 2^31, the quotient is representable. -/
theorem signedQuotient_toInt {a b : Word} (h : ¬(a.toInt = -2 ^ 31 ∧ b.toInt = -1)) :
    (signedQuotient a b).toInt = a.toInt.tdiv b.toInt := by
  have hne : a ≠ BitVec.intMin 32 ∨ b ≠ -1#32 := by
    by_contra hboth
    obtain ⟨rfl, rfl⟩ : a = BitVec.intMin 32 ∧ b = -1#32 := by simpa [not_or] using hboth
    exact h ⟨by decide, by decide⟩
  rw [signedQuotient_eq_sdiv, BitVec.toInt_sdiv_of_ne_or_ne a b hne]

/-- A truncated quotient has the product of the signs, unless it is zero. -/
theorem sign_tdiv_of_ne_zero {a b : Int} (h : a.tdiv b ≠ 0) : (a.tdiv b).sign = a.sign * b.sign := by
  have hsmall : ¬a.natAbs < b.natAbs := fun hlt =>
    h (Int.sign_eq_zero_iff_zero.mp (by rw [Int.sign_tdiv, if_pos hlt]))
  rw [Int.sign_tdiv, if_neg hsmall]

/-! ### `Compute` of `DIV`, branch by branch (R205, R312) -/

section
variable {s : State} {pc a b : Word} {st : Station}

theorem divide_of_words (hj : st.j = .val (some a)) (hk : st.k = .val (some b)) :
    divide s pc st = if b.toInt = 0 then .raised .divideByZero none
      else if a.toInt = -2 ^ 31 ∧ b.toInt = -1 then .raised .divideOverflow none
      else .value (signedQuotient a b) s.mem :=
  (withOperand_of_word hj _).trans (withOperand_of_word hk _)

theorem divide_of_zero (hj : st.j = .val (some a)) (hk : st.k = .val (some b)) (hb : b.toInt = 0) :
    divide s pc st = .raised .divideByZero none := by
  rw [divide_of_words hj hk, if_pos hb]

theorem divide_of_overflow (hj : st.j = .val (some a)) (hk : st.k = .val (some b)) (ha : a.toInt = -2 ^ 31)
    (hb : b.toInt = -1) : divide s pc st = .raised .divideOverflow none := by
  rw [divide_of_words hj hk, if_neg (by omega), if_pos ⟨ha, hb⟩]

theorem divide_of_representable (hj : st.j = .val (some a)) (hk : st.k = .val (some b)) (hb : b.toInt ≠ 0)
    (h : ¬(a.toInt = -2 ^ 31 ∧ b.toInt = -1)) : divide s pc st = .value (signedQuotient a b) s.mem := by
  rw [divide_of_words hj hk, if_neg hb, if_neg h]

end

/-! ### The obligations -/

/-- Settles O24: each of the five is a function of both sources, told modulo 2^32. -/
theorem integerRegisterResults : Obligations.IntegerRegisterResults := by
  unfold Obligations.IntegerRegisterResults
  intro s p x st u pc a b d m n hat hj hk
  refine ⟨?add, ?sub, ?xor, ?and, ?mult⟩
  case add => exact exec_publishes_binary _ rfl Instr.noConfusion hat hj hk (BitVec.add_def a b)
  case sub => exact exec_publishes_binary _ rfl Instr.noConfusion hat hj hk (sub_eq_ofInt a b)
  case xor => exact exec_publishes_binary _ rfl Instr.noConfusion hat hj hk rfl
  case and => exact exec_publishes_binary _ rfl Instr.noConfusion hat hj hk rfl
  case mult => exact exec_publishes_binary _ rfl Instr.noConfusion hat hj hk (lowProduct_eq_ofNat a b)

/-- Settles O25: the published word is the truncated quotient, whose magnitude and sign are told. -/
theorem divideTruncatesTowardZero : Obligations.DivideTruncatesTowardZero := by
  unfold Obligations.DivideTruncatesTowardZero
  intro s p x st u pc a b d m n hat hj hk hzero hover
  obtain ⟨t, hexec, hmem, hpub⟩ := exec_publishes_sameMemory (i := .div d m n) Instr.noConfusion hat
    (divide_of_representable (pc := pc) hj hk hzero hover)
  have hq := signedQuotient_toInt hover
  refine ⟨t, signedQuotient a b, hexec, hmem, hpub, ?magnitude, fun hne => ?sign⟩
  case magnitude => rw [hq]; exact Int.natAbs_tdiv _ _
  case sign => rw [hq] at hne ⊢; exact sign_tdiv_of_ne_zero hne

/-- Settles O26: `Compute` of `DIV` raises in either case. -/
theorem divideFaults : Obligations.DivideFaults := by
  unfold Obligations.DivideFaults
  intro s p x st u pc a b d m n hat hj hk
  refine ⟨fun hzero => ?zero, fun ha hb => ?overflow⟩
  case zero => exact exec_raises Instr.noConfusion hat (divide_of_zero (pc := pc) hj hk (hzero ▸ rfl))
  case overflow => exact exec_raises Instr.noConfusion hat (divide_of_overflow (pc := pc) hj hk ha hb)

/-- Settles O27: each of the four is a function of the source and the station's immediate. -/
theorem integerImmediateResults : Obligations.IntegerImmediateResults := by
  unfold Obligations.IntegerImmediateResults
  intro s p x st u pc a i d m hat hj
  refine ⟨?addi, ?subi, ?xori, ?andi⟩
  case addi => exact exec_publishes_immediate _ rfl Instr.noConfusion hat hj (BitVec.add_def a st.imm)
  case subi => exact exec_publishes_immediate _ rfl Instr.noConfusion hat hj (sub_eq_ofInt a st.imm)
  case xori => exact exec_publishes_immediate _ rfl Instr.noConfusion hat hj rfl
  case andi => exact exec_publishes_immediate _ rfl Instr.noConfusion hat hj rfl

end Sys2Proof.Machine

/-! SUPPORT. The encodings of binary32: the fields of a word and of the words `withSign` builds, the three classes of
words, and the word of turned sign (R234, R235). -/

namespace Sys2Proof.Machine

/-! ### The fields as numbers -/

theorem signBit_eq (a : Word) : signBit a = decide (2 ^ 31 ≤ a.toNat) := BitVec.msb_eq_decide a

theorem exponentField_eq (a : Word) : exponentField a = a.toNat / 2 ^ 23 % 2 ^ 8 := by
  rw [exponentField, BitVec.extractLsb'_toNat, Nat.shiftRight_eq_div_pow]

theorem fractionField_eq (a : Word) : fractionField a = a.toNat % 2 ^ 23 := by
  rw [fractionField, BitVec.extractLsb'_toNat, Nat.shiftRight_zero]

theorem exponentField_lt (a : Word) : exponentField a < 2 ^ 8 := BitVec.isLt _

theorem fractionField_lt (a : Word) : fractionField a < 2 ^ 23 := BitVec.isLt _

/-! ### The words that `withSign` builds -/

section
variable (neg : Bool) {low : Nat}

theorem withSign_toNat (h : low < 2 ^ 31) : (withSign neg low).toNat = (if neg then 2 ^ 31 else 0) + low := by
  rw [withSign, BitVec.toNat_ofNat, Nat.mod_eq_of_lt (by split <;> omega)]

theorem signBit_withSign (h : low < 2 ^ 31) : signBit (withSign neg low) = neg := by
  rw [signBit_eq, withSign_toNat neg h]
  cases neg
  case false => simpa using h
  case true => simp

theorem exponentField_withSign (h : low < 2 ^ 31) : exponentField (withSign neg low) = low / 2 ^ 23 := by
  rw [exponentField_eq, withSign_toNat neg h]
  split <;> omega

theorem fractionField_withSign (h : low < 2 ^ 31) : fractionField (withSign neg low) = low % 2 ^ 23 := by
  rw [fractionField_eq, withSign_toNat neg h]
  split <;> omega

theorem getLsbD_zero_withSign (h : low < 2 ^ 31) : (withSign neg low).getLsbD 0 = decide (low % 2 = 1) := by
  rw [BitVec.getLsbD, withSign_toNat neg h, Nat.testBit_zero, decide_eq_decide]
  split <;> omega

end

/-- The sign and the two fields determine the word. -/
theorem withSign_signBit (a : Word) :
    withSign (signBit a) (exponentField a * 2 ^ 23 + fractionField a) = a := by
  have hexp := exponentField_lt a
  have hfrac := fractionField_lt a
  rw [← BitVec.toNat_inj, withSign_toNat _ (by omega), signBit_eq, exponentField_eq, fractionField_eq]
  have := a.isLt
  simp only [decide_eq_true_eq]
  split <;> omega

/-! ### NaNs, infinities and finite words exclude each other -/

section
variable {a : Word}

theorem isNan_iff : isNan a = true ↔ exponentField a = 255 ∧ fractionField a ≠ 0 := by simp [isNan]

theorem isInfinite_iff : isInfinite a = true ↔ exponentField a = 255 ∧ fractionField a = 0 := by simp [isInfinite]

theorem isFinite_iff : isFinite a = true ↔ exponentField a ≠ 255 := by simp [isFinite]

theorem isNan_of_isInfinite (h : isInfinite a = true) : isNan a = false :=
  Bool.eq_false_iff.mpr fun hnan => (isNan_iff.mp hnan).2 (isInfinite_iff.mp h).2

theorem isFinite_of_isInfinite (h : isInfinite a = true) : isFinite a = false :=
  Bool.eq_false_iff.mpr fun hfin => isFinite_iff.mp hfin (isInfinite_iff.mp h).1

theorem isNan_of_isFinite (h : isFinite a = true) : isNan a = false :=
  Bool.eq_false_iff.mpr fun hnan => isFinite_iff.mp h (isNan_iff.mp hnan).1

theorem isInfinite_of_isFinite (h : isFinite a = true) : isInfinite a = false :=
  Bool.eq_false_iff.mpr fun hinf => isFinite_iff.mp h (isInfinite_iff.mp hinf).1

/-- There is one infinity of each sign. -/
theorem infinityWord_signBit (h : isInfinite a = true) : infinityWord (signBit a) = a := by
  obtain ⟨hexp, hfrac⟩ := isInfinite_iff.mp h
  calc infinityWord (signBit a) = withSign (signBit a) (exponentField a * 2 ^ 23 + fractionField a) := by
        rw [hexp, hfrac]; rfl
    _ = a := withSign_signBit a

end

/-! ### The word of turned sign (R231) -/

section
variable (a : Word)

theorem signBit_negateWord : signBit (negateWord a) = !signBit a := by simp [signBit, negateWord]

theorem exponentField_negateWord : exponentField (negateWord a) = exponentField a := by
  simp [exponentField, negateWord, BitVec.extractLsb'_xor]

theorem fractionField_negateWord : fractionField (negateWord a) = fractionField a := by
  simp [fractionField, negateWord, BitVec.extractLsb'_xor]

theorem isNan_negateWord : isNan (negateWord a) = isNan a := by
  rw [isNan, exponentField_negateWord, fractionField_negateWord, isNan]

theorem isInfinite_negateWord : isInfinite (negateWord a) = isInfinite a := by
  rw [isInfinite, exponentField_negateWord, fractionField_negateWord, isInfinite]

theorem isFinite_negateWord : isFinite (negateWord a) = isFinite a := by
  rw [isFinite, exponentField_negateWord, isFinite]

theorem unitValue_negateWord : unitValue (negateWord a) = -unitValue a := by
  have hmag : magnitude (negateWord a) = magnitude a := by
    rw [magnitude, exponentField_negateWord, fractionField_negateWord, magnitude]
  rw [unitValue, signBit_negateWord, hmag, unitValue]
  cases signBit a <;> simp

end

/-! ### NaN results (R235) -/

/-- The free value is the sign and the fraction less one, so that the fraction is not zero. -/
theorem nanResult_fields (op : Opcode) (a b : Word) :
    exponentField (nanResult op a b) = 255 ∧ fractionField (nanResult op a b) ≠ 0 := by
  have hfrac := (Config.freeNan op a b).2.isLt
  have hlow : infinityField + ((Config.freeNan op a b).2.val + 1) < 2 ^ 31 := by rw [infinityField]; omega
  rw [nanResult, exponentField_withSign _ hlow, fractionField_withSign _ hlow, infinityField]
  constructor <;> omega

theorem isNan_nanResult (op : Opcode) (a b : Word) : isNan (nanResult op a b) = true :=
  isNan_iff.mpr (nanResult_fields op a b)

end Sys2Proof.Machine

/-! SUPPORT. Rounding to nearest, ties to even (R234): the rounded quotient is the nearest whole number, the finite
words around an exact result are the multiples of its last place, and `roundUnits` is the correctly rounded word. -/

namespace Sys2Proof.Machine

/-! ### The rounded quotient -/

section
variable {n d : Nat}

/-- The rounded quotient is the floor or the next number, by where twice the remainder stands. -/
theorem divRoundEven_cases (n d : Nat) :
    (divRoundEven n d = n / d ∧ 2 * (n % d) ≤ d ∨ divRoundEven n d = n / d + 1 ∧ d ≤ 2 * (n % d)) ∧
      (2 * (n % d) = d → divRoundEven n d % 2 = 0) := by
  unfold divRoundEven
  split_ifs <;> omega

/-- How far `k` is from `n / d`, scaled by `d`: the distance that `RoundedTo` compares (R234). -/
def scaledError (n d k : Nat) : Int := |(k : Int) * d - n|

/-- Counting in units of `2 ^ t` changes no error. -/
theorem scaledError_mul_two_pow (n d k t : Nat) : scaledError n d (k * 2 ^ t) = scaledError n (d * 2 ^ t) k := by
  rw [scaledError, scaledError, Nat.mul_comm d, Nat.cast_mul, Nat.cast_mul, mul_assoc]

/-- Below the exact value, a smaller number is farther from it. -/
theorem scaledError_lt_of_lt {k k' : Nat} (hd : 0 < d) (hlt : k < k') (hle : k' * d ≤ n) :
    scaledError n d k' < scaledError n d k := by
  have hmul : k * d < k' * d := Nat.mul_lt_mul_of_pos_right hlt hd
  zify at hmul hle
  rw [scaledError, scaledError, abs_of_nonpos (by omega), abs_of_nonpos (by omega)]
  omega

/-- The error is at most half a divisor, and exactly half only where the rounded quotient is even. -/
theorem scaledError_divRoundEven (hd : 0 < d) :
    2 * scaledError n d (divRoundEven n d) ≤ d ∧
      (2 * scaledError n d (divRoundEven n d) = d → divRoundEven n d % 2 = 0) := by
  have hn : (n : Int) = (n / d : Nat) * d + (n % d : Nat) := by exact_mod_cast (Nat.div_add_mod' n d).symm
  have hmod : n % d < d := Nat.mod_lt n hd
  obtain ⟨⟨hq, hhalf⟩ | ⟨hq, hhalf⟩, heven⟩ := divRoundEven_cases n d
  case inl =>
    have herr : scaledError n d (divRoundEven n d) = (n % d : Nat) := by
      rw [scaledError, hq, hn, sub_add_cancel_left, abs_neg, Nat.abs_cast]
    omega
  case inr =>
    have herr : scaledError n d (divRoundEven n d) = (d : Int) - (n % d : Nat) := by
      rw [scaledError, hq, hn, Nat.cast_add_one, add_one_mul, add_sub_add_left_eq_sub, abs_of_nonneg (by omega)]
    omega

/-- Two multiples of `d` stand at least `d` apart, so that their errors sum to at least that. -/
theorem le_scaledError_add {k k' : Nat} (h : k ≠ k') : (d : Int) ≤ scaledError n d k + scaledError n d k' := by
  calc (d : Int) ≤ |((k : Int) - k') * d| := by
        rw [abs_mul, Nat.abs_cast]
        exact le_mul_of_one_le_left (by omega) (Int.one_le_abs (by omega))
    _ = |((k : Int) * d - n) - (k' * d - n)| := by rw [sub_mul, sub_sub_sub_cancel_right]
    _ ≤ scaledError n d k + scaledError n d k' := abs_sub _ _

/-- No whole number is nearer to the quotient, and one as near leaves the rounded quotient even. -/
theorem divRoundEven_nearest (hd : 0 < d) (k : Nat) :
    scaledError n d (divRoundEven n d) ≤ scaledError n d k ∧
      (scaledError n d (divRoundEven n d) = scaledError n d k → k ≠ divRoundEven n d → divRoundEven n d % 2 = 0) := by
  obtain ⟨hhalf, heven⟩ := scaledError_divRoundEven (n := n) hd
  rcases eq_or_ne k (divRoundEven n d) with rfl | hne
  case inl => exact ⟨le_rfl, fun _ h => absurd rfl h⟩
  case inr =>
    have hapart : (d : Int) ≤ scaledError n d k + scaledError n d (divRoundEven n d) := le_scaledError_add hne
    exact ⟨by omega, fun htie _ => heven (by omega)⟩

theorem divRoundEven_le {m : Nat} (hd : 0 < d) (h : n < m * d) : divRoundEven n d ≤ m := by
  have hdiv : n / d < m := (Nat.div_lt_iff_lt_mul hd).mpr h
  have := divRoundEven_cases n d
  omega

theorem le_divRoundEven {m : Nat} (hd : 0 < d) (h : m * d ≤ n) : m ≤ divRoundEven n d := by
  have hdiv : m ≤ n / d := (Nat.le_div_iff_mul_le hd).mpr h
  have := divRoundEven_cases n d
  omega

/-- A quotient rounds up to 2^24 from half below it on: the tie goes to 2^24, which is even. -/
theorem divRoundEven_lt_iff (hd : 0 < d) : divRoundEven n d < 2 ^ 24 ↔ 2 * n < (2 ^ 25 - 1) * d := by
  have hn := Nat.div_add_mod' n d
  have hmod : n % d < d := Nat.mod_lt n hd
  have hcases := divRoundEven_cases n d
  rcases lt_trichotomy (n / d) (2 ^ 24 - 1) with hlt | heq | hgt
  case inl =>
    have hmul : n / d * d ≤ (2 ^ 24 - 2) * d := Nat.mul_le_mul_right d (by omega)
    omega
  case inr.inl =>
    rw [heq] at hcases hn
    omega
  case inr.inr =>
    have hmul : 2 ^ 24 * d ≤ n / d * d := Nat.mul_le_mul_right d (by omega)
    omega

end

/-! ### The places that are dropped -/

section
variable {num den : Nat}

/-- The exact value is below 2^24 of the units in the last place. -/
theorem num_lt_lastPlace (num : Nat) (hden : 0 < den) :
    num < 2 ^ 24 * (den * 2 ^ droppedPlaces num den) := by
  have hlog : num / den < 2 ^ (24 + droppedPlaces num den) :=
    Nat.lt_log2_self.trans_le (Nat.pow_le_pow_right (by decide) (by rw [droppedPlaces]; omega))
  calc num < 2 ^ (24 + droppedPlaces num den) * den := (Nat.div_lt_iff_lt_mul hden).mp hlog
    _ = 2 ^ 24 * (den * 2 ^ droppedPlaces num den) := by rw [pow_add, mul_assoc, mul_comm den]

/-- Where places are dropped, the leading one stands. -/
theorem lastPlace_le_num (hden : 0 < den) (h : droppedPlaces num den ≠ 0) :
    2 ^ 23 * (den * 2 ^ droppedPlaces num den) ≤ num := by
  have hne : num / den ≠ 0 := fun hzero => h (by rw [droppedPlaces, hzero]; rfl)
  have hlog : 2 ^ (23 + droppedPlaces num den) ≤ num / den := by
    rw [droppedPlaces] at h ⊢
    rw [show 23 + (Nat.log2 (num / den) - 23) = Nat.log2 (num / den) by omega]
    exact Nat.log2_self_le hne
  calc 2 ^ 23 * (den * 2 ^ droppedPlaces num den) = 2 ^ (23 + droppedPlaces num den) * den := by
        rw [pow_add, mul_assoc, mul_comm den]
    _ ≤ num := (Nat.le_div_iff_mul_le hden).mp hlog

end

/-! ### The magnitudes of the finite words -/

/-- With `t` places dropped, the field of a significand in units of the last place is that many of them. -/
theorem magnitude_withSign (neg : Bool) {t q : Nat} (hsmall : t * 2 ^ 23 + q < 2 ^ 31) (hle : q ≤ 2 ^ 24)
    (hone : t ≠ 0 → 2 ^ 23 ≤ q) : magnitude (withSign neg (t * 2 ^ 23 + q)) = q * 2 ^ t := by
  rw [magnitude, exponentField_withSign neg hsmall, fractionField_withSign neg hsmall]
  rcases hle.lt_or_eq with hlt | rfl
  case inl =>
    rcases lt_or_ge q (2 ^ 23) with hsub | hnorm
    · obtain rfl : t = 0 := by omega
      rw [if_pos (by omega)]; omega
    · rw [if_neg (by omega), show (t * 2 ^ 23 + q) / 2 ^ 23 - 1 = t by omega,
        show 2 ^ 23 + (t * 2 ^ 23 + q) % 2 ^ 23 = q by omega]
  case inr =>
    rw [if_neg (by omega), show (t * 2 ^ 23 + 2 ^ 24) / 2 ^ 23 - 1 = t + 1 by omega,
      show 2 ^ 23 + (t * 2 ^ 23 + 2 ^ 24) % 2 ^ 23 = 2 ^ 23 by omega, pow_succ]
    omega

/-- A magnitude is a multiple of 2^t, or lies below the first one with a leading one there. -/
theorem magnitude_multiple_or_lt (c : Word) (t : Nat) :
    (∃ k, magnitude c = k * 2 ^ t) ∨ t ≠ 0 ∧ magnitude c < 2 ^ 23 * 2 ^ t := by
  have hfrac := fractionField_lt c
  rcases Nat.eq_zero_or_pos t with rfl | ht
  · exact .inl ⟨magnitude c, by rw [pow_zero, mul_one]⟩
  rw [magnitude]
  split
  case isTrue => exact .inr ⟨ht.ne', hfrac.trans_le (Nat.le_mul_of_pos_right _ (Nat.two_pow_pos t))⟩
  case isFalse hexp =>
    rcases Nat.lt_or_ge (exponentField c - 1) t with hlt | hge
    · refine .inr ⟨ht.ne', ?_⟩
      calc (2 ^ 23 + fractionField c) * 2 ^ (exponentField c - 1)
          < 2 ^ 24 * 2 ^ (exponentField c - 1) := Nat.mul_lt_mul_of_pos_right (by omega) (Nat.two_pow_pos _)
        _ = 2 ^ 23 * 2 ^ (exponentField c - 1 + 1) := by rw [pow_succ]; omega
        _ ≤ 2 ^ 23 * 2 ^ t := Nat.mul_le_mul_left _ (Nat.pow_le_pow_right (by decide) hlt)
    · refine .inl ⟨(2 ^ 23 + fractionField c) * 2 ^ (exponentField c - 1 - t), ?_⟩
      rw [mul_assoc, ← pow_add, Nat.sub_add_cancel hge]

/-! ### The correctly rounded word -/

/-- The significand of `num / den`, in units of the last of its 24 places, rounded. -/
def significand (num den : Nat) : Nat := divRoundEven num (den * 2 ^ droppedPlaces num den)

theorem roundedField_eq (num den : Nat) :
    roundedField num den = min (droppedPlaces num den * 2 ^ 23 + significand num den) infinityField := rfl

section
variable {num den : Nat}

theorem lastPlace_pos (hden : 0 < den) : 0 < den * 2 ^ droppedPlaces num den :=
  Nat.mul_pos hden (Nat.two_pow_pos _)

theorem significand_le (hden : 0 < den) : significand num den ≤ 2 ^ 24 :=
  divRoundEven_le (lastPlace_pos hden) (num_lt_lastPlace num hden)

theorem le_significand (hden : 0 < den) (h : droppedPlaces num den ≠ 0) : 2 ^ 23 ≤ significand num den :=
  le_divRoundEven (lastPlace_pos hden) (lastPlace_le_num hden h)

/-- Rounding stays finite exactly below half a unit in the last place above the largest finite value. -/
theorem rounded_lt_infinityField_iff (hden : 0 < den) :
    droppedPlaces num den * 2 ^ 23 + significand num den < infinityField ↔
      num < (2 ^ 25 - 1) * 2 ^ 252 * den := by
  have hle := significand_le (num := num) hden
  have hge := le_significand (num := num) hden
  have hupper := num_lt_lastPlace num hden
  have hlower := lastPlace_le_num (num := num) hden
  have htop : significand num den < 2 ^ 24 ↔ 2 * num < (2 ^ 25 - 1) * (den * 2 ^ droppedPlaces num den) :=
    divRoundEven_lt_iff (lastPlace_pos hden)
  rw [infinityField]
  generalize significand num den = q at *
  generalize droppedPlaces num den = t at *
  rcases lt_trichotomy t 253 with hlt | rfl | hgt
  case inl =>
    have hscale : den * 2 ^ t ≤ den * 2 ^ 252 :=
      Nat.mul_le_mul_left _ (Nat.pow_le_pow_right (by decide) (by omega))
    omega
  case inr.inl => omega
  case inr.inr =>
    have hscale : den * 2 ^ 254 ≤ den * 2 ^ t :=
      Nat.mul_le_mul_left _ (Nat.pow_le_pow_right (by decide) hgt)
    omega

/-- No finite word is nearer than the rounded significand, and one as near leaves it even: the multiples of the last
place are no nearer, and the words between them lie below the leading one, on whose far side the exact value stands. -/
theorem significand_nearest (hden : 0 < den) (c : Word) {m : Nat}
    (hm : m = significand num den * 2 ^ droppedPlaces num den) :
    scaledError num den m ≤ scaledError num den (magnitude c) ∧
      (scaledError num den m = scaledError num den (magnitude c) → magnitude c ≠ m → significand num den % 2 = 0) := by
  have hnearest (k : Nat) := divRoundEven_nearest (n := num) (lastPlace_pos (num := num) hden) k
  rw [hm, scaledError_mul_two_pow, significand]
  rcases magnitude_multiple_or_lt c (droppedPlaces num den) with ⟨k, hk⟩ | ⟨hdropped, hbelow⟩
  case inl =>
    obtain ⟨hle, htie⟩ := hnearest k
    rw [hk, scaledError_mul_two_pow]
    exact ⟨hle, fun heq hne => htie heq fun hkq => hne (by rw [hkq])⟩
  case inr =>
    obtain ⟨hle, -⟩ := hnearest (2 ^ 23)
    rw [← scaledError_mul_two_pow num den (2 ^ 23)] at hle
    have hone : 2 ^ 23 * 2 ^ droppedPlaces num den * den ≤ num := by
      rw [mul_assoc, mul_comm _ den]
      exact lastPlace_le_num hden hdropped
    have hfar := hle.trans_lt (scaledError_lt_of_lt hden hbelow hone)
    exact ⟨hfar.le, fun heq => absurd heq hfar.ne⟩

/-- `roundUnits` rounds to nearest, ties to even (R234). -/
theorem roundUnits_roundedTo (neg : Bool) (num : Nat) (hden : 0 < den) :
    RoundedTo neg num den (roundUnits neg num den) := by
  have hfinite := rounded_lt_infinityField_iff (num := num) hden
  rcases lt_or_ge num ((2 ^ 25 - 1) * 2 ^ 252 * den) with hlt | hge
  case inl =>
    have hfield := hfinite.mpr hlt
    have hlow : droppedPlaces num den * 2 ^ 23 + significand num den < 2 ^ 31 := by
      rw [infinityField] at hfield; omega
    have hmag := magnitude_withSign neg hlow (significand_le hden) (le_significand hden)
    rw [roundUnits, roundedField_eq, min_eq_left hfield.le]
    refine .inr ⟨hlt, ?finite, signBit_withSign neg hlow, fun c _ => ?nearest⟩
    case finite =>
      rw [isFinite_iff, exponentField_withSign neg hlow]
      rw [infinityField] at hfield; omega
    case nearest =>
      obtain ⟨hle, htie⟩ := significand_nearest hden c hmag
      rw [getLsbD_zero_withSign neg hlow]
      refine ⟨hle, fun heq hne => decide_eq_false ?_⟩
      have := htie heq hne
      omega
  case inr =>
    have hfield : infinityField ≤ droppedPlaces num den * 2 ^ 23 + significand num den :=
      not_lt.mp fun hlt => absurd (hfinite.mp hlt) (not_lt.mpr hge)
    exact .inl ⟨hge, by rw [roundUnits, roundedField_eq, min_eq_right hfield]; rfl⟩

end

end Sys2Proof.Machine

/-! SUPPORT. The four floating functions class by class: which of their branches answers for which operands, and what
that branch answers (R230 to R235). -/

namespace Sys2Proof.Machine

section
variable {a b : Word}

/-! ### Sums and differences (R230, R231) -/

theorem addWith_of_isNan (op : Opcode) (b' : Word) (h : isNan a = true ∨ isNan b = true) :
    addWith op a b b' = nanResult op a b' := by
  rw [addWith, if_pos (by simpa using h)]

theorem addWith_infinite_infinite (op : Opcode) (b' : Word) (ha : isInfinite a = true) (hb : isInfinite b = true) :
    addWith op a b b' = if signBit a = signBit b then a else nanResult op a b' := by
  simp only [addWith, isNan_of_isInfinite ha, isNan_of_isInfinite hb, ha, hb, infinityWord_signBit ha]
  split_ifs <;> simp_all

theorem addWith_infinite_finite (op : Opcode) (b' : Word) (ha : isInfinite a = true) (hb : isFinite b = true) :
    addWith op a b b' = a := by
  simp [addWith, isNan_of_isInfinite ha, isNan_of_isFinite hb, ha, isInfinite_of_isFinite hb, infinityWord_signBit ha]

theorem addWith_finite_infinite (op : Opcode) (b' : Word) (ha : isFinite a = true) (hb : isInfinite b = true) :
    addWith op a b b' = b := by
  simp [addWith, isNan_of_isFinite ha, isNan_of_isInfinite hb, isInfinite_of_isFinite ha, hb, infinityWord_signBit hb]

theorem addWith_finite_finite (op : Opcode) (b' : Word) (ha : isFinite a = true) (hb : isFinite b = true) :
    addWith op a b b' = roundSum (signBit a) (unitValue a) (signBit b) (unitValue b) := by
  simp [addWith, isNan_of_isFinite ha, isNan_of_isFinite hb, isInfinite_of_isFinite ha, isInfinite_of_isFinite hb]

/-- An exact zero sum has the sign told apart, and any other is rounded. -/
theorem roundSum_spec (negA negB : Bool) (x y : Int) :
    (x + y = 0 → roundSum negA x negB y = zeroWord (negA && negB)) ∧
      (x + y ≠ 0 → RoundedTo (decide (x + y < 0)) (x + y).natAbs 1 (roundSum negA x negB y)) := by
  refine ⟨fun hzero => if_pos hzero, fun hne => ?_⟩
  rw [roundSum, if_neg hne]
  exact roundUnits_roundedTo _ _ Nat.one_pos

theorem addFloat_isNan (h : isNan a = true ∨ isNan b = true) : isNan (addFloat a b) = true := by
  rw [addFloat, addWith_of_isNan _ _ h]
  exact isNan_nanResult ..

theorem subFloat_isNan (h : isNan a = true ∨ isNan b = true) : isNan (subFloat a b) = true := by
  rw [subFloat, addWith_of_isNan _ _ (by rwa [isNan_negateWord])]
  exact isNan_nanResult ..

theorem subFloat_infinite_infinite (ha : isInfinite a = true) (hb : isInfinite b = true) :
    subFloat a b = if signBit a = signBit b then nanResult .subs a b else a := by
  rw [subFloat, addWith_infinite_infinite _ _ ha (by rwa [isInfinite_negateWord]), signBit_negateWord]
  cases signBit a <;> cases signBit b <;> rfl

theorem subFloat_infinite_finite (ha : isInfinite a = true) (hb : isFinite b = true) : subFloat a b = a :=
  addWith_infinite_finite _ _ ha (by rwa [isFinite_negateWord])

theorem subFloat_finite_infinite (ha : isFinite a = true) (hb : isInfinite b = true) :
    subFloat a b = infinityWord (!signBit b) := by
  have hb' : isInfinite (negateWord b) = true := by rwa [isInfinite_negateWord]
  rw [subFloat, addWith_finite_infinite _ _ ha hb', ← signBit_negateWord, infinityWord_signBit hb']

theorem addFloat_finite_finite (ha : isFinite a = true) (hb : isFinite b = true) :
    (unitValue a + unitValue b = 0 → addFloat a b = zeroWord (signBit a && signBit b)) ∧
      (unitValue a + unitValue b ≠ 0 →
        RoundedTo (decide (unitValue a + unitValue b < 0)) (unitValue a + unitValue b).natAbs 1 (addFloat a b)) := by
  rw [addFloat, addWith_finite_finite _ _ ha hb]
  exact roundSum_spec ..

theorem subFloat_finite_finite (ha : isFinite a = true) (hb : isFinite b = true) :
    (unitValue a - unitValue b = 0 → subFloat a b = zeroWord (signBit a && !signBit b)) ∧
      (unitValue a - unitValue b ≠ 0 →
        RoundedTo (decide (unitValue a - unitValue b < 0)) (unitValue a - unitValue b).natAbs 1 (subFloat a b)) := by
  rw [subFloat, addWith_finite_finite _ _ ha (by rwa [isFinite_negateWord]), signBit_negateWord, unitValue_negateWord,
    Int.sub_eq_add_neg]
  exact roundSum_spec ..

/-! ### Products (R232) -/

theorem mulFloat_isNan (h : isNan a = true ∨ isNan b = true) : isNan (mulFloat a b) = true := by
  rw [mulFloat, if_pos (by simpa using h)]
  exact isNan_nanResult ..

theorem mulFloat_infinite_infinite (ha : isInfinite a = true) (hb : isInfinite b = true) :
    mulFloat a b = infinityWord (signBit a != signBit b) := by
  simp [mulFloat, isNan_of_isInfinite ha, isNan_of_isInfinite hb, ha, isFinite_of_isInfinite ha,
    isFinite_of_isInfinite hb]

theorem mulFloat_infinite_finite (ha : isInfinite a = true) (hb : isFinite b = true) :
    mulFloat a b = if magnitude b = 0 then nanResult .mults a b else infinityWord (signBit a != signBit b) := by
  simp [mulFloat, isNan_of_isInfinite ha, isNan_of_isFinite hb, ha, hb, isFinite_of_isInfinite ha]

theorem mulFloat_finite_infinite (ha : isFinite a = true) (hb : isInfinite b = true) :
    mulFloat a b = if magnitude a = 0 then nanResult .mults a b else infinityWord (signBit a != signBit b) := by
  simp [mulFloat, isNan_of_isFinite ha, isNan_of_isInfinite hb, ha, hb, isFinite_of_isInfinite hb]

theorem mulFloat_finite_finite (ha : isFinite a = true) (hb : isFinite b = true) :
    RoundedTo (signBit a != signBit b) (magnitude a * magnitude b) (2 ^ 149) (mulFloat a b) := by
  have hrounds : mulFloat a b = roundUnits (signBit a != signBit b) (magnitude a * magnitude b) (2 ^ 149) := by
    simp [mulFloat, isNan_of_isFinite ha, isNan_of_isFinite hb, isInfinite_of_isFinite ha, isInfinite_of_isFinite hb]
  rw [hrounds]
  exact roundUnits_roundedTo _ _ (Nat.two_pow_pos 149)

/-! ### Quotients (R233) -/

theorem divFloat_isNan (h : isNan a = true ∨ isNan b = true) : isNan (divFloat a b) = true := by
  rw [divFloat, if_pos (by simpa using h)]
  exact isNan_nanResult ..

theorem divFloat_infinite_infinite (ha : isInfinite a = true) (hb : isInfinite b = true) :
    divFloat a b = nanResult .divs a b := by
  simp [divFloat, isNan_of_isInfinite ha, isNan_of_isInfinite hb, ha, hb]

theorem divFloat_infinite_finite (ha : isInfinite a = true) (hb : isFinite b = true) :
    divFloat a b = infinityWord (signBit a != signBit b) := by
  simp [divFloat, isNan_of_isInfinite ha, isNan_of_isFinite hb, ha, isInfinite_of_isFinite hb]

theorem divFloat_finite_infinite (ha : isFinite a = true) (hb : isInfinite b = true) :
    divFloat a b = zeroWord (signBit a != signBit b) := by
  simp [divFloat, isNan_of_isFinite ha, isNan_of_isInfinite hb, isInfinite_of_isFinite ha, hb]

theorem divFloat_by_zero (ha : isFinite a = true) (hb : isFinite b = true) (hzero : magnitude b = 0) :
    divFloat a b = if magnitude a = 0 then nanResult .divs a b else infinityWord (signBit a != signBit b) := by
  simp [divFloat, isNan_of_isFinite ha, isNan_of_isFinite hb, isInfinite_of_isFinite ha, isInfinite_of_isFinite hb,
    hzero]

theorem divFloat_finite_finite (ha : isFinite a = true) (hb : isFinite b = true) (hne : magnitude b ≠ 0) :
    RoundedTo (signBit a != signBit b) (magnitude a * 2 ^ 149) (magnitude b) (divFloat a b) := by
  have hrounds : divFloat a b = roundUnits (signBit a != signBit b) (magnitude a * 2 ^ 149) (magnitude b) := by
    simp [divFloat, isNan_of_isFinite ha, isNan_of_isFinite hb, isInfinite_of_isFinite ha, isInfinite_of_isFinite hb,
      hne]
  rw [hrounds]
  exact roundUnits_roundedTo _ _ (Nat.pos_of_ne_zero hne)

/-! ### A NaN for a zero, an infinity otherwise -/

/-- What `0 × ∞`, `0/0` and their nonzero companions have in common. -/
theorem nan_or_infinity {op : Opcode} {neg : Bool} {m : Nat} {v : Word}
    (hv : v = if m = 0 then nanResult op a b else infinityWord neg) :
    (m = 0 → isNan v = true) ∧ (m ≠ 0 → v = infinityWord neg) := by
  refine ⟨fun hzero => ?_, fun hne => ?_⟩
  · rw [hv, if_pos hzero]
    exact isNan_nanResult op a b
  · rw [hv, if_neg hne]

end

end Sys2Proof.Machine

/-! PROOFS of O28 to O30: the floating family. -/

namespace Sys2Proof.Machine

/-- An instruction of two sources publishes its function of them, whatever is known of it. -/
theorem exec_publishes_binary_with {s : State} {pc a b : Word} {st : Station} {i : Instr} {p x : Nat} {u : FuncUnit}
    {P : Word → Prop} (f : Word → Word → Word) (hf : computeOf i.opcode = binary f) (hi : i ≠ .eop)
    (hat : AtWriteResult s p x st u pc) (hj : st.j = .val (some a)) (hk : st.k = .val (some b)) (hP : P (f a b)) :
    ∃ t v, exec i s = .next t ∧ SameMemory s t ∧ Published s t p x st u v ∧ P v := by
  obtain ⟨t, hexec, hmem, hpub⟩ := exec_publishes_binary f hf hi hat hj hk rfl
  exact ⟨t, _, hexec, hmem, hpub, hP⟩

/-- Settles O28: `roundUnits` rounds correctly, and finite operands reach it with the exact result. -/
theorem floatFiniteResultsAreNearestEven : Obligations.FloatFiniteResultsAreNearestEven := by
  unfold Obligations.FloatFiniteResultsAreNearestEven
  intro s p x st u pc a b d m n hat hj hk ha hb
  refine ⟨?adds, ?subs, ?mults, fun hne => ?divs⟩
  case adds =>
    exact exec_publishes_binary_with _ rfl Instr.noConfusion hat hj hk (addFloat_finite_finite ha hb)
  case subs =>
    exact exec_publishes_binary_with _ rfl Instr.noConfusion hat hj hk (subFloat_finite_finite ha hb)
  case mults =>
    exact exec_publishes_binary_with _ rfl Instr.noConfusion hat hj hk (mulFloat_finite_finite ha hb)
  case divs =>
    exact exec_publishes_binary_with _ rfl Instr.noConfusion hat hj hk (divFloat_finite_finite ha hb hne)

/-- Settles O29, class by class of the operands. -/
theorem floatSpecialResults : Obligations.FloatSpecialResults := by
  unfold Obligations.FloatSpecialResults
  intro s p x st u pc a b d m n hat hj hk
  refine ⟨fun hnan i hi => ?nan, fun ha hb => ⟨?infInfAdds, ?infInfSubs, ?infInfMults, ?infInfDivs⟩,
    fun ha hb => ⟨?infFinAdds, ?infFinSubs, ?infFinMults, ?infFinDivs⟩,
    fun ha hb => ⟨?finInfAdds, ?finInfSubs, ?finInfMults, ?finInfDivs⟩, fun ha hb hzero => ?byZero⟩
  case nan =>
    simp only [List.mem_cons, List.not_mem_nil, or_false] at hi
    obtain rfl | rfl | rfl | rfl := hi
    · exact exec_publishes_binary_with _ rfl Instr.noConfusion hat hj hk (addFloat_isNan hnan)
    · exact exec_publishes_binary_with _ rfl Instr.noConfusion hat hj hk (subFloat_isNan hnan)
    · exact exec_publishes_binary_with _ rfl Instr.noConfusion hat hj hk (mulFloat_isNan hnan)
    · exact exec_publishes_binary_with _ rfl Instr.noConfusion hat hj hk (divFloat_isNan hnan)
  case infInfAdds =>
    refine exec_publishes_binary_with addFloat rfl Instr.noConfusion hat hj hk ?_
    rw [addFloat, addWith_infinite_infinite _ _ ha hb]
    exact ⟨fun hsame => if_pos hsame, fun hne => by rw [if_neg hne]; exact isNan_nanResult ..⟩
  case infInfSubs =>
    refine exec_publishes_binary_with subFloat rfl Instr.noConfusion hat hj hk ?_
    rw [subFloat_infinite_infinite ha hb]
    exact ⟨fun hsame => by rw [if_pos hsame]; exact isNan_nanResult .., fun hne => if_neg hne⟩
  case infInfMults =>
    exact exec_publishes_binary _ rfl Instr.noConfusion hat hj hk (mulFloat_infinite_infinite ha hb)
  case infInfDivs =>
    refine exec_publishes_binary_with divFloat rfl Instr.noConfusion hat hj hk ?_
    rw [divFloat_infinite_infinite ha hb]
    exact isNan_nanResult ..
  case infFinAdds => exact exec_publishes_binary _ rfl Instr.noConfusion hat hj hk (addWith_infinite_finite _ _ ha hb)
  case infFinSubs => exact exec_publishes_binary _ rfl Instr.noConfusion hat hj hk (subFloat_infinite_finite ha hb)
  case infFinMults =>
    exact exec_publishes_binary_with _ rfl Instr.noConfusion hat hj hk
      (nan_or_infinity (mulFloat_infinite_finite ha hb))
  case infFinDivs => exact exec_publishes_binary _ rfl Instr.noConfusion hat hj hk (divFloat_infinite_finite ha hb)
  case finInfAdds => exact exec_publishes_binary _ rfl Instr.noConfusion hat hj hk (addWith_finite_infinite _ _ ha hb)
  case finInfSubs => exact exec_publishes_binary _ rfl Instr.noConfusion hat hj hk (subFloat_finite_infinite ha hb)
  case finInfMults =>
    exact exec_publishes_binary_with _ rfl Instr.noConfusion hat hj hk
      (nan_or_infinity (mulFloat_finite_infinite ha hb))
  case finInfDivs => exact exec_publishes_binary _ rfl Instr.noConfusion hat hj hk (divFloat_finite_infinite ha hb)
  case byZero =>
    exact exec_publishes_binary_with _ rfl Instr.noConfusion hat hj hk
      (nan_or_infinity (divFloat_by_zero ha hb hzero))

/-- Settles O30: the fields of a NaN result, whatever the free value. -/
theorem nanResultIsANanEncoding : Obligations.NanResultIsANanEncoding := nanResult_fields

end Sys2Proof.Machine

/-! PROOFS of O31 and O33: the loads and stores that do not fault. -/

namespace Sys2Proof.Machine

section
variable {s : State} {pc a v : Word} {st : Station}

/-! ### The accesses that pass their checks (R84 to R87) -/

theorem memRead_of_word (hal : a.toNat % 4 = 0) (hin : a.toNat + 4 ≤ s.cfg.memSize)
    (h : s.mem.word? a.toNat = some v) : memRead s a = .value v s.mem := by
  simp [memRead, aligned_iff.mpr hal, inBounds_iff.mpr hin, h]

theorem memWrite_of_inside (v : Word) (hal : a.toNat % 4 = 0) (hin : a.toNat + 4 ≤ s.cfg.memSize) :
    memWrite s a v = .value v (s.mem.setWord a.toNat v) := by
  simp [memWrite, aligned_iff.mpr hal, inBounds_iff.mpr hin]

/-! ### Loads and stores at Write-result (R92, R93) -/

variable {i : Instr} {p x : Nat} {u : FuncUnit}

/-- A load publishes the word that memory holds at its effective address. -/
theorem exec_publishes_load (hf : computeOf i.opcode = load) (hi : i ≠ .eop) (hat : AtWriteResult s p x st u pc)
    (hea : st.ea = some a) (hal : a.toNat % 4 = 0) (hin : a.toNat + 4 ≤ s.cfg.memSize)
    (hword : s.mem.word? a.toNat = some v) :
    ∃ t, exec i s = .next t ∧ SameMemory s t ∧ Published s t p x st u v :=
  exec_publishes_sameMemory hi hat (hf ▸ (load_of_address hea).trans (memRead_of_word hal hin hword))

/-- A store writes its data operand at its effective address and publishes it. -/
theorem exec_publishes_store (hf : computeOf i.opcode = store) (hi : i ≠ .eop) (hat : AtWriteResult s p x st u pc)
    (hea : st.ea = some a) (hk : st.k = .val (some v)) (hal : a.toNat % 4 = 0)
    (hin : a.toNat + 4 ≤ s.cfg.memSize) :
    ∃ t, exec i s = .next t ∧ StoresWord s t a v ∧ Published s t p x st u v := by
  have hc : computeOf i.opcode s pc st = .value v (s.mem.setWord a.toNat v) :=
    hf ▸ (store_of_operand hea hk).trans (memWrite_of_inside v hal hin)
  obtain ⟨t, hexec, hmem, hpub⟩ := exec_publishes hi hat hc
  exact ⟨t, hexec, storesWord_setWord hmem, hpub⟩

end

/-- Settles O31: the four bytes make the word that the checked read answers. -/
theorem loadsPublishTheMemoryWord : Obligations.LoadsPublishTheMemoryWord := by
  unfold Obligations.LoadsPublishTheMemoryWord
  intro s p x st u pc a i b0 b1 b2 b3 d m hat hea hal hin h0 h1 h2 h3
  have hword : s.mem.word? a.toNat = some (b3 ++ (b2 ++ (b1 ++ b0))) :=
    word?_eq_some.mpr ⟨b0, b1, b2, b3, h0, h1, h2, h3, rfl⟩
  refine ⟨?lw, ?lws⟩
  case lw => exact exec_publishes_load rfl Instr.noConfusion hat hea hal hin hword
  case lws => exact exec_publishes_load rfl Instr.noConfusion hat hea hal hin hword

/-- Settles O33: the checked write stores the data operand's four bytes, and answers that word. -/
theorem storesWriteTheirWord : Obligations.StoresWriteTheirWord := by
  unfold Obligations.StoresWriteTheirWord
  intro s p x st u pc a v i m n hat hea hk hal hin
  refine ⟨?sw, ?sws⟩
  case sw => exact exec_publishes_store rfl Instr.noConfusion hat hea hk hal hin
  case sws => exact exec_publishes_store rfl Instr.noConfusion hat hea hk hal hin

end Sys2Proof.Machine

/-! PROOF of O36: the branches and the jump. -/

namespace Sys2Proof.Machine

section
variable {s : State} {pc a : Word} {st : Station}

/-! ### The six conditions on the signed value (R271 to R276) -/

theorem isZero_iff : isZero a = true ↔ a.toInt = 0 := decide_eq_true_iff
theorem isNonzero_iff : isNonzero a = true ↔ a.toInt ≠ 0 := decide_eq_true_iff
theorem isNegative_iff : isNegative a = true ↔ a.toInt < 0 := decide_eq_true_iff
theorem isPositive_iff : isPositive a = true ↔ 0 < a.toInt := decide_eq_true_iff
theorem isNonpositive_iff : isNonpositive a = true ↔ a.toInt ≤ 0 := decide_eq_true_iff
theorem isNonnegative_iff : isNonnegative a = true ↔ 0 ≤ a.toInt := decide_eq_true_iff

/-! ### `Compute` of a branch (R120, R270) -/

variable {P : Prop} [Decidable P] {cond : Word → Bool}

/-- On a defined operand a branch answers its target or its fall-through; `hcond` says its condition in other words. -/
theorem branchOn_of_word (hj : st.j = .val (some a)) (hcond : cond a = true ↔ P) :
    branchOn cond s pc st = .value (if P then pc + st.imm else pc + 4) s.mem := by
  have hselect : (if cond a then pc + st.imm else fallThrough pc) = if P then pc + st.imm else pc + 4 :=
    if_congr hcond rfl (fallThrough_eq pc)
  rw [← hselect]
  exact withOperand_of_word hj _

/-! ### A branch at Write-result -/

variable {i : Instr} {p x : Nat} {u : FuncUnit}

/-- A branch publishes its target when its condition holds of the tested register, and its fall-through otherwise. -/
theorem exec_publishes_branch (hf : computeOf i.opcode = branchOn cond) (hi : i ≠ .eop)
    (hat : AtWriteResult s p x st u pc) (hj : st.j = .val (some a)) (hcond : cond a = true ↔ P) :
    ∃ t, exec i s = .next t ∧ SameMemory s t ∧ Published s t p x st u (if P then pc + st.imm else pc + 4) :=
  exec_publishes_sameMemory hi hat (hf ▸ branchOn_of_word hj hcond)

end

/-- Settles O36: each branch is decided by its condition, and `JUMP` reads no source. -/
theorem controlPublishesTheNextPc : Obligations.ControlPublishesTheNextPc := by
  unfold Obligations.ControlPublishesTheNextPc
  intro s p x st u pc i m hat
  refine ⟨fun a hj => ⟨?beqz, ?bnez, ?bltz, ?bgtz, ?blez, ?bgez⟩, ?jump⟩
  case beqz => exact exec_publishes_branch rfl Instr.noConfusion hat hj isZero_iff
  case bnez => exact exec_publishes_branch rfl Instr.noConfusion hat hj isNonzero_iff
  case bltz => exact exec_publishes_branch rfl Instr.noConfusion hat hj isNegative_iff
  case bgtz => exact exec_publishes_branch rfl Instr.noConfusion hat hj isPositive_iff
  case blez => exact exec_publishes_branch rfl Instr.noConfusion hat hj isNonpositive_iff
  case bgez => exact exec_publishes_branch rfl Instr.noConfusion hat hj isNonnegative_iff
  case jump => exact exec_publishes_sameMemory Instr.noConfusion hat rfl

end Sys2Proof.Machine

/-! PROOFS of O5, O7 and O12: what construction, `load` and a step without a program refuse. -/

namespace Sys2Proof.Machine

/-! ### Construction (R301, R340) -/

/-- The check of a class map: every opcode but the end marker has a class (R122). -/
theorem all_issuable_isSome_iff {α : Type} {classOf : Opcode → Option α} :
    issuableOpcodes.all (fun op => (classOf op).isSome) = true ↔ ∀ op, op ≠ .eop → ∃ k, classOf op = some k := by
  have heop : Opcode.eop ∉ issuableOpcodes := by decide
  have hissuable (op : Opcode) : op ∈ issuableOpcodes ↔ op ≠ .eop :=
    ⟨fun hmem hop => heop (hop ▸ hmem), mem_issuableOpcodes⟩
  simp only [List.all_eq_true, hissuable, Option.isSome_iff_exists]

theorem construct_of_checks {c : Config} (hdepth : 0 < c.robDepth) (hwidth : 0 < c.issueWidth)
    (hrs : issuableOpcodes.all (fun op => (c.rsClass op).isSome) = true)
    (hfu : issuableOpcodes.all (fun op => (c.fuClass op).isSome) = true) :
    construct c = .ok (State.blank c none 0) := by
  unfold construct
  rw [if_neg hdepth.ne', if_neg hwidth.ne', hrs, hfu, if_neg Bool.noConfusion, if_neg Bool.noConfusion]

theorem construct_issueWidth {c : Config} {s : State} (h : construct c = .ok s) : 0 < c.issueWidth := by
  refine Nat.pos_of_ne_zero fun hwidth => ?_
  unfold construct at h
  rw [if_pos hwidth] at h
  split at h <;> cases h

/-- Settles O5, from what a successful construction has checked and what the checks give. -/
theorem constructionChecksTheConfiguration : Obligations.ConstructionChecksTheConfiguration := by
  unfold Obligations.ConstructionChecksTheConfiguration
  refine fun c => ⟨fun ⟨s, h⟩ => ?_, fun ⟨hdepth, hwidth, hrs, hfu⟩ => ?_⟩
  · obtain ⟨hdepth, hrs, hfu, -⟩ := construct_ok h
    exact ⟨hdepth, construct_issueWidth h, all_issuable_isSome_iff.mp (List.all_eq_true.mpr hrs),
      all_issuable_isSome_iff.mp (List.all_eq_true.mpr hfu)⟩
  · exact ⟨_, construct_of_checks hdepth hwidth (all_issuable_isSome_iff.mpr hrs) (all_issuable_isSome_iff.mpr hfu)⟩

/-! ### Decoding the records (R302) -/

/-- The refusal of a program whose record `n` is refused with `e`. -/
def recordRefusal (n : Nat) : DecodeError → ConfigError
  | .unknownOpcode => .unknownOpcode n
  | .badOperand => .badOperand n

theorem decodeRecords_cons_error {w : PackedWord} {e : DecodeError} (h : decode w = .error e) (k : Nat)
    (ws : List PackedWord) : decodeRecords k (w :: ws) = .error (recordRefusal k e) := by
  cases e <;> simp only [decodeRecords, h, recordRefusal]

/-- The first record that does not decode names the refusal. -/
theorem decodeRecords_first_error {words : List PackedWord} {n : Nat} {w : PackedWord} {e : DecodeError}
    (hw : words[n]? = some w) (hbefore : ∀ m v, m < n → words[m]? = some v → ∃ i, decode v = .ok i)
    (he : decode w = .error e) (k : Nat) : decodeRecords k words = .error (recordRefusal (k + n) e) := by
  induction words generalizing n k with
  | nil => cases hw
  | cons v vs ih =>
    cases n with
    | zero =>
      obtain rfl : v = w := Option.some.inj hw
      exact decodeRecords_cons_error he k vs
    | succ n =>
      obtain ⟨i, hi⟩ := hbefore 0 v n.succ_pos rfl
      have hrest := ih hw (fun m u hm hu => hbefore (m + 1) u (Nat.succ_lt_succ hm) hu) (k + 1)
      rw [Nat.succ_add_eq_add_succ] at hrest
      simp only [decodeRecords, hi, hrest]

theorem decodeRecords_of_map {words : List PackedWord} {records : List Instr}
    (h : words.map decode = records.map Except.ok) (k : Nat) : decodeRecords k words = .ok records := by
  induction words generalizing records k with
  | nil =>
    obtain rfl := List.map_eq_nil_iff.mp h.symm
    rfl
  | cons w ws ih =>
    cases records with
    | nil => cases h
    | cons i is =>
      obtain ⟨hi, his⟩ := List.cons.inj h
      simp only [decodeRecords, hi, ih his]

/-! ### The program's shape (R302) -/

section
variable {base : Word} {records : List Instr}

theorem checkShape_eopCount (hcount : records.count .eop ≠ 1) :
    checkShape base records = .error (.badProgram .eopCount) := if_pos hcount

theorem checkShape_eopPosition (hcount : records.count .eop = 1) (hlast : records.getLast? ≠ some .eop) :
    checkShape base records = .error (.badProgram .eopPosition) := by
  unfold checkShape
  rw [if_neg (not_not.mpr hcount), if_pos hlast]

theorem checkShape_addressRange (hcount : records.count .eop = 1) (hlast : records.getLast? = some .eop)
    (hrange : 2 ^ 32 < base.toNat + 4 * records.length) :
    checkShape base records = .error (.badProgram .addressRange) := by
  unfold checkShape
  rw [if_neg (not_not.mpr hcount), if_neg (not_not.mpr hlast)]
  exact if_pos (Nat.not_le.mpr hrange)

theorem checkShape_of_checks (hcount : records.count .eop = 1) (hlast : records.getLast? = some .eop)
    (hrange : base.toNat + 4 * records.length ≤ 2 ^ 32) : checkShape base records = .ok () := by
  unfold checkShape
  rw [if_neg (not_not.mpr hcount), if_neg (not_not.mpr hlast)]
  exact if_neg (not_not.mpr hrange)

/-- With one end marker, in the last place, the marker's address is the last record's (R281). -/
theorem eopPC_of_checks (hcount : records.count .eop = 1) (hlast : records.getLast? = some .eop) :
    Program.eopPC { base := base, records := records } = base + BitVec.ofNat 32 (4 * (records.length - 1)) := by
  obtain ⟨front, rfl⟩ := List.getLast?_eq_some_iff.mp hlast
  have hfront : Instr.eop ∉ front := by
    rw [List.count_append, List.count_singleton_self] at hcount
    exact List.count_eq_zero.mp (Nat.succ.inj hcount)
  have hskip : front.findIdx (fun i => i == Instr.eop) = front.length :=
    List.findIdx_eq_length.mpr fun i hi => beq_eq_false_iff_ne.mpr fun h => hfront (h ▸ hi)
  simp [Program.eopPC, instrWidth, List.findIdx_append, hskip]

end

/-! ### Loading (R302, R341) -/

section
variable {words : List PackedWord} {base : Word} {s : State}

theorem loadProgram_of_records_error {e : ConfigError} (h : decodeRecords 0 words = .error e) :
    loadProgram words base s = .error e := by
  simp only [loadProgram, h]

theorem loadProgram_first_error {n : Nat} {w : PackedWord} {e : DecodeError} (hw : words[n]? = some w)
    (hbefore : ∀ m v, m < n → words[m]? = some v → ∃ i, decode v = .ok i) (he : decode w = .error e) :
    loadProgram words base s = .error (recordRefusal n e) := by
  rw [loadProgram_of_records_error (decodeRecords_first_error hw hbefore he 0), Nat.zero_add]

variable {records : List Instr}

theorem loadProgram_of_shape_error {e : ConfigError} (hrecords : decodeRecords 0 words = .ok records)
    (h : checkShape base records = .error e) : loadProgram words base s = .error e := by
  simp only [loadProgram, hrecords, h]

theorem loadProgram_of_shape (hrecords : decodeRecords 0 words = .ok records)
    (h : checkShape base records = .ok ()) :
    loadProgram words base s = .ok (hostReset { s with prog := some { base := base, records := records } }) := by
  simp only [loadProgram, hrecords, h]

end

/-- Settles O7, check by check. -/
theorem loadRefusesWithTheFirstFailure : Obligations.LoadRefusesWithTheFirstFailure := by
  unfold Obligations.LoadRefusesWithTheFirstFailure
  refine fun words base s => ⟨fun n w hw hbefore =>
    ⟨loadProgram_first_error hw hbefore, loadProgram_first_error hw hbefore⟩, fun records hmap => ?_⟩
  have hrecords : decodeRecords 0 words = .ok records := decodeRecords_of_map hmap 0
  refine ⟨fun hcount => ?count, fun hcount hlast => ?position, fun hcount hlast hrange => ?range,
    fun hcount hlast hrange => ?loaded⟩
  case count => exact loadProgram_of_shape_error hrecords (checkShape_eopCount hcount)
  case position => exact loadProgram_of_shape_error hrecords (checkShape_eopPosition hcount hlast)
  case range => exact loadProgram_of_shape_error hrecords (checkShape_addressRange hcount hlast hrange)
  case loaded =>
    exact ⟨loadProgram_of_shape hrecords (checkShape_of_checks hcount hlast hrange), eopPC_of_checks hcount hlast⟩

/-! ### A step without a program (R301, R345) -/

/-- Settles O12: the program is looked for before anything else. -/
theorem stepWithoutProgramIsRefused : Obligations.StepWithoutProgramIsRefused := by
  unfold Obligations.StepWithoutProgramIsRefused
  intro s hprog
  simp only [step, advance, hprog]

end Sys2Proof.Machine

/-! PROOF of O60: what a call of `run` answers, and how calls continue one another. -/

namespace Sys2Proof.Machine

/-! ### Cycles of a running block -/

theorem running_iff {s : State} : Running s ↔ s.prog.isSome = true ∧ s.stopped = false := by
  simp [Running, State.stopped]

theorem stopped_of_fault {s : State} (h : s.fault ≠ none) : s.stopped = true := by
  simp [State.stopped, Option.isSome_iff_ne_none.mpr h]

theorem step_keeps_prog {s t : State} (h : step s = .next t) : t.prog = s.prog := by
  obtain ⟨⟨p, hp⟩, ⟨-, rfl⟩ | ⟨hdone, hfault, -⟩⟩ := step_next h
  · rfl
  · obtain ⟨-, -, hprog, -⟩ := stepCountsCyclesAndRetirements s t ⟨by simp [hp], hdone, hfault⟩ h
    exact hprog

theorem runCycles_keeps_prog {n : Nat} {s t : State} (h : runCycles n s = .next t) : t.prog = s.prog := by
  induction n generalizing s with
  | zero =>
    obtain rfl : s = t := Host.Outcome.next.inj h
    rfl
  | succ n ih =>
    simp only [runCycles] at h
    split at h
    case h_1 u hstep => exact (ih h).trans (step_keeps_prog hstep)
    case h_2 | h_3 => cases h

theorem Coherent.prog_isSome {s : State} (hs : Coherent s) : s.prog.isSome = true := by
  obtain ⟨p, hp, -⟩ := hs.program
  simp [hp]

/-- `n` cycles of a coherent block: `m` of them run and are counted, fewer than `n` only where the block stopped. -/
theorem Coherent.runCycles_answers (n : Nat) : ∀ {s : State}, Coherent s → ∃ t m, runCycles n s = .next t ∧
    m ≤ n ∧ t.cycles = s.cycles + m ∧ (m = n ∨ t.stopped = true) ∧ (t.fault = none → Coherent t) := by
  induction n with
  | zero => exact fun {s} hs => ⟨s, 0, rfl, le_rfl, rfl, .inl rfl, fun _ => hs⟩
  | succ n ih =>
    intro s hs
    by_cases hstop : s.stopped = true
    · exact ⟨s, 0, runCycles_of_stopped hs.prog_isSome hstop _, Nat.zero_le _, rfl, .inr hstop, fun _ => hs⟩
    · obtain ⟨u, hstep, hcoherent⟩ := coherentBlockNeverStops s hs
      have hrunning : Running s := running_iff.mpr ⟨hs.prog_isSome, Bool.eq_false_iff.mpr hstop⟩
      obtain ⟨hcycles, -, hprog, -⟩ := stepCountsCyclesAndRetirements s u hrunning hstep
      have hrest : runCycles (n + 1) s = runCycles n u := by simp only [runCycles, hstep]
      by_cases hfault : u.fault = none
      · obtain ⟨t, m, hrun, hle, hcount, hend, ht⟩ := ih (hcoherent hfault)
        exact ⟨t, m + 1, hrest.trans hrun, Nat.succ_le_succ hle, by omega, hend.imp_left (congrArg Nat.succ), ht⟩
      · have hu := stopped_of_fault hfault
        exact ⟨u, 1, hrest.trans (runCycles_of_stopped (hprog ▸ hs.prog_isSome) hu n), by omega, hcycles, .inr hu,
          fun h => absurd h hfault⟩

/-! ### The answers of a call (R301, R345, R346) -/

section
variable {m n : Nat} {s t : State} {x : Status} {answer : Except ConfigError (Status × State)}

theorem runReturns_of_noProgram (hp : s.prog = none) : RunReturns n s answer ↔ answer = .error .noProgram := by
  simp only [RunReturns, hp]

/-- With a budget, the state its cycles leave is the only answer. -/
theorem runReturns_of_runCycles (hp : s.prog.isSome = true) (hn : 0 < n) (h : runCycles n s = .next t) :
    RunReturns n s answer ↔ answer = .ok (t.status, t) := by
  simp [runReturns_of_pos hp hn, h]

/-- What a budgeted call that returned tells: a program stands, and its cycles left the returned state. -/
theorem runCycles_of_runReturns (hn : 0 < n) (h : RunReturns n s (.ok (x, t))) :
    s.prog.isSome = true ∧ runCycles n s = .next t ∧ x = t.status := by
  have hp : s.prog.isSome = true := Option.isSome_iff_ne_none.mpr fun hnone => by
    cases (runReturns_of_noProgram hnone).mp h
  obtain ⟨u, hrun, hanswer⟩ := (runReturns_of_pos hp hn).mp h
  cases hanswer
  exact ⟨hp, hrun, rfl⟩

theorem runReturns_of_stopped (hp : s.prog.isSome = true) (hstop : s.stopped = true) :
    RunReturns n s answer ↔ answer = .ok (s.status, s) := by
  obtain rfl | hn := n.eq_zero_or_pos
  · rw [runReturns_zero hp]
    refine ⟨fun ⟨m, t, hrun, _, hanswer⟩ => ?_, fun h => ⟨0, s, rfl, hstop, h⟩⟩
    rw [runCycles_of_stopped hp hstop m] at hrun
    cases hrun
    exact hanswer
  · exact runReturns_of_runCycles hp hn (runCycles_of_stopped hp hstop n)

/-- `run(0)` is the limit of the budgeted calls: one cycle more than were run is a positive budget that leaves the same
state. -/
theorem runReturns_zero_iff_limit (hp : s.prog.isSome = true) : RunReturns 0 s answer ↔
    ∃ m x t, 0 < m ∧ RunReturns m s (.ok (x, t)) ∧ t.stopped = true ∧ answer = .ok (x, t) := by
  rw [runReturns_zero hp]
  constructor
  · rintro ⟨m, t, hrun, hstop, hanswer⟩
    have ht : t.prog.isSome = true := runCycles_keeps_prog hrun ▸ hp
    have hlonger : runCycles (m + 1) s = .next t := (runCycles_add hrun).trans (runCycles_of_stopped ht hstop 1)
    exact ⟨m + 1, t.status, t, m.succ_pos, (runReturns_of_runCycles hp m.succ_pos hlonger).mpr rfl, hstop, hanswer⟩
  · rintro ⟨m, x, t, hm, hreturns, hstop, hanswer⟩
    obtain ⟨-, hrun, rfl⟩ := runCycles_of_runReturns hm hreturns
    exact ⟨m, t, hrun, hstop, hanswer⟩

theorem runReturns_add (hm : 0 < m) (hn : 0 < n) (h : RunReturns m s (.ok (x, t))) :
    RunReturns (m + n) s answer ↔ RunReturns n t answer := by
  obtain ⟨hp, hrun, -⟩ := runCycles_of_runReturns hm h
  have ht : t.prog.isSome = true := runCycles_keeps_prog hrun ▸ hp
  rw [runReturns_of_pos hp (Nat.add_pos_left hm n), runReturns_of_pos ht hn, runCycles_add hrun]

end

/-- Settles O60, clause by clause from the answers of a call. -/
theorem runAnswersWithinItsBudget : Obligations.RunAnswersWithinItsBudget := by
  unfold Obligations.RunAnswersWithinItsBudget
  refine ⟨fun _ _ _ => runReturns_of_noProgram, fun _ _ _ => runReturns_of_stopped, fun n s hs hn => ?budget,
    fun _ _ => runReturns_zero_iff_limit, fun _ _ _ _ _ _ => runReturns_add⟩
  case budget =>
    obtain ⟨t, m, hrun, hrest⟩ := hs.runCycles_answers n
    exact ⟨t, m, fun _ => runReturns_of_runCycles hs.prog_isSome hn hrun, hrest⟩

end Sys2Proof.Machine
